-- ==== Sys2Proof/Machine/Constants.lean ====
section
/-! DEFINITION. The numeric literals of 00_scope.md R8 to R11, each held once as a named constant, so that a corrected
value changes one definition (R15). Types, fields of encodings and loops are written with these names. -/

namespace Sys2Proof.Config

/-- `ALPHABET_SIZE`: the symbols below it are bytes, and it is `SENTINEL` itself (00_scope.md R8). -/
abbrev alphabetSize : Nat := 256

/-- `ALPHABET_SIZE + 1`, the number of symbols, the sentinel among them (00_scope.md R8). -/
abbrev symbolCount : Nat := alphabetSize + 1

/-- `UNIT_BITS`: the width in which the input is counted and encoded and the output decoded (00_scope.md R9). -/
abbrev unitBits : Nat := 8

/-- `VALUE_BITS`: the width of a leaf's value (00_scope.md R10). -/
abbrev valueBits : Nat := 9

/-- `MAGIC_BITS`: the width of a file's first field (00_scope.md R11). -/
abbrev magicBits : Nat := 32

/-- `MAGIC` (00_scope.md R11). -/
abbrev magic : Nat := 0xFACE8201

end Sys2Proof.Config
end

