-- ==== Sys2Proof/Word.lean ====
section
/-! DEFINITION. The widths the spec fixes, as types: bytes, register words, handles, symbols, and the words of the
codec's three encoding spaces (30_encoding.md R100). -/

namespace Sys2Proof

/-- One byte of a stream: 8 bits (20_memory.md R71), whatever unit the codec reads it in. -/
abbrev Byte := BitVec 8

/-- One 32-bit word of the host register space (20_memory.md R70) and of every count and weight (00_scope.md R12). -/
abbrev Word := BitVec 32

/-- The sequencer's 4-bit phase code (10_state.md R36). -/
abbrev PhaseCode := BitVec 4

/-- The 10-bit index of a node in the arena (00_scope.md R13). -/
abbrev Handle := BitVec 10

/-- What the codec reads of the input at a time (00_scope.md R9). -/
abbrev InputUnit := BitVec Config.unitBits

/-- The value of a leaf, 9 bits, 0 to 511 (00_scope.md R10, 30_encoding.md R117). -/
abbrev LeafValue := BitVec Config.valueBits

/-- A symbol: 0 to 255 are bytes, 256 is the sentinel (00_scope.md R8). It indexes `counts` and `code`. -/
abbrev Symbol := Fin Config.symbolCount

/-- A word of one of the encoding spaces the codec decodes (30_encoding.md R100): the host's command word, the
sequencer's phase code, a tree record as bits in stream order. The fourth space, payload codes, has no fixed words. -/
inductive CodeWord where
  | command (w : Word)
  | phase (p : PhaseCode)
  | record (bits : List Bool)
  deriving DecidableEq, Repr

end Sys2Proof
end

