-- ==== Sys2Proof/Machine/Bits.lean ====
section
/-! DEFINITION. Bit strings in stream order (00_scope.md R17, R18): `bits_N`, `num`, and bytes packed most significant
bit first (20_memory.md R79). -/

namespace Sys2Proof.Machine

/-- `bits_N(v)`: the low N bits of v, most significant first (00_scope.md R18). -/
def bitsN : Nat → Nat → List Bool
  | 0, _ => []
  | n + 1, v => v.testBit n :: bitsN n v

/-- `num(s)`: the number whose bits, most significant first, are s (00_scope.md R18). -/
def num (bits : List Bool) : Nat :=
  bits.foldl (fun v b => 2 * v + b.toNat) 0

/-- The bit string of a byte sequence (20_memory.md R71). -/
def bitsOfBytes : List Byte → List Bool
  | [] => []
  | b :: rest => bitsN 8 b.toNat ++ bitsOfBytes rest

/-- The whole bytes of a bit string: byte j is `num(OUT[8j .. 8j+7])` (20_memory.md R75). -/
def bytesOf : List Bool → List Byte
  | b7 :: b6 :: b5 :: b4 :: b3 :: b2 :: b1 :: b0 :: rest =>
    BitVec.ofNat 8 (num [b7, b6, b5, b4, b3, b2, b1, b0]) :: bytesOf rest
  | _ => []

end Sys2Proof.Machine
end

