-- ==== Sys2Proof/Syntax.lean ====
section
/-! DEFINITION. The codec's instructions: one constructor for each row of spec/opcode_table.json. -/

namespace Sys2Proof

/-- The rows of spec/opcode_table.json in the table's order: two command words, twelve phases, two tree records. Only
LEAF has an operand; a command's operands are the streams the host attached (30_encoding.md R101). -/
inductive Instr where
  /-- COMPRESS, command word 1 (48_commands.md R251). -/
  | compress
  /-- DECOMPRESS, command word 2 (48_commands.md R252). -/
  | decompress
  /-- IDLE, phase 0 (48_commands.md R254). -/
  | idle
  /-- COUNT, phase 1 (41_frequency_counter.md R140). -/
  | count
  /-- BUILD, phase 2 (42_tree_builder.md R159). -/
  | build
  /-- GENCODES, phase 3 (43_code_table.md R170). -/
  | gencodes
  /-- WRITE_HEADER, phase 4 (44_tree_serializer.md R180). -/
  | writeHeader
  /-- REWIND, phase 5 (46_encoder.md R210). -/
  | rewind
  /-- ENCODE, phase 6 (46_encoder.md R211). -/
  | encode
  /-- CLOSE_C, phase 7 (46_encoder.md R212). -/
  | closeC
  /-- READ_MAGIC, phase 8 (45_tree_deserializer.md R190). -/
  | readMagic
  /-- DESERIALIZE, phase 9 (45_tree_deserializer.md R191). -/
  | deserialize
  /-- DECODE, phase 10 (47_decoder.md R230). -/
  | decode
  /-- CLOSE_D, phase 11 (47_decoder.md R236). -/
  | closeD
  /-- INTERNAL, the tree record `0` (30_encoding.md R114). -/
  | internal
  /-- LEAF, the tree record `1 vvvvvvvvv` (30_encoding.md R115). -/
  | leaf (value : LeafValue)
  deriving DecidableEq, Repr

end Sys2Proof
end

