-- ==== Sys2Proof/Config.lean ====
section
/-! DEFINITION. What an implementation fixes beside the constants of Machine/Constants.lean: the sizes of the codec's memories, the platform's base address, and the
free values for what the spec gives no value of. -/

namespace Sys2Proof.Config

/-- `NODE_CAP`, the number of entries of the node arena (00_scope.md R13; log 17). -/
abbrev nodeCap : Nat := 1024

/-- `MAX_CODE_BITS`: 256, since a full tree of ALPHABET_SIZE + 1 leaves is no deeper than ALPHABET_SIZE
(00_scope.md R14). -/
abbrev maxCodeBits : Nat := alphabetSize

/-- The width of a code's length field (00_scope.md R14). -/
abbrev codeLenBits : Nat := 9

/-- `CODEC_BASE`, where the platform puts the register block (20_memory.md R84; log 19). No value is known. -/
opaque codecBase : Nat

/-- The platform's address of the register at an offset of the block (20_memory.md R84). The model's host moves name
registers by offset. -/
def busAddress (offset : Nat) : Nat := codecBase + offset

/-- FREE VALUE: the weight written for two children whose exact sum does not fit 32 bits (42_tree_builder.md R155 says
that no run has such children; log 9). -/
opaque freeWeight : Word → Word → Word

/-- FREE VALUE: the length field written for a leaf deeper than 256 (00_scope.md R14, 43_code_table.md R170 say that no
run has one; log 10). The arguments are the depth and the path. -/
opaque freeCodeLen : Nat → Nat → BitVec codeLenBits

/-- FREE VALUE: the bits field written for a leaf deeper than 256 (log 10). -/
opaque freeCodeBits : Nat → Nat → BitVec maxCodeBits

end Sys2Proof.Config
end

