-- ==== Sys2Proof/WellFormed.lean ====
section
/-! DEFINITION. Which words the encoding spaces hold, and which instructions a file written by COMPRESS holds. An
instruction needs no check of its own: its one operand, the 9-bit value of LEAF, is legal at every value
(30_encoding.md R118). -/

namespace Sys2Proof

/-- A word that stands for an instruction: command 1 or 2 (30_encoding.md R105), phase 0 to 11 (R104), a tree record
whose length its first bit gives (R116). -/
def CodeWord.wf : CodeWord → Bool
  | .command w => w == 1#32 || w == 2#32
  | .phase p => p.toNat ≤ 11
  | .record [] => false
  | .record (false :: rest) => rest.isEmpty
  | .record (true :: rest) => rest.length == Config.valueBits

/-- An instruction that a conforming file can hold or a run can meet: a LEAF names a symbol 0 to 256
(30_encoding.md R117, R118). A header with another leaf value is accepted all the same. -/
def Instr.conforming : Instr → Bool
  | .leaf v => v.toNat < Config.symbolCount
  | _ => true

end Sys2Proof
end

