-- ==== Sys2Proof/Decode.lean ====
section
/-! DEFINITION. The decoder of the three encoding spaces, total and rejecting by name, and the encoder beside it
(30_encoding.md R100 to R118). -/

namespace Sys2Proof

/-- Phase codes (30_encoding.md R104). -/
def phaseIdle : PhaseCode := 0
def phaseCount : PhaseCode := 1
def phaseBuild : PhaseCode := 2
def phaseGencodes : PhaseCode := 3
def phaseWriteHeader : PhaseCode := 4
def phaseRewind : PhaseCode := 5
def phaseEncode : PhaseCode := 6
def phaseCloseC : PhaseCode := 7
def phaseReadMagic : PhaseCode := 8
def phaseDeserialize : PhaseCode := 9
def phaseDecode : PhaseCode := 10
def phaseCloseD : PhaseCode := 11

/-- Command words (30_encoding.md R102, R103). -/
def commandCompress : Word := 0x00000001
def commandDecompress : Word := 0x00000002

/-- Why a word is no instruction. -/
inductive Reject where
  /-- A command word other than 1 and 2 (30_encoding.md R105). -/
  | illegalCommand (w : Word)
  /-- A phase code 12 to 15 (30_encoding.md R104). -/
  | reservedPhase (p : PhaseCode)
  /-- The bits end before the record does (30_encoding.md R116). -/
  | truncatedRecord
  /-- Bits follow a word that should be one record. -/
  | extraBits
  deriving DecidableEq, Repr

/-- A command word is compared whole (30_encoding.md R101 to R103, R105). -/
def decodeCommand (w : Word) : Except Reject Instr :=
  if w = commandCompress then .ok .compress
  else if w = commandDecompress then .ok .decompress
  else .error (.illegalCommand w)

/-- The phase a code names (30_encoding.md R104). -/
def decodePhase (p : PhaseCode) : Except Reject Instr :=
  if p = phaseIdle then .ok .idle
  else if p = phaseCount then .ok .count
  else if p = phaseBuild then .ok .build
  else if p = phaseGencodes then .ok .gencodes
  else if p = phaseWriteHeader then .ok .writeHeader
  else if p = phaseRewind then .ok .rewind
  else if p = phaseEncode then .ok .encode
  else if p = phaseCloseC then .ok .closeC
  else if p = phaseReadMagic then .ok .readMagic
  else if p = phaseDeserialize then .ok .deserialize
  else if p = phaseDecode then .ok .decode
  else if p = phaseCloseD then .ok .closeD
  else .error (.reservedPhase p)

/-- The first record of a bit string and the bits after it: `0` is INTERNAL, `1` and VALUE_BITS (nine) value bits are
LEAF, the value most significant bit first and zero-extended (30_encoding.md R114 to R117). -/
def decodeRecord : List Bool → Except Reject (Instr × List Bool)
  | [] => .error .truncatedRecord
  | false :: rest => .ok (.internal, rest)
  | true :: rest =>
    if Config.valueBits ≤ rest.length then
      .ok (.leaf (BitVec.ofNat Config.valueBits (Machine.num (rest.take Config.valueBits))), rest.drop Config.valueBits)
    else .error .truncatedRecord

/-- The decoder of a whole word of any of the three spaces. -/
def decode : CodeWord → Except Reject Instr
  | .command w => decodeCommand w
  | .phase p => decodePhase p
  | .record bits =>
    match decodeRecord bits with
    | .error r => .error r
    | .ok (i, []) => .ok i
    | .ok (_, _ :: _) => .error .extraBits

/-- The word of an instruction (30_encoding.md R102 to R104, R114, R115). -/
def encode : Instr → CodeWord
  | .compress => .command commandCompress
  | .decompress => .command commandDecompress
  | .idle => .phase phaseIdle
  | .count => .phase phaseCount
  | .build => .phase phaseBuild
  | .gencodes => .phase phaseGencodes
  | .writeHeader => .phase phaseWriteHeader
  | .rewind => .phase phaseRewind
  | .encode => .phase phaseEncode
  | .closeC => .phase phaseCloseC
  | .readMagic => .phase phaseReadMagic
  | .deserialize => .phase phaseDeserialize
  | .decode => .phase phaseDecode
  | .closeD => .phase phaseCloseD
  | .internal => .record [false]
  | .leaf v => .record (true :: Machine.bitsN Config.valueBits v.toNat)

/-- The bits of a LEAF record: the flag and the value (30_encoding.md R115). -/
def leafBits : Nat := 1 + Config.valueBits

/-- A number of bits counted in whole bytes. -/
def wholeBytes (bits : Nat) : Nat := 8 * ((bits + 7) / 8)

/-- The word that opcode_table.json's numbering gives as nbits bits of value w (log 22). 32 bits are a command word, 8
bits (or 4) a phase code in the low 4 bits, 16 bits (or 10) a LEAF record whose flag is bit 9, 1 bit the INTERNAL
record. The INTERNAL row's one bit, counted in whole bytes, has IDLE's width and value; 8 bits of 0 are read as IDLE. -/
def tableWord (nbits w : Nat) : Option CodeWord :=
  if nbits = 32 then (if w < 2 ^ 32 then some (.command (BitVec.ofNat 32 w)) else none)
  else if nbits = 8 ∨ nbits = 4 then (if w < 2 ^ 4 then some (.phase (BitVec.ofNat 4 w)) else none)
  else if nbits = wholeBytes leafBits ∨ nbits = leafBits then
    (if w < 2 ^ leafBits then some (.record (Machine.bitsN leafBits w)) else none)
  else if nbits = 1 then (if w < 2 then some (.record (Machine.bitsN 1 w)) else none)
  else none

/-- The instruction the decoder reads from a word of opcode_table.json's numbering. -/
def decodeTableWord (nbits w : Nat) : Option Instr :=
  match tableWord nbits w with
  | none => none
  | some c => (decode c).toOption

end Sys2Proof
end

