-- ==== Sys2Proof/Machine/State.lean ====
section
/-! DEFINITION. The state of the codec and of its host, as plain data (10_state.md R30), the reasons a step can stop,
and the state after reset (10_state.md R53, 70_reset_and_hazards.md R310). -/

namespace Sys2Proof.Machine

/-- A node of the arena (10_state.md R40). -/
structure Node where
  leaf : Bool
  value : LeafValue
  weight : Word
  left : Handle
  right : Handle
  deriving DecidableEq, Repr

/-- An entry of the code table: the code is the low `len` bits of `bits` (10_state.md R45). -/
structure Code where
  len : BitVec Config.codeLenBits
  bits : BitVec Config.maxCodeBits
  deriving DecidableEq, Repr

/-- A member of BUILD's queue: a handle with its key (10_state.md R47, 42_tree_builder.md R151; log 25). -/
structure Key where
  weight : Word
  handle : Handle
  deriving DecidableEq, Repr

/-- An entry of the walk stack: an internal node whose subtrees are being read, and its left child once that is known
(10_state.md R48, 45_tree_deserializer.md R191; log 20). -/
structure Frame where
  node : Handle
  left : Option Handle
  deriving DecidableEq, Repr

abbrev Counts := Vector Word Config.symbolCount
abbrev Arena := Vector Node Config.nodeCap
abbrev CodeTable := Vector Code Config.symbolCount

/-- One move of the host (30_encoding.md R123, 70_reset_and_hazards.md R319; log 1). -/
inductive HostAction where
  /-- Attach an input of these bytes, with IN_POS 0; `rewindable` says whether `reset()` works on it (R314). -/
  | attachIn (bytes : List Byte) (rewindable : Bool)
  /-- Attach an empty output. -/
  | attachOut
  /-- Write `size` bytes of value `w` at a byte offset of the register block. -/
  | writeReg (offset size : Nat) (w : Word)
  /-- Read `size` bytes at a byte offset of the register block. -/
  | readReg (offset size : Nat)
  /-- Read STATUS until BUSY is 0; the codec moves meanwhile. -/
  | wait
  /-- Let the codec make one step. -/
  | codecTurn
  /-- Take the output bytes. -/
  | takeOut
  /-- Reset the codec (R310). -/
  | reset
  deriving DecidableEq, Repr

/-- Why the machine stops. No run from reset reaches one. -/
inductive Fault where
  /-- Raised by the sequencer when PHASE holds 12 to 15 while BUSY (10_state.md R36, 93_implementation_defined.md
  section 2). Safe: the spec says "stuck". -/
  | reservedPhase
  /-- Raised by GENCODES and WRITE_HEADER on an arena in which ROOT reaches a cycle (10_state.md R41 excludes it); the
  loops of the other phases name it at a bound that they never reach. Safe: the pseudocode would not end. -/
  | phaseNeverEnds
  /-- Raised by GENCODES at a leaf whose value is above 256: `code` has no such entry (10_state.md R45). Safe: a built
  tree has none. -/
  | noCodeEntry
  deriving DecidableEq, Repr

/-- What the model gives no meaning to. -/
inductive Refusal where
  /-- An instruction without a meaning; raised by no arm of exec. Safe. -/
  | notModelled (mnemonic : String)
  /-- Raised by the host's register accesses that are not one 32-bit word at a multiple of 4 (20_memory.md R82, which
  asks for the refusal). Safe. -/
  | hostAccessSize
  /-- Raised by the host's stream moves while BUSY (93_implementation_defined.md section 4, which asks for the refusal).
  Safe. -/
  | streamAccessWhileBusy
  /-- Raised by REWIND when the attached input cannot be rewound (93_implementation_defined.md section 4, which asks for
  the refusal). Safe. -/
  | inputNotRewindable
  deriving DecidableEq, Repr

/-- The codec's state (10_state.md R30), the streams it shares with the host (R49), and the host's side of the
interface (log 1, 2). `CMD` holds no value (R32), and `STATUS` is composed of `busy`, `done`, `err`, `errCode`
and `phase` (R33). -/
structure State where
  /-- STATUS.BUSY. -/
  busy : Bool
  /-- STATUS.DONE. -/
  done : Bool
  /-- STATUS.ERR. -/
  err : Bool
  /-- STATUS.ERR_CODE. -/
  errCode : BitVec 4
  /-- PHASE, also STATUS.PHASE. -/
  phase : PhaseCode
  /-- OP: 0 none, 1 COMPRESS, 2 DECOMPRESS. -/
  op : BitVec 2
  /-- The frequency table. -/
  counts : Counts
  /-- TOTAL. -/
  total : Word
  /-- N, the node arena. -/
  arena : Arena
  /-- NALLOC. -/
  nalloc : BitVec 11
  /-- ROOT. -/
  root : Handle
  /-- The code table. -/
  code : CodeTable
  /-- CUR, the decoder's pointer. -/
  cur : Handle
  /-- PQ in the order of extraction. -/
  pq : List Key
  /-- The walk stack, innermost entry first. -/
  walkStack : List Frame
  /-- IN, in stream order. -/
  input : List Bool
  /-- IN_POS. -/
  inPos : Nat
  /-- Whether the attached input can be rewound. -/
  rewindable : Bool
  /-- OUT, in stream order. -/
  output : List Bool
  /-- OUT_CLOSED. -/
  outClosed : Bool
  /-- The host's pending moves, the next one first. -/
  host : List HostAction
  /-- What the host's last register read returned. -/
  readData : Word
  /-- The bytes the host last took. -/
  taken : List Byte
  deriving DecidableEq, Repr

/-- An arena entry at reset: a leaf of value 0, so that R41 holds (log 5). -/
def Node.atReset : Node := { leaf := true, value := 0, weight := 0, left := 0, right := 0 }

/-- A code table entry at reset (log 4). -/
def Code.atReset : Code := { len := 0, bits := 0 }

/-- The machine right after reset: `STATUS`, `PHASE`, `OP`, `PQ` and the walk stack as R53 and R310 say; what they leave
unspecified as log 4, 5 and 6 name it; no host move pending. -/
def State.reset : State where
  busy := false
  done := false
  err := false
  errCode := 0
  phase := 0
  op := 0
  counts := Vector.replicate Config.symbolCount 0
  total := 0
  arena := Vector.replicate Config.nodeCap Node.atReset
  nalloc := 0
  root := 0
  code := Vector.replicate Config.symbolCount Code.atReset
  cur := 0
  pq := []
  walkStack := []
  input := []
  inPos := 0
  rewindable := true
  output := []
  outClosed := false
  host := []
  readData := 0
  taken := []

end Sys2Proof.Machine
end

