-- ==== Sys2Proof/Machine/Flags.lean ====
section
/-! DEFINITION. The codec's only flags: the fields of `STATUS` (10_state.md R33, R50) and the error codes
(60_exceptions.md R280). -/

namespace Sys2Proof.Machine

/-- The errors the codec reports (60_exceptions.md R280). -/
inductive Error where
  | invalidMagicNumber
  | malformedHeader
  | badInput
  | degenerateTree
  | nodeCapacity
  | inputTooLong
  | illegalCommand
  deriving DecidableEq, Repr

/-- STATUS.ERR_CODE of an error (60_exceptions.md R280). -/
def Error.code : Error → BitVec 4
  | .invalidMagicNumber => 1
  | .malformedHeader => 2
  | .badInput => 3
  | .degenerateTree => 4
  | .nodeCapacity => 5
  | .inputTooLong => 6
  | .illegalCommand => 7

/-- The `STATUS` word: BUSY bit 0, DONE bit 1, ERR bit 2, ERR_CODE bits 7:4, PHASE bits 11:8; bit 3 and bits 31:12 are
hardwired to 0 (10_state.md R33). -/
def State.statusWord (s : State) : Word :=
  0#20 ++ s.phase ++ s.errCode ++ 0#1 ++ BitVec.ofBool s.err ++ BitVec.ofBool s.done ++ BitVec.ofBool s.busy

end Sys2Proof.Machine
end

