-- ==== Sys2Proof/Machine/Operands.lean ====
section
/-! DEFINITION. The operands of the codec's commands are its two streams (30_encoding.md R101); this file holds the four
stream primitives (20_memory.md R72 to R77), the only operations that reach outside the codec (00_scope.md R19). -/

namespace Sys2Proof.Machine

/-- `readBits(n)` (20_memory.md R72, R73): the next n bits, first bit most significant, or `none` for EOD, which
consumes what is left. -/
def State.readBits (n : Nat) (s : State) : Option Nat × State :=
  if s.inPos + n ≤ s.input.length then
    (some (num ((s.input.drop s.inPos).take n)), { s with inPos := s.inPos + n })
  else (none, { s with inPos := s.input.length })

/-- `reset()` of the input stream (20_memory.md R74). -/
def State.rewindInput (s : State) : State := { s with inPos := 0 }

/-- `OUT <- OUT ++ bits`. -/
def State.append (bits : List Bool) (s : State) : State := { s with output := s.output ++ bits }

/-- `writeBits(n, v)` (20_memory.md R76). -/
def State.writeBits (n v : Nat) (s : State) : State := s.append (bitsN n v)

/-- How many zero bits `close()` adds to a bit string of this length: 0 to 7 (20_memory.md R77). -/
def padding (len : Nat) : Nat := (8 - len % 8) % 8

/-- `close()` (20_memory.md R77): zero bits to a byte boundary, then OUT_CLOSED. -/
def State.close (s : State) : State :=
  { s.append (List.replicate (padding s.output.length) false) with outClosed := true }

/-- The bits of the input that are still to be read. -/
def State.rest (s : State) : List Bool := s.input.drop s.inPos

end Sys2Proof.Machine
end

