-- ==== Sys2Proof/Machine/Ops.lean ====
section
/-! DEFINITION. The named operations that the phases share: the arena, the frequency table and the code table; the
sequencer's moves; taking an error and the acceptance that clears it. -/

namespace Sys2Proof.Machine

/-- The leaf value that names a symbol (00_scope.md R8, R10). -/
def valueOfSymbol (x : Symbol) : LeafValue := BitVec.ofNat Config.valueBits x.val

/-- `SENTINEL`, one past the bytes (00_scope.md R8). -/
def sentinel : Symbol := Fin.last Config.alphabetSize

/-- `SENTINEL` as a leaf value. -/
def sentinelValue : LeafValue := valueOfSymbol sentinel

/-- The symbol of a unit of the input: its value (00_scope.md R8, R9). -/
def symbolOfByte (b : InputUnit) : Symbol :=
  ⟨b.toNat, Nat.lt_of_lt_of_le b.isLt (by decide : 2 ^ Config.unitBits ≤ Config.symbolCount)⟩

/-- `N[h]` (10_state.md R40): every 10-bit handle is an index of the arena. -/
def nodeAt (arena : Arena) (h : Handle) : Node := arena[h.toNat]'h.isLt

/-- `N[h]` of a state. -/
abbrev State.node (s : State) (h : Handle) : Node := nodeAt s.arena h

/-- `N[h] <- n`. -/
def State.setNode (h : Handle) (n : Node) (s : State) : State :=
  { s with arena := s.arena.set h.toNat n h.isLt }

/-- `counts[x]`. -/
def State.count (s : State) (x : Symbol) : Word := s.counts[x.val]'x.isLt

/-- `counts[x] <- w`. -/
def State.setCount (x : Symbol) (w : Word) (s : State) : State :=
  { s with counts := s.counts.set x.val w x.isLt }

/-- `code[x]`. -/
def State.codeOf (s : State) (x : Symbol) : Code := s.code[x.val]'x.isLt

/-- `code[x] <- c`. -/
def State.setCode (x : Symbol) (c : Code) (s : State) : State :=
  { s with code := s.code.set x.val c x.isLt }

/-- `PHASE <- p` (48_commands.md R253). -/
def State.setPhase (p : PhaseCode) (s : State) : State := { s with phase := p }

/-- TAKING AN ERROR, `raise E` (60_exceptions.md R285): BUSY and DONE clear, ERR set, ERR_CODE the error's; PHASE keeps
the raising phase, and nothing else of the command happens. -/
def State.raise (e : Error) (s : State) : State :=
  { s with busy := false, done := false, err := true, errCode := e.code }

/-- `illegal()` (48_commands.md R255): the error IllegalCommand, with PHASE IDLE. -/
def State.illegal (s : State) : State := (s.raise .illegalCommand).setPhase phaseIdle

/-- The acceptance of a command (48_commands.md R250). It is also the only thing that clears an error
(60_exceptions.md R289). -/
def State.accept (op : BitVec 2) (first : PhaseCode) (s : State) : State :=
  { s with op := op, done := false, err := false, errCode := 0, busy := true, phase := first }

/-- `complete()` (48_commands.md R254). -/
def State.complete (s : State) : State :=
  { s with busy := false, done := true, err := false, errCode := 0, phase := phaseIdle }

/-- Reset of the codec (70_reset_and_hazards.md R310): every element of the codec as after `State.reset` (log 7); the
streams, the host's moves and what the host got back stay. -/
def State.codecReset (s : State) : State :=
  { State.reset with
    input := s.input, inPos := s.inPos, rewindable := s.rewindable, output := s.output, outClosed := s.outClosed,
    host := s.host, readData := s.readData, taken := s.taken }

/-- The order R151 on keys: the smaller weight first, of equal weights the smaller handle. It is `TIE_ORDER`'s default
(42_tree_builder.md R162; log 18). -/
def tieBefore (x y : Key) : Bool :=
  decide (x.weight.toNat < y.weight.toNat) ||
    (decide (x.weight.toNat = y.weight.toNat) && decide (x.handle.toNat < y.handle.toNat))

/-- Which of two extracted nodes is the left child: the first one (42_tree_builder.md R153), the default. -/
def firstIsLeft (_ _ : Key) : Bool := true

/-- `insert(PQ, h)` (42_tree_builder.md R152) under an order: the list stays in order of extraction. -/
def insertKey (before : Key → Key → Bool) (k : Key) : List Key → List Key
  | [] => [k]
  | x :: rest => if before x k then x :: insertKey before k rest else k :: x :: rest

/-- `extractMin(PQ)` (42_tree_builder.md R152): the least key and the queue without it. -/
def extractMin : List Key → Option (Key × List Key)
  | [] => none
  | x :: rest => some (x, rest)

/-- The sum of two weights (42_tree_builder.md R155): exact where it fits 32 bits, as in every run; a free value where
it would not (log 9). -/
def addWeights (x y : Word) : Word :=
  if x.toNat + y.toNat < 2 ^ 32 then x + y else Config.freeWeight x y

/-- `{len: d, bits: p}` as a code table entry (43_code_table.md R170): exact for a depth up to 256, as in every run; a
free value beyond (log 10). -/
def mkCode (d p : Nat) : Code :=
  if d ≤ Config.maxCodeBits then
    { len := BitVec.ofNat Config.codeLenBits d, bits := BitVec.ofNat Config.maxCodeBits p }
  else { len := Config.freeCodeLen d p, bits := Config.freeCodeBits d p }

/-- The step a phase answers when its walk over the tree ends, or stops. -/
def ofWalk : Except Fault State → Host.Outcome State Fault Refusal
  | .ok s => .next s
  | .error r => .fault r

end Sys2Proof.Machine
end

