-- ==== Sys2Proof/Machine/Builder.lean ====
section
/-! DEFINITION. The unit huffman_tree_builder: phase BUILD (42_tree_builder.md), over any tie-break order (R162). -/

namespace Sys2Proof.Machine

/-- The leaf of a symbol (42_tree_builder.md R150). -/
def State.symbolLeaf (s : State) (x : Symbol) : Node :=
  { leaf := true, value := valueOfSymbol x, weight := s.count x, left := 0, right := 0 }

/-- `N[x] <- leaf` and `insert(PQ, x)` for one symbol; the leaf of symbol x has handle x (42_tree_builder.md R150). -/
def placeSymbol (before : Key → Key → Bool) (s : State) (x : Symbol) : State :=
  { s.setNode (BitVec.ofNat 10 x.val) (s.symbolLeaf x) with
    pq := insertKey before { weight := s.count x, handle := BitVec.ofNat 10 x.val } s.pq }

/-- BUILD's first loop: every symbol in order, those of count 0 too (42_tree_builder.md R150, R158). -/
def placeSymbols (before : Key → Key → Bool) (s : State) : State :=
  (List.finRange Config.symbolCount).foldl (placeSymbol before) { s with pq := [] }

/-- The k-th merge: the node of the two extracted keys at handle 257 + k (42_tree_builder.md R153 to R155). -/
def mergeNode (firstLeft : Key → Key → Bool) (s : State) (a b : Key) : Node :=
  { leaf := false
    value := 0
    weight := addWeights (s.node a.handle).weight (s.node b.handle).weight
    left := if firstLeft a b then a.handle else b.handle
    right := if firstLeft a b then b.handle else a.handle }

/-- One pass of BUILD's second loop, when the queue without the extracted keys is `rest`. -/
def mergeStep (before firstLeft : Key → Key → Bool) (k : Nat) (a b : Key) (rest : List Key) (s : State) : State :=
  let h : Handle := BitVec.ofNat 10 (Config.symbolCount + k)
  let n := mergeNode firstLeft s a b
  { s.setNode h n with pq := insertKey before { weight := n.weight, handle := h } rest }

/-- What BUILD does after its loop (42_tree_builder.md R159). -/
def finishBuild (k : Nat) (s : State) : State :=
  { s with
    root := match extractMin s.pq with
      | some (last, _) => last.handle
      | none => s.root
    nalloc := BitVec.ofNat 11 (Config.symbolCount + k)
    pq := []
    phase := phaseGencodes }

/-- BUILD's second loop: two extractions and an insertion while two or more keys are left (42_tree_builder.md R159).
A pass shortens the queue by one, so a bound of the queue's length is never reached. -/
def mergeLoop (before firstLeft : Key → Key → Bool) : Nat → Nat → State → State
  | 0, k, s => finishBuild k s
  | bound + 1, k, s =>
    match extractMin s.pq with
    | none => finishBuild k s
    | some (a, q) =>
      match extractMin q with
      | none => finishBuild k s
      | some (b, rest) => mergeLoop before firstLeft bound (k + 1) (mergeStep before firstLeft k a b rest s)

/-- BUILD under a tie-break order and a choice of the left child (42_tree_builder.md R159, R162; log 18). -/
def buildWith (before firstLeft : Key → Key → Bool) (s : State) : State :=
  let t := placeSymbols before s
  mergeLoop before firstLeft t.pq.length 0 t

/-- BUILD (42_tree_builder.md R159) with this spec's order (R151, R153). -/
def execBuild (s : State) : Host.Outcome State Fault Refusal :=
  .next (buildWith tieBefore firstIsLeft s)

end Sys2Proof.Machine
end

