-- ==== Sys2Proof/Machine/CodeTable.lean ====
section
/-! DEFINITION. The unit huffman_encoder's code table: phase GENCODES (43_code_table.md). -/

namespace Sys2Proof.Machine

/-- `code[v] <- {len: d, bits: p}` for a leaf's value v (43_code_table.md R170); a value above 256 has no entry
(10_state.md R45; log 11). -/
def setCodeOfLeaf (v : LeafValue) (d p : Nat) (s : State) : Except Fault State :=
  if h : v.toNat < Config.symbolCount then .ok (s.setCode ⟨v.toNat, h⟩ (mkCode d p))
  else .error .noCodeEntry

/-- `walk(h, d, p)` (43_code_table.md R170). The bound counts nested calls: a walk that nests more than NODE_CAP calls
has met a node below itself and never ends (log 12). -/
def walk : Nat → Handle → Nat → Nat → State → Except Fault State
  | 0, _, _, _, _ => .error .phaseNeverEnds
  | bound + 1, h, d, p, s =>
    if (s.node h).leaf then setCodeOfLeaf (s.node h).value d p s
    else
      match walk bound (s.node h).left (d + 1) (2 * p + 0) s with
      | .error r => .error r
      | .ok t => walk bound (s.node h).right (d + 1) (2 * p + 1) t

/-- GENCODES (43_code_table.md R170). -/
def execGencodes (s : State) : Host.Outcome State Fault Refusal :=
  ofWalk ((walk Config.nodeCap s.root 0 0 s).map (State.setPhase phaseWriteHeader))

end Sys2Proof.Machine
end

