-- ==== Sys2Proof/Machine/Commands.lean ====
section
/-! DEFINITION. The two commands and the wait for one (48_commands.md). -/

namespace Sys2Proof.Machine

/-- COMPRESS (48_commands.md R251): accepted while BUSY = 0 (R250), ignored while BUSY = 1 (R257). -/
def execCompress (s : State) : Host.Outcome State Fault Refusal :=
  if s.busy then .next s else .next (s.accept 1 phaseCount)

/-- DECOMPRESS (48_commands.md R252): accepted while BUSY = 0 (R250), ignored while BUSY = 1 (R257). -/
def execDecompress (s : State) : Host.Outcome State Fault Refusal :=
  if s.busy then .next s else .next (s.accept 2 phaseReadMagic)

/-- IDLE (48_commands.md R254): "waits in IDLE for the next `CMD` write and performs no stream operation". All state
survives the wait (60_exceptions.md R297; log 3). -/
def execIdle (s : State) : Host.Outcome State Fault Refusal := .next s

end Sys2Proof.Machine
end

