-- ==== Sys2Proof/Machine/Counter.lean ====
section
/-! DEFINITION. The unit frequency_counter: phase COUNT (41_frequency_counter.md). -/

namespace Sys2Proof.Machine

/-- COUNT's loop (41_frequency_counter.md R140). Each pass consumes 8 bits or ends, so a bound above the number of bits
left is never reached. -/
def countLoop : Nat → State → Host.Outcome State Fault Refusal
  | 0, _ => .fault .phaseNeverEnds
  | bound + 1, s =>
    match s.readBits Config.unitBits with
    | (none, s) => .next (s.setPhase phaseBuild)
    | (some v, s) =>
      if s.total.toNat = 2 ^ 32 - 1 then .next (s.raise .inputTooLong)
      else
        let b := symbolOfByte (BitVec.ofNat Config.unitBits v)
        countLoop bound { s.setCount b (s.count b + 1) with total := s.total + 1 }

/-- The table COUNT starts from: the sentinel's count is 1, every other 0 (41_frequency_counter.md R141). -/
def State.clearCounts (s : State) : State :=
  { { s with counts := Vector.replicate Config.symbolCount 0 }.setCount sentinel 1 with total := 1 }

/-- COUNT (41_frequency_counter.md R140). -/
def execCount (s : State) : Host.Outcome State Fault Refusal :=
  countLoop (s.rest.length + 1) s.clearCounts

end Sys2Proof.Machine
end

