-- ==== Sys2Proof/Machine/Decoder.lean ====
section
/-! DEFINITION. The unit huffman_decoder: phases DECODE and CLOSE_D (47_decoder.md). -/

namespace Sys2Proof.Machine

/-- The edge of a bit: left on 0, right on 1 (47_decoder.md R232). -/
def childOf (n : Node) (bit : Nat) : Handle := if bit = 0 then n.left else n.right

/-- DECODE's loop (47_decoder.md R230). A pass consumes a bit or ends, so a bound above the number of bits left is never
reached (R237). -/
def decodeLoop : Nat → State → Host.Outcome State Fault Refusal
  | 0, _ => .fault .phaseNeverEnds
  | bound + 1, s =>
    match s.readBits 1 with
    | (none, s) => .next (s.raise .badInput)
    | (some bit, s) =>
      let s := { s with cur := childOf (s.node s.cur) bit }
      if (s.node s.cur).leaf then
        if (s.node s.cur).value = sentinelValue then .next (s.setPhase phaseCloseD)
        else decodeLoop bound { s.writeBits Config.unitBits (s.node s.cur).value.toNat with cur := s.root }
      else decodeLoop bound s

/-- DECODE (47_decoder.md R230, R231). -/
def execDecode (s : State) : Host.Outcome State Fault Refusal :=
  if (s.node s.root).leaf then .next (s.raise .degenerateTree)
  else decodeLoop (s.rest.length + 1) { s with cur := s.root }

/-- CLOSE_D (47_decoder.md R236). -/
def execCloseD (s : State) : Host.Outcome State Fault Refusal :=
  .next s.close.complete

end Sys2Proof.Machine
end

