-- ==== Sys2Proof/Machine/Deserializer.lean ====
section
/-! DEFINITION. The unit tree_deserializer: phases READ_MAGIC and DESERIALIZE, and the tree records INTERNAL and LEAF
that DESERIALIZE runs (45_tree_deserializer.md). The recursion of `deser()` is kept on the walk stack (log 20). -/

namespace Sys2Proof.Machine

/-- READ_MAGIC (45_tree_deserializer.md R190, R199). -/
def execReadMagic (s : State) : Host.Outcome State Fault Refusal :=
  match s.readBits Config.magicBits with
  | (none, s) => .next (s.raise .invalidMagicNumber)
  | (some v, s) => if v = Config.magic then .next (s.setPhase phaseDeserialize) else .next (s.raise .invalidMagicNumber)

/-- Whether NODE_CAP nodes are allocated (45_tree_deserializer.md R193; log 24). -/
def State.arenaFull (s : State) : Bool := decide (Config.nodeCap ≤ s.nalloc.toNat)

/-- `h <- NALLOC` (45_tree_deserializer.md R194). -/
def State.nextHandle (s : State) : Handle := s.nalloc.setWidth 10

/-- `NALLOC <- NALLOC + 1`. -/
def State.allocate (s : State) : State := { s with nalloc := s.nalloc + 1 }

/-- `return h` from `deser()`: an open internal node takes h as its left child, or, with its left child known, is
written and returned in turn; with no open node the phase ends, ROOT being h (45_tree_deserializer.md R191). -/
def returnNode (h : Handle) : List Frame → State → State
  | [], s => { s with walkStack := [], root := h, phase := phaseDecode }
  | { node := n, left := none } :: rest, s => { s with walkStack := { node := n, left := some h } :: rest }
  | { node := n, left := some l } :: rest, s =>
    returnNode n rest (s.setNode n { leaf := false, value := 0, weight := 0, left := l, right := h })

/-- An INTERNAL record: its handle is taken, and its two subtrees are awaited. -/
def State.openInternal (s : State) : State :=
  { s.allocate with walkStack := { node := s.nextHandle, left := none } :: s.walkStack }

/-- A LEAF record of value v: its node is written and returned. -/
def State.placeLeaf (v : LeafValue) (s : State) : State :=
  returnNode s.nextHandle s.walkStack
    (s.allocate.setNode s.nextHandle { leaf := true, value := v, weight := 0, left := 0, right := 0 })

/-- INTERNAL (30_encoding.md R114): what DESERIALIZE does at this record once its bit is read
(45_tree_deserializer.md R191; log 21). -/
def execInternal (s : State) : Host.Outcome State Fault Refusal :=
  if s.arenaFull then .next (s.raise .nodeCapacity) else .next s.openInternal

/-- LEAF (30_encoding.md R115): what DESERIALIZE does at this record once its bits are read
(45_tree_deserializer.md R191; log 21). -/
def execLeaf (v : LeafValue) (s : State) : Host.Outcome State Fault Refusal :=
  if s.arenaFull then .next (s.raise .nodeCapacity) else .next (s.placeLeaf v)

/-- The records of a tree, one pass a record, until the root's `deser()` has returned (45_tree_deserializer.md R191,
R196). A pass consumes a bit or ends, so a bound above the number of bits left is never reached. -/
def recordLoop : Nat → State → Host.Outcome State Fault Refusal
  | 0, _ => .fault .phaseNeverEnds
  | bound + 1, s =>
    match s.readBits 1 with
    | (none, s) => .next (s.raise .malformedHeader)
    | (some flag, s) =>
      if s.arenaFull then .next (s.raise .nodeCapacity)
      else if flag = 0 then recordLoop bound s.openInternal
      else
        match s.readBits Config.valueBits with
        | (none, s) => .next (s.allocate.raise .malformedHeader)
        | (some v, s) =>
          let t := s.placeLeaf (BitVec.ofNat Config.valueBits v)
          if t.walkStack.isEmpty then .next t else recordLoop bound t

/-- DESERIALIZE (45_tree_deserializer.md R191). -/
def execDeserialize (s : State) : Host.Outcome State Fault Refusal :=
  recordLoop (s.rest.length + 1) { s with nalloc := 0, walkStack := [] }

end Sys2Proof.Machine
end

