-- ==== Sys2Proof/Machine/Encoder.lean ====
section
/-! DEFINITION. The unit huffman_encoder: phases REWIND, ENCODE, CLOSE_C (46_encoder.md). -/

namespace Sys2Proof.Machine

/-- REWIND (46_encoder.md R210). The host must have attached a rewindable input (70_reset_and_hazards.md R314); the
model refuses another (93_implementation_defined.md section 4; log 16). -/
def execRewind (s : State) : Host.Outcome State Fault Refusal :=
  if s.rewindable then .next (s.rewindInput.setPhase phaseEncode) else .refused .inputNotRewindable

/-- `writeBits(code[x].len, code[x].bits)` (46_encoder.md R211). -/
def State.writeCode (x : Symbol) (s : State) : State :=
  s.writeBits (s.codeOf x).len.toNat (s.codeOf x).bits.toNat

/-- ENCODE's loop (46_encoder.md R211), bounded as COUNT's. -/
def encodeLoop : Nat → State → Host.Outcome State Fault Refusal
  | 0, _ => .fault .phaseNeverEnds
  | bound + 1, s =>
    match s.readBits Config.unitBits with
    | (none, s) => .next ((s.writeCode sentinel).setPhase phaseCloseC)
    | (some v, s) => encodeLoop bound (s.writeCode (symbolOfByte (BitVec.ofNat Config.unitBits v)))

/-- ENCODE (46_encoder.md R211). -/
def execEncode (s : State) : Host.Outcome State Fault Refusal :=
  encodeLoop (s.rest.length + 1) s

/-- CLOSE_C (46_encoder.md R212). -/
def execCloseC (s : State) : Host.Outcome State Fault Refusal :=
  .next s.close.complete

end Sys2Proof.Machine
end

