-- ==== Sys2Proof/Machine/Serializer.lean ====
section
/-! DEFINITION. The unit tree_serializer: phase WRITE_HEADER (44_tree_serializer.md). -/

namespace Sys2Proof.Machine

/-- `ser(h)` (44_tree_serializer.md R180). The bound counts nested calls, as in `walk` (log 12). -/
def ser : Nat → Handle → State → Except Fault State
  | 0, _, _ => .error .phaseNeverEnds
  | bound + 1, h, s =>
    if (s.node h).leaf then .ok ((s.writeBits 1 1).writeBits Config.valueBits (s.node h).value.toNat)
    else
      match ser bound (s.node h).left (s.writeBits 1 0) with
      | .error r => .error r
      | .ok t => ser bound (s.node h).right t

/-- WRITE_HEADER (44_tree_serializer.md R180). -/
def execWriteHeader (s : State) : Host.Outcome State Fault Refusal :=
  ofWalk ((ser Config.nodeCap s.root (s.writeBits Config.magicBits Config.magic)).map (State.setPhase phaseRewind))

end Sys2Proof.Machine
end

