-- ==== Sys2Proof/Machine/Dispatch.lean ====
section
/-! DEFINITION. One arm for each instruction. -/

namespace Sys2Proof.Machine

def exec (i : Instr) (s : State) : Host.Outcome State Fault Refusal :=
  match i with
  -- command words
  | .compress => Sys2Proof.Machine.execCompress s
  | .decompress => Sys2Proof.Machine.execDecompress s
  -- phases
  | .idle => Sys2Proof.Machine.execIdle s
  | .count => Sys2Proof.Machine.execCount s
  | .build => Sys2Proof.Machine.execBuild s
  | .gencodes => Sys2Proof.Machine.execGencodes s
  | .writeHeader => Sys2Proof.Machine.execWriteHeader s
  | .rewind => Sys2Proof.Machine.execRewind s
  | .encode => Sys2Proof.Machine.execEncode s
  | .closeC => Sys2Proof.Machine.execCloseC s
  | .readMagic => Sys2Proof.Machine.execReadMagic s
  | .deserialize => Sys2Proof.Machine.execDeserialize s
  | .decode => Sys2Proof.Machine.execDecode s
  | .closeD => Sys2Proof.Machine.execCloseD s
  -- tree records
  | .internal => Sys2Proof.Machine.execInternal s
  | .leaf v => Sys2Proof.Machine.execLeaf v s

end Sys2Proof.Machine
end

