-- ==== Sys2Proof/Machine/Sequencer.lean ====
section
/-! DEFINITION. What one step of the machine runs: the phase that PHASE names (48_commands.md R256), or the host's next
move (70_reset_and_hazards.md R319; log 1). -/

namespace Sys2Proof.Machine

/-- The codec's step: the phase that PHASE names while BUSY = 1, the wait of IDLE while BUSY = 0 (48_commands.md R256;
log 3, 13, 28). -/
def codecMove (s : State) : Host.Outcome State Fault Refusal :=
  if s.busy then
    match decodePhase s.phase with
    | .ok i => exec i s
    | .error _ => .fault .reservedPhase
  else exec .idle s

/-- A write of a word to CMD: an instruction runs; a word that is none is ignored while BUSY (48_commands.md R257) and
is the error IllegalCommand otherwise (R255). -/
def writeCommand (w : Word) (s : State) : Host.Outcome State Fault Refusal :=
  match decodeCommand w with
  | .ok i => exec i s
  | .error _ => if s.busy then .next s else .next s.illegal

/-- A register access the spec defines: a 32-bit word at a multiple of 4 (20_memory.md R82). -/
def legalAccess (offset size : Nat) : Bool := size == 4 && offset % 4 == 0

/-- Register offsets (20_memory.md R84). -/
def offsetCmd : Nat := 0x0
def offsetStatus : Nat := 0x4

/-- The word a read of a register returns (10_state.md R32, R33, R35). -/
def State.register (s : State) (offset : Nat) : Word :=
  if offset = offsetStatus then s.statusWord else 0

/-- The host's access to a stream: while BUSY there is none (20_memory.md R87; 93_implementation_defined.md section 4;
log 15). -/
def streamMove (move : State) (s : State) : Host.Outcome State Fault Refusal :=
  if s.busy then .refused .streamAccessWhileBusy else .next move

/-- One move of the host, when s is the state with that move gone from `host` (log 1). -/
def hostMove (a : HostAction) (s : State) : Host.Outcome State Fault Refusal :=
  match a with
  | .attachIn bytes rewindable =>
    streamMove { s with input := bitsOfBytes bytes, inPos := 0, rewindable := rewindable } s
  | .attachOut => streamMove { s with output := [], outClosed := false } s
  | .takeOut => streamMove { s with taken := bytesOf s.output } s
  | .writeReg offset size w =>
    if legalAccess offset size then (if offset = offsetCmd then writeCommand w s else .next s)
    else .refused .hostAccessSize
  | .readReg offset size =>
    if legalAccess offset size then .next { s with readData := s.register offset }
    else .refused .hostAccessSize
  | .wait =>
    if s.busy then codecMove { s with host := .wait :: s.host, readData := s.register offsetStatus }
    else .next { s with readData := s.register offsetStatus }
  | .codecTurn => codecMove s
  | .reset => .next s.codecReset

/-- One step: the host's next move, or the codec's when the host has none (48_commands.md R256; log 1). -/
def advance (s : State) : Host.Outcome State Fault Refusal :=
  match s.host with
  | a :: rest => hostMove a { s with host := rest }
  | [] => codecMove s

/-- s with a word where the next step fetches (log 23): a command word as the host's next write of CMD, a phase code in
PHASE with BUSY set (IDLE: clear), a tree record at the start of the input of DESERIALIZE, padded with zero bits to a
byte boundary. -/
def State.withWord (s : State) : CodeWord → State
  | .command w => { s with host := .writeReg offsetCmd 4 w :: s.host }
  | .phase p => { s with host := .codecTurn :: s.host, phase := p, busy := p != phaseIdle }
  | .record bits =>
    { s with
      host := .codecTurn :: s.host
      phase := phaseDeserialize
      busy := true
      input := bits ++ List.replicate (padding bits.length) false
      inPos := 0 }

end Sys2Proof.Machine
end

