-- ==== Sys2Proof/Machine/Step.lean ====
section
/-! DEFINITION. The machine's step, and where it fetches. -/

namespace Sys2Proof.Machine

/-- One step of the machine (48_commands.md R256). -/
def step (s : State) : Host.Outcome State Fault Refusal := advance s

/-- s with the word of opcode_table.json's numbering where the next step fetches (log 22, 23). -/
def State.withFetchWord (s : State) (nbits w : Nat) : State :=
  match tableWord nbits w with
  | some c => s.withWord c
  | none => s

end Sys2Proof.Machine
end

