-- ==== Sys2Proof/Safety.lean ====
section
/-! DEFINITION. The terms in which claims are stated: the trees of the file format and of the arena, the invariant of
the machine, what each instruction may write and raise, the sequencer's table, the recursive reading of DESERIALIZE, and
the host's scripts. Nothing here runs in the machine. -/

namespace Sys2Proof

open Machine

/-- A strict binary tree of leaf values (10_state.md R41). -/
inductive CodeTree where
  | leaf (value : LeafValue)
  | node (left right : CodeTree)
  deriving DecidableEq, Repr

/-- The tree field of a file: the records in pre-order (30_encoding.md R111, R114, R115). -/
def CodeTree.records : CodeTree → List Bool
  | .leaf v => true :: bitsN Config.valueBits v.toNat
  | .node l r => false :: (l.records ++ r.records)

/-- The number of nodes, one a record. -/
def CodeTree.size : CodeTree → Nat
  | .leaf _ => 1
  | .node l r => 1 + l.size + r.size

/-- Every leaf's value with the path from the root to it, left edge 0 and right edge 1 (30_encoding.md R119). -/
def CodeTree.paths : CodeTree → List (LeafValue × List Bool)
  | .leaf v => [(v, [])]
  | .node l r => l.paths.map (fun e => (e.1, false :: e.2)) ++ r.paths.map (fun e => (e.1, true :: e.2))

/-- The values of the leaves, from left to right. -/
def CodeTree.values (t : CodeTree) : List LeafValue := t.paths.map Prod.fst

/-- The path of the first leaf of a value. -/
def CodeTree.pathOf (t : CodeTree) (v : LeafValue) : List Bool := (t.paths.lookup v).getD []

/-- The arena entries of a tree whose root has handle `base`, handles in pre-order of the records
(45_tree_deserializer.md R194), weights 0 (R200). -/
def CodeTree.entries : CodeTree → Nat → List Node
  | .leaf v, _ => [{ leaf := true, value := v, weight := 0, left := 0, right := 0 }]
  | .node l r, base =>
    { leaf := false, value := 0, weight := 0, left := BitVec.ofNat 10 (base + 1),
      right := BitVec.ofNat 10 (base + 1 + l.size) } ::
      (l.entries (base + 1) ++ r.entries (base + 1 + l.size))

/-- The node at a handle of an arena is the root of a tree (10_state.md R40, R41). -/
def HoldsTree (arena : Arena) : CodeTree → Handle → Prop
  | .leaf v, h => (nodeAt arena h).leaf = true ∧ (nodeAt arena h).value = v
  | .node l r, h =>
    (nodeAt arena h).leaf = false ∧ HoldsTree arena l (nodeAt arena h).left ∧ HoldsTree arena r (nodeAt arena h).right

/-- The leaf values of the symbols, in order (00_scope.md R8). -/
def symbolValues : List LeafValue := (List.finRange Config.symbolCount).map valueOfSymbol

/-- A tree with one leaf for each symbol and no other (42_tree_builder.md R157). -/
def CodeTree.IsFull (t : CodeTree) : Prop := t.values.Perm symbolValues

/-- The code of a symbol as a bit string (30_encoding.md R119). -/
def Machine.State.codeBits (s : State) (x : Symbol) : List Bool :=
  bitsN (s.codeOf x).len.toNat (s.codeOf x).bits.toNat

/-- The key of a node (42_tree_builder.md R151). -/
def keyOf (arena : Arena) (h : Handle) : Key := { weight := (nodeAt arena h).weight, handle := h }

/-- A queue in the order of extraction (42_tree_builder.md R152). -/
def InOrder (q : List Key) : Prop := q.Pairwise (fun x y => tieBefore x y = true)

/-- What an order must be to serve as TIE_ORDER (42_tree_builder.md R162): a strict total order on nodes, consistent
with ascending weight. -/
structure IsTieOrder (before : Key → Key → Bool) : Prop where
  irrefl : ∀ x, before x x = false
  trans : ∀ x y z, before x y = true → before y z = true → before x z = true
  total : ∀ x y, x ≠ y → before x y = true ∨ before y x = true
  weight : ∀ x y, x.weight.toNat < y.weight.toNat → before x y = true

/-- The number of nodes of a built tree, 513 (00_scope.md R13, 42_tree_builder.md R157). -/
abbrev builtNodes : Nat := 2 * Config.symbolCount - 1

/-- The arena part that BUILD leaves (42_tree_builder.md R150, R154): the leaf of symbol x at handle x, and internal
nodes at 257 to 512 whose children have smaller handles. -/
def BuiltArena (arena : Arena) : Prop :=
  ∀ h : Handle,
    (h.toNat < Config.symbolCount → (nodeAt arena h).leaf = true ∧ (nodeAt arena h).value.toNat = h.toNat) ∧
    (Config.symbolCount ≤ h.toNat → h.toNat < builtNodes →
      (nodeAt arena h).leaf = false ∧ (nodeAt arena h).left.toNat < h.toNat ∧ (nodeAt arena h).right.toNat < h.toNat)

/-- STATUS holds legal values: at most one of BUSY, DONE, ERR; ERR_CODE 0 to 7, and 0 unless ERR; PHASE 0 to 11
(10_state.md R33). -/
def StatusLegal (s : State) : Prop :=
  (s.busy && s.done) = false ∧ (s.busy && s.err) = false ∧ (s.done && s.err) = false ∧
  s.errCode.toNat ≤ 7 ∧ (s.err = false → s.errCode = 0) ∧ s.phase.toNat ≤ 11

/-- The sequencer is in a phase of the running command, and in IDLE when nothing runs and nothing failed
(10_state.md R36, R37, 48_commands.md R253, R254). -/
def SequencerLegal (s : State) : Prop :=
  s.op.toNat ≤ 2 ∧
  (s.busy = true →
    (s.op = 1 ∧ 1 ≤ s.phase.toNat ∧ s.phase.toNat ≤ 7) ∨ (s.op = 2 ∧ 8 ≤ s.phase.toNat ∧ s.phase.toNat ≤ 11)) ∧
  (s.busy = false → s.err = false → s.phase = phaseIdle)

/-- The input is whole bytes and its cursor inside it (10_state.md R49, 20_memory.md R71); PQ is empty between phases
(10_state.md R47); NALLOC is at most NODE_CAP (10_state.md R43). -/
def MemoriesLegal (s : State) : Prop :=
  s.inPos ≤ s.input.length ∧ s.input.length % 8 = 0 ∧ s.pq = [] ∧ s.nalloc.toNat ≤ Config.nodeCap

/-- The phases that walk the built tree find one (10_state.md R41, R42). -/
def TreeReady (s : State) : Prop :=
  s.busy = true → s.phase = phaseGencodes ∨ s.phase = phaseWriteHeader →
    BuiltArena s.arena ∧ s.root = BitVec.ofNat 10 (builtNodes - 1)

/-- The invariant of the machine. It holds at reset, every step keeps it, and from it no step faults. -/
def Inv (s : State) : Prop := StatusLegal s ∧ SequencerLegal s ∧ MemoriesLegal s ∧ TreeReady s

/-- The successor of a phase that raises no error (48_commands.md R253). -/
def successor : Instr → Option PhaseCode
  | .count => some phaseBuild
  | .build => some phaseGencodes
  | .gencodes => some phaseWriteHeader
  | .writeHeader => some phaseRewind
  | .rewind => some phaseEncode
  | .encode => some phaseCloseC
  | .closeC => some phaseIdle
  | .readMagic => some phaseDeserialize
  | .deserialize => some phaseDecode
  | .decode => some phaseCloseD
  | .closeD => some phaseIdle
  | .compress => none
  | .decompress => none
  | .idle => none
  | .internal => none
  | .leaf _ => none

/-- The errors an instruction can raise (60_exceptions.md R280, R284). The records stand for DESERIALIZE's check. -/
def mayRaise : Instr → List Error
  | .count => [.inputTooLong]
  | .readMagic => [.invalidMagicNumber]
  | .deserialize => [.malformedHeader, .nodeCapacity]
  | .decode => [.degenerateTree, .badInput]
  | .internal => [.nodeCapacity]
  | .leaf _ => [.nodeCapacity]
  | .compress => []
  | .decompress => []
  | .idle => []
  | .build => []
  | .gencodes => []
  | .writeHeader => []
  | .rewind => []
  | .encode => []
  | .closeC => []
  | .closeD => []

/-- The status fields and PHASE of t put back to those of s. -/
def putBackStatus (s t : State) : State :=
  { t with busy := s.busy, done := s.done, err := s.err, errCode := s.errCode, phase := s.phase }

/-- What an instruction may write (10_state.md R51, with STATUS by R250, R254, R285), put back in t to what s holds: an
instruction keeps its frame when this is s. -/
def putBack (i : Instr) (s t : State) : State :=
  match i with
  | .compress => { putBackStatus s t with op := s.op }
  | .decompress => { putBackStatus s t with op := s.op }
  | .idle => t
  | .count => { putBackStatus s t with counts := s.counts, total := s.total, inPos := s.inPos }
  | .build => { t with phase := s.phase, arena := s.arena, nalloc := s.nalloc, root := s.root, pq := s.pq }
  | .gencodes => { t with phase := s.phase, code := s.code }
  | .writeHeader => { t with phase := s.phase, output := s.output }
  | .rewind => { t with phase := s.phase, inPos := s.inPos }
  | .encode => { t with phase := s.phase, inPos := s.inPos, output := s.output }
  | .closeC => { putBackStatus s t with output := s.output, outClosed := s.outClosed }
  | .readMagic => { putBackStatus s t with inPos := s.inPos }
  | .deserialize =>
    { putBackStatus s t with
      inPos := s.inPos, arena := s.arena, nalloc := s.nalloc, root := s.root, walkStack := s.walkStack }
  | .decode => { putBackStatus s t with inPos := s.inPos, cur := s.cur, output := s.output }
  | .closeD => { putBackStatus s t with output := s.output, outClosed := s.outClosed }
  | .internal => { putBackStatus s t with nalloc := s.nalloc, walkStack := s.walkStack }
  | .leaf _ =>
    { putBackStatus s t with arena := s.arena, nalloc := s.nalloc, root := s.root, walkStack := s.walkStack }

/-- `deser()` as 45_tree_deserializer.md R191 writes it, by recursion and without a stack in the state: the handle it
returns and the state, or the state after its `raise`. The bound counts nested calls, each of which reads a bit. -/
def deser : Nat → State → Except State (Handle × State)
  | 0, s => .error s
  | bound + 1, s =>
    match s.readBits 1 with
    | (none, s) => .error (s.raise .malformedHeader)
    | (some flag, s) =>
      if s.arenaFull then .error (s.raise .nodeCapacity)
      else if flag = 0 then
        match deser bound s.allocate with
        | .error t => .error t
        | .ok (l, t) =>
          match deser bound t with
          | .error u => .error u
          | .ok (r, u) =>
            .ok (s.nextHandle,
              u.setNode s.nextHandle { leaf := false, value := 0, weight := 0, left := l, right := r })
      else
        match s.allocate.readBits Config.valueBits with
        | (none, t) => .error (t.raise .malformedHeader)
        | (some v, t) =>
          .ok (s.nextHandle,
            t.setNode s.nextHandle
              { leaf := true, value := BitVec.ofNat Config.valueBits v, weight := 0, left := 0, right := 0 })

/-- DESERIALIZE over the recursive `deser()` (45_tree_deserializer.md R191). -/
def deserializeByRecursion (s : State) : State :=
  match deser (s.rest.length + 1) { s with nalloc := 0, walkStack := [] } with
  | .error t => t
  | .ok (h, t) => { t with root := h, phase := phaseDecode }

/-- The host's script for one command on one input (30_encoding.md R123). -/
def commandScript (command : Word) (bytes : List Byte) (rewindable : Bool) : List HostAction :=
  [.attachIn bytes rewindable, .attachOut, .writeReg offsetCmd 4 command, .wait, .takeOut]

/-- s with a script as the host's pending moves. -/
def withScript (script : List HostAction) (s : State) : State := { s with host := script }

/-- Phases one after the other, ending where a phase ends the command by clearing BUSY (60_exceptions.md R285). -/
def runPhases : List (State → Host.Outcome State Fault Refusal) → State → Host.Outcome State Fault Refusal
  | [], s => .next s
  | phase :: later, s =>
    match phase s with
    | .next t => if t.busy then runPhases later t else .next t
    | .fault r => .fault r
    | .refused r => .refused r

/-- COMPRESS as its phases in order under any TIE_ORDER (48_commands.md R251, 42_tree_builder.md R162). -/
def compressUnder (before firstLeft : Key → Key → Bool) (s : State) : Host.Outcome State Fault Refusal :=
  runPhases
    [exec .count, fun t => .next (buildWith before firstLeft t), exec .gencodes, exec .writeHeader, exec .rewind,
      exec .encode, exec .closeC] s

/-- DECOMPRESS as its phases in order (48_commands.md R252). -/
def decompressPhases (s : State) : Host.Outcome State Fault Refusal :=
  runPhases [exec .readMagic, exec .deserialize, exec .decode, exec .closeD] s

end Sys2Proof
end

