-- ==== Sys2Proof/Certificates/Slice0/Obligations.lean ====
section
/-! DEFINITION. What is claimed of the machine, one statement a definition; OBLIGATIONS.json says where each comes from
in spec/. -/

open Sys2Proof Sys2Proof.Machine

/-! ## Encodings -/

/-- Every instruction's word decodes to it, and an instruction's word is the only one that does (30_encoding.md R101 to
R104, R114 to R117). -/
def Obligations.EncodeAndDecodeAgree : Prop :=
  (∀ i : Instr, Sys2Proof.decode (encode i) = .ok i) ∧
  ∀ (c : CodeWord) (i : Instr), Sys2Proof.decode c = .ok i → encode i = c

/-- The words that stand for an instruction are those that R104, R105 and R116 admit: every other command word, phase
codes 12 to 15 and records of a wrong length are rejected. -/
def Obligations.DecodableWordsAreTheAdmittedOnes : Prop :=
  ∀ c : CodeWord, c.wf = true ↔ ∃ i : Instr, Sys2Proof.decode c = .ok i

/-- A tree record's end is told by its bits alone, whatever follows, and no record cut short is read as one (R116). -/
def Obligations.RecordsAreSelfDelimiting : Prop :=
  ∀ (i : Instr) (bits : List Bool), encode i = .record bits →
    (∀ more, decodeRecord (bits ++ more) = .ok (i, more)) ∧
    ∀ q, q <+: bits → q ≠ bits → decodeRecord q = .error .truncatedRecord

/-- A few words written out from the spec's tables (R102, R103, R104, R105, R115). -/
def Obligations.SpecWordsDecode : Prop :=
  decodeCommand 0x00000001 = .ok .compress ∧ decodeCommand 0x00000002 = .ok .decompress ∧
  decodeCommand 0x80000001 = .error (.illegalCommand 0x80000001) ∧
  decodePhase 4 = .ok .writeHeader ∧ decodePhase 9 = .ok .deserialize ∧ decodePhase 12 = .error (.reservedPhase 12) ∧
  decodeRecord [true, false, false, true, false, false, false, false, false, true, false] = .ok (.leaf 65, [false]) ∧
  decodeRecord [true, true, false, false, false, false, false, false, false, false] = .ok (.leaf 256, [])

/-! ## Streams -/

/-- readBits: the next n bits as a number, first bit most significant, or end of data, which consumes what is left
(R72, R73, R78). -/
def Obligations.ReadBitsGivesTheNextField : Prop :=
  ∀ (n : Nat) (s : State),
    (s.inPos + n ≤ s.input.length →
      ∃ v, s.readBits n = (some v, { s with inPos := s.inPos + n }) ∧ v < 2 ^ n ∧
        bitsN n v = (s.input.drop s.inPos).take n) ∧
    (s.input.length < s.inPos + n → s.readBits n = (none, { s with inPos := s.input.length }))

/-- writeBits appends the low n bits, most significant first; close adds the 0 to 7 zero bits that reach a byte
boundary, none at a boundary, and marks the output closed (R76, R77). -/
def Obligations.WritesAppendAndClosePads : Prop :=
  (∀ (n v : Nat) (s : State), ∃ bits : List Bool,
    s.writeBits n v = { s with output := s.output ++ bits } ∧ bits.length = n ∧
      ∀ i < n, bits[i]? = some (v.testBit (n - 1 - i))) ∧
  ∀ s : State, ∃ k ≤ 7,
    s.close = { s with output := s.output ++ List.replicate k false, outClosed := true } ∧
      s.close.output.length % 8 = 0 ∧ (s.output.length % 8 = 0 → k = 0)

/-! ## Registers, commands, sequencing -/

/-- The fields of STATUS and its hardwired zeros (R33). -/
def Obligations.StatusWordHasItsFields : Prop :=
  ∀ s : State,
    s.statusWord.getLsbD 0 = s.busy ∧ s.statusWord.getLsbD 1 = s.done ∧ s.statusWord.getLsbD 2 = s.err ∧
    s.statusWord.getLsbD 3 = false ∧ s.statusWord.extractLsb' 4 4 = s.errCode ∧
    s.statusWord.extractLsb' 8 4 = s.phase ∧ s.statusWord.extractLsb' 12 20 = 0

/-- The error codes of the table, and what raising an error sets (R280, R285). -/
def Obligations.ErrorCodesFollowTheTable : Prop :=
  Error.invalidMagicNumber.code = 1 ∧ Error.malformedHeader.code = 2 ∧ Error.badInput.code = 3 ∧
  Error.degenerateTree.code = 4 ∧ Error.nodeCapacity.code = 5 ∧ Error.inputTooLong.code = 6 ∧
  Error.illegalCommand.code = 7 ∧
  ∀ (e : Error) (s : State), s.raise e = { s with busy := false, done := false, err := true, errCode := e.code }

/-- The host's register accesses, at every offset: STATUS reads its word, every other register reads 0, a read changes
nothing of the codec, a write to any register but CMD is ignored, and an access that is not one aligned 32-bit word is
refused (R32 on reads, R34, R35, R82; the accesses as moves of the host and the refusal are the model's, log 1 and 14). -/
def Obligations.RegisterAccesses : Prop :=
  ∀ (s : State) (later : List HostAction) (offset size : Nat) (w : Word),
    (size = 4 → offset % 4 = 0 →
      step { s with host := .readReg offset size :: later } =
        .next { s with host := later, readData := if offset = 4 then s.statusWord else 0 }) ∧
    (size = 4 → offset % 4 = 0 → offset ≠ 0 →
      step { s with host := .writeReg offset size w :: later } = .next { s with host := later }) ∧
    (¬(size = 4 ∧ offset % 4 = 0) →
      step { s with host := .readReg offset size :: later } = .refused .hostAccessSize ∧
        step { s with host := .writeReg offset size w :: later } = .refused .hostAccessSize)

/-- Command acceptance while BUSY = 0: words 1 and 2 start their command, every other word is IllegalCommand and changes
nothing but STATUS and PHASE (R250, R255, R102, R103, R105; the write as a move of the host is the model's form, log 1). -/
def Obligations.IdleCommandWrites : Prop :=
  ∀ (s : State) (later : List HostAction) (w : Word), s.busy = false →
    step { s with host := .writeReg 0 4 w :: later } =
      .next
        (if w = 1 then
          { s with host := later, op := 1, done := false, err := false, errCode := 0, busy := true, phase := 1 }
        else if w = 2 then
          { s with host := later, op := 2, done := false, err := false, errCode := 0, busy := true, phase := 8 }
        else { s with host := later, busy := false, done := false, err := true, errCode := 7, phase := 0 })

/-- COMPRESS and DECOMPRESS as instructions: accepted while idle, without effect while a command runs (R250, R257). -/
def Obligations.CommandInstructions : Prop :=
  ∀ s : State,
    (s.busy = false →
      exec .compress s =
        .next { s with op := 1, done := false, err := false, errCode := 0, busy := true, phase := 1 } ∧
      exec .decompress s =
        .next { s with op := 2, done := false, err := false, errCode := 0, busy := true, phase := 8 }) ∧
    (s.busy = true → exec .compress s = .next s ∧ exec .decompress s = .next s)

/-- A CMD write while BUSY = 1 changes no state, whatever its word (R257; the write as a move of the host: log 1). -/
def Obligations.BusyCommandWritesAreIgnored : Prop :=
  ∀ (s : State) (later : List HostAction) (w : Word), s.busy = true →
    step { s with host := .writeReg 0 4 w :: later } = .next { s with host := later }

/-- With nothing to run the codec waits and all its state stays (R254, R297; that such a step is a step is the model's choice, log 3). -/
def Obligations.IdleWaits : Prop :=
  ∀ s : State, exec .idle s = .next s ∧ (s.busy = false → s.host = [] → step s = .next s)

/-- A step runs the decoded instruction: the phase that PHASE names, the command that the host writes; a reserved phase
code stops by name (R256). Around exec the step only takes the host's move off `host`, or keeps a wait there: the model's
form (log 1, 13, 32). -/
def Obligations.StepRunsTheDecodedInstruction : Prop :=
  ∀ (s : State) (i : Instr) (later : List HostAction) (w : Word),
    (s.busy = true → decodePhase s.phase = .ok i → s.host = [] → step s = exec i s) ∧
    (s.busy = true → decodePhase s.phase = .ok i →
      step { s with host := .codecTurn :: later } = exec i { s with host := later }) ∧
    (s.busy = true → decodePhase s.phase = .ok i →
      step { s with host := .wait :: later } = exec i { s with host := .wait :: later, readData := s.statusWord }) ∧
    (decodeCommand w = .ok i → step { s with host := .writeReg 0 4 w :: later } = exec i { s with host := later }) ∧
    (s.busy = true → s.host = [] → (∀ j, decodePhase s.phase ≠ .ok j) → step s = .fault .reservedPhase)

/-- A wait lets the codec move while BUSY = 1 and ends once BUSY = 0 (R123); a turn of an idle codec changes nothing
else (R256); both are moves of the model's host (log 1). -/
def Obligations.WaitEndsWhenIdle : Prop :=
  ∀ (s : State) (later : List HostAction), s.busy = false →
    step { s with host := .wait :: later } = .next { s with host := later, readData := s.statusWord } ∧
    step { s with host := .codecTurn :: later } = .next { s with host := later }

/-- A phase that ends without an error leaves its successor in PHASE (R253). -/
def Obligations.PhasesFollowTheTable : Prop :=
  ∀ (i : Instr) (p : PhaseCode) (s t : State), successor i = some p → s.err = false →
    exec i s = .next t → t.err = false → t.phase = p

/-- An error is one that the instruction may raise; it clears BUSY and DONE, sets ERR and its code, keeps PHASE and OP,
and does not close the output (R280, R284, R285). -/
def Obligations.ErrorsAbortTheCommand : Prop :=
  ∀ (i : Instr) (s t : State), s.err = false → exec i s = .next t → t.err = true →
    ∃ e ∈ mayRaise i,
      t.errCode = e.code ∧ t.busy = false ∧ t.done = false ∧ t.phase = s.phase ∧ t.op = s.op ∧
      t.outClosed = s.outClosed ∧ (i ≠ .decode → t.output = s.output)

/-- CLOSE_C and CLOSE_D close the output and complete the command; OP keeps its value (R254, R212, R236). -/
def Obligations.ClosingCompletesTheCommand : Prop :=
  ∀ s : State, ∃ k ≤ 7, (s.output.length + k) % 8 = 0 ∧
    exec .closeC s =
      .next
        { s with
          output := s.output ++ List.replicate k false, outClosed := true, busy := false, done := true, err := false,
          errCode := 0, phase := 0 } ∧
    exec .closeD s = exec .closeC s

/-! ## frequency_counter -/

/-- COUNT: every byte's count is its number of occurrences, the sentinel's is 1, TOTAL is n + 1, the input is at its end,
the next phase is BUILD, and nothing else changes (R140, R141, R143). -/
def Obligations.CountGivesTheFrequencyTable : Prop :=
  ∀ s : State, (bytesOf s.rest).length ≤ 2 ^ 32 - 2 →
    ∃ t : State, exec .count s = .next t ∧
      t = { s with
            counts := t.counts, total := BitVec.ofNat 32 ((bytesOf s.rest).length + 1), inPos := s.input.length
            phase := 2 } ∧
      (∀ b : Byte, (t.count (symbolOfByte b)).toNat = (bytesOf s.rest).count b) ∧ t.count 256 = 1

/-- COUNT: a longer input is InputTooLong at the byte numbered 2^32 - 1, and no output is written (R142, R280). -/
def Obligations.CountRefusesLongInput : Prop :=
  ∀ s : State, 2 ^ 32 - 1 ≤ (bytesOf s.rest).length →
    ∃ table : Counts,
      exec .count s =
        .next
          { s with
            counts := table, total := BitVec.ofNat 32 (2 ^ 32 - 1), inPos := s.inPos + 8 * (2 ^ 32 - 1),
            busy := false, done := false, err := true, errCode := 6 }

/-! ## huffman_tree_builder -/

/-- BUILD: the leaf of every symbol at its handle, a full binary tree of them at 512, every leaf at a depth of 1 to 256,
NALLOC 513, ROOT 512, PQ empty; the arena above handle 512 and all else stay (R150, R154, R156 to R158). -/
def Obligations.BuildMakesTheFullTree : Prop :=
  ∀ s : State, ∃ (arena : Arena) (T : CodeTree),
    exec .build s = .next { s with arena := arena, nalloc := 513, root := 512, pq := [], phase := 3 } ∧
    (∀ x : Symbol,
      nodeAt arena (BitVec.ofNat 10 x.val) =
        { leaf := true, value := BitVec.ofNat 9 x.val, weight := s.count x, left := 0, right := 0 }) ∧
    HoldsTree arena T 512 ∧ T.IsFull ∧ T.size = 513 ∧ (∀ e ∈ T.paths, 1 ≤ e.2.length ∧ e.2.length ≤ 256) ∧
    BuiltArena arena ∧ ∀ h : Handle, 513 ≤ h.toNat → nodeAt arena h = nodeAt s.arena h

/-- BUILD: the k-th merge writes node 257 + k from the two least keys of the nodes not yet merged, the lesser one left
(R151 to R154). -/
def Obligations.BuildMergesTheLeastKeys : Prop :=
  ∀ s t : State, exec .build s = .next t → ∀ k : Nat, k < 256 →
    let n := t.node (BitVec.ofNat 10 (257 + k))
    let used := fun (j : Nat) (g : Handle) =>
      g = (t.node (BitVec.ofNat 10 (257 + j))).left ∨ g = (t.node (BitVec.ofNat 10 (257 + j))).right
    n.leaf = false ∧ n.value = 0 ∧ n.left.toNat < 257 + k ∧ n.right.toNat < 257 + k ∧
    tieBefore (keyOf t.arena n.left) (keyOf t.arena n.right) = true ∧
    (∀ j < k, ¬ used j n.left ∧ ¬ used j n.right) ∧
    ∀ g : Handle, g.toNat < 257 + k → (∀ j ≤ k, ¬ used j g) →
      tieBefore (keyOf t.arena n.right) (keyOf t.arena g) = true

/-- BUILD: when the counts' sum fits 32 bits, every internal node's weight is exactly the sum of its children's, and the
root's is the sum of the counts (R155, R157). -/
def Obligations.BuildWeightsAreExactSums : Prop :=
  ∀ s t : State, ((List.finRange 257).map (fun x => (s.count x).toNat)).sum < 2 ^ 32 → exec .build s = .next t →
    (∀ k : Nat, k < 256 →
      let n := t.node (BitVec.ofNat 10 (257 + k))
      n.weight.toNat = (t.node n.left).weight.toNat + (t.node n.right).weight.toNat) ∧
    (t.node t.root).weight.toNat = ((List.finRange 257).map (fun x => (s.count x).toNat)).sum

/-- BUILD: the arena part it writes, NALLOC and ROOT are a function of the counts alone (R161). -/
def Obligations.BuildDependsOnTheCountsAlone : Prop :=
  ∀ s s' t t' : State, (∀ x : Symbol, s.count x = s'.count x) → exec .build s = .next t → exec .build s' = .next t' →
    t.root = t'.root ∧ t.nalloc = t'.nalloc ∧ ∀ h : Handle, h.toNat < 513 → t.node h = t'.node h

/-- TIE_ORDER's default is one: a strict total order on keys, consistent with ascending weight (R151, R162; a parameter of the model, log 18). -/
def Obligations.DefaultOrderIsATieOrder : Prop := IsTieOrder tieBefore

/-- PQ: insertion adds one key and keeps the order of extraction; extraction gives the least key (R152; the list is the
model's form, log 25). -/
def Obligations.QueueExtractsTheLeastKey : Prop :=
  ∀ (k : Key) (q : List Key), InOrder q → k ∉ q →
    InOrder (insertKey tieBefore k q) ∧ (insertKey tieBefore k q).Perm (k :: q) ∧
    ∃ (m : Key) (rest : List Key), extractMin (insertKey tieBefore k q) = some (m, rest) ∧ (m :: rest).Perm (k :: q) ∧
      InOrder rest ∧ ∀ x ∈ rest, tieBefore m x = true

/-! ## Code table -/

/-- GENCODES: the entry of every leaf's value is its path, as a length and a number; other entries and all else stay
(R170, R119). -/
def Obligations.GencodesRecordsEveryPath : Prop :=
  ∀ (s : State) (T : CodeTree), HoldsTree s.arena T s.root → T.values.Nodup →
    (∀ e ∈ T.paths, e.1.toNat < 257 ∧ e.2.length ≤ 256) →
    ∃ t : State, exec .gencodes s = .next t ∧ t = { s with code := t.code, phase := 4 } ∧
      ∀ x : Symbol,
        (∀ path, (BitVec.ofNat 9 x.val, path) ∈ T.paths →
          t.codeOf x = { len := BitVec.ofNat 9 path.length, bits := BitVec.ofNat 256 (num path) } ∧
            t.codeBits x = path) ∧
        (BitVec.ofNat 9 x.val ∉ T.values → t.codeOf x = s.codeOf x)

/-- After BUILD, GENCODES gives every symbol a code of 1 to 256 bits, and no symbol's code is a prefix of another's
(R172, R173). -/
def Obligations.BuiltCodesAreAPrefixCode : Prop :=
  ∀ s t : State, exec .build s = .next t →
    ∃ u : State, exec .gencodes t = .next u ∧
      (∀ x : Symbol, 1 ≤ (u.codeOf x).len.toNat ∧ (u.codeOf x).len.toNat ≤ 256) ∧
      ∀ x y : Symbol, x ≠ y → ¬ (u.codeBits x <+: u.codeBits y)

/-! ## tree_serializer -/

/-- WRITE_HEADER: the magic number and the tree's records in pre-order are appended; nothing else changes
(R180, R110, R111). -/
def Obligations.WriteHeaderAppendsMagicAndTree : Prop :=
  ∀ (s : State) (T : CodeTree), HoldsTree s.arena T s.root →
    exec .writeHeader s =
      .next { s with output := s.output ++ (bitsN 32 0xFACE8201 ++ T.records), phase := 5 }

/-- The header of a built tree is 2858 bits long and begins with the bytes FA CE 82 01 (R121, R182, R80). -/
def Obligations.BuiltHeaderHas2858Bits : Prop :=
  ∀ s t : State, s.output = [] → exec .build s = .next t →
    ∃ u v : State, exec .gencodes t = .next u ∧ exec .writeHeader u = .next v ∧ v.output.length = 2858 ∧
      (bytesOf v.output).take 4 = [0xFA, 0xCE, 0x82, 0x01]

/-- The walks stop by name exactly where ROOT holds no finite tree (R41 excludes it; log 12): there the pseudocode of
WRITE_HEADER would not end. -/
def Obligations.WalksStopOnlyOnCycles : Prop :=
  ∀ s : State,
    (exec .writeHeader s = .fault .phaseNeverEnds ↔ ¬ ∃ T, HoldsTree s.arena T s.root) ∧
    (exec .gencodes s = .fault .phaseNeverEnds → ¬ ∃ T, HoldsTree s.arena T s.root)

/-! ## huffman_encoder -/

/-- REWIND: the cursor returns to 0 (R210, R74); an input that cannot be rewound is refused (R314; the
model's refusal, log 16). -/
def Obligations.RewindReturnsToTheStart : Prop :=
  ∀ s : State,
    (s.rewindable = true → exec .rewind s = .next { s with inPos := 0, phase := 6 }) ∧
    (s.rewindable = false → exec .rewind s = .refused .inputNotRewindable)

/-- ENCODE: the codes of the input bytes in order, then the sentinel's code once; the input is at its end (R211, R112,
R213). -/
def Obligations.EncodeWritesThePayload : Prop :=
  ∀ s : State,
    exec .encode s =
      .next
        { s with
          inPos := s.input.length
          output :=
            s.output ++
              ((bytesOf s.rest).flatMap (fun b => s.codeBits (symbolOfByte b)) ++ s.codeBits 256)
          phase := 7 }

/-! ## tree_deserializer -/

/-- READ_MAGIC: the magic number passes; any other 32 bits, or fewer bits, are InvalidMagicNumber, before any output
(R190, R199, R263). -/
def Obligations.ReadMagicChecksTheConstant : Prop :=
  ∀ s : State,
    (∀ more, s.rest = bitsN 32 0xFACE8201 ++ more →
      exec .readMagic s = .next { s with inPos := s.inPos + 32, phase := 9 }) ∧
    ((¬ ∃ more, s.rest = bitsN 32 0xFACE8201 ++ more) →
      exec .readMagic s =
        .next
          { s with
            inPos := if s.inPos + 32 ≤ s.input.length then s.inPos + 32 else s.input.length
            busy := false, done := false, err := true, errCode := 1 })

/-- DESERIALIZE: the records of a tree of at most NODE_CAP nodes give its nodes at handles in pre-order, ROOT 0, NALLOC
its size, the cursor past exactly its bits; the arena above it and all else stay (R191, R194, R195, R198, R200). -/
def Obligations.DeserializeReadsOneTree : Prop :=
  ∀ (s : State) (T : CodeTree) (more : List Bool), s.rest = T.records ++ more → T.size ≤ 1024 →
    ∃ arena : Arena,
      exec .deserialize s =
        .next
          { s with
            arena := arena, nalloc := BitVec.ofNat 11 T.size, root := 0, walkStack := []
            inPos := s.inPos + T.records.length, phase := 10 } ∧
      HoldsTree arena T 0 ∧
      (∀ h : Handle, h.toNat < T.size → (T.entries 0)[h.toNat]? = some (nodeAt arena h)) ∧
      ∀ h : Handle, T.size ≤ h.toNat → nodeAt arena h = nodeAt s.arena h

/-- DESERIALIZE: an input that ends inside the tree field is MalformedHeader (R192, R282). -/
def Obligations.DeserializeRefusesACutTree : Prop :=
  ∀ (s : State) (T : CodeTree) (missing : List Bool), T.records = s.rest ++ missing → missing ≠ [] → T.size ≤ 1024 →
    ∃ t : State, exec .deserialize s = .next t ∧
      t.busy = false ∧ t.done = false ∧ t.err = true ∧ t.errCode = 2 ∧ t.phase = s.phase ∧
      t.inPos = s.input.length ∧ t.output = s.output ∧ t.outClosed = s.outClosed

/-- DESERIALIZE: a tree of more than NODE_CAP records is NodeCapacity, with NODE_CAP nodes allocated (R193). -/
def Obligations.DeserializeRefusesALargeTree : Prop :=
  ∀ (s : State) (T : CodeTree) (more : List Bool), s.rest = T.records ++ more → 1024 < T.size →
    ∃ t : State, exec .deserialize s = .next t ∧
      t.busy = false ∧ t.done = false ∧ t.err = true ∧ t.errCode = 5 ∧ t.phase = s.phase ∧ t.nalloc = 1024 ∧
      t.output = s.output ∧ t.outClosed = s.outClosed

/-- DESERIALIZE over the walk stack is `deser()` by recursion, as R191 writes it, on every input and in every state, but
for the frames an error leaves on the stack (R191, R196, R48; the explicit stack is the model's, log 20). -/
def Obligations.DeserializeRefinesTheRecursion : Prop :=
  ∀ s : State, ∃ t : State, exec .deserialize s = .next t ∧ { t with walkStack := [] } = deserializeByRecursion s

/-- One pass of DESERIALIZE runs the record that the decoder reads at the cursor, once its bits are consumed (R191,
R116; log 21). -/
def Obligations.DeserializeRunsDecodedRecords : Prop :=
  ∀ (s : State) (bound : Nat) (i : Instr) (more : List Bool), decodeRecord s.rest = .ok (i, more) →
    s.nalloc.toNat < 1024 →
    ∃ t : State, exec i { s with inPos := s.inPos + (s.rest.length - more.length) } = .next t ∧
      recordLoop (bound + 1) s = if t.walkStack = [] then .next t else recordLoop bound t

/-- INTERNAL takes a handle and awaits its subtrees; with NODE_CAP nodes allocated it is NodeCapacity (R114, R191,
R193, R194; the records as instructions and the stack are the model's reading, log 20 and 21). -/
def Obligations.InternalRecordOpensANode : Prop :=
  ∀ s : State,
    (s.nalloc.toNat < 1024 →
      exec .internal s =
        .next
          { s with
            nalloc := BitVec.ofNat 11 (s.nalloc.toNat + 1)
            walkStack := { node := BitVec.ofNat 10 s.nalloc.toNat, left := none } :: s.walkStack }) ∧
    (1024 ≤ s.nalloc.toNat →
      exec .internal s = .next { s with busy := false, done := false, err := true, errCode := 5 })

/-- LEAF takes a handle, writes its node with the record's value, and returns it: to no open node, which ends the phase;
to a node awaiting its left child; or to one awaiting its right child, which is written and returned in turn (R115,
R191, R193 to R195). The last case stands on the open nodes' handles being taken and distinct. The
records as instructions and the stack are the model's reading (log 20, 21). -/
def Obligations.LeafRecordReturnsANode : Prop :=
  ∀ (s : State) (v : LeafValue),
    let h : Handle := BitVec.ofNat 10 s.nalloc.toNat
    (1024 ≤ s.nalloc.toNat →
      exec (.leaf v) s = .next { s with busy := false, done := false, err := true, errCode := 5 }) ∧
    (s.nalloc.toNat < 1024 → ∃ t : State, exec (.leaf v) s = .next t ∧
      t.nalloc = BitVec.ofNat 11 (s.nalloc.toNat + 1) ∧
      (s.walkStack = [] →
        t.root = h ∧ t.phase = 10 ∧ t.walkStack = [] ∧
        t.node h = { leaf := true, value := v, weight := 0, left := 0, right := 0 } ∧
        ∀ g, g ≠ h → t.node g = s.node g) ∧
      (∀ n later, s.walkStack = { node := n, left := none } :: later →
        t.root = s.root ∧ t.phase = s.phase ∧ t.walkStack = { node := n, left := some h } :: later ∧
        t.node h = { leaf := true, value := v, weight := 0, left := 0, right := 0 } ∧
        ∀ g, g ≠ h → t.node g = s.node g) ∧
      (∀ n l later, s.walkStack = { node := n, left := some l } :: later → n.toNat < s.nalloc.toNat →
        (∀ f ∈ later, f.node.toNat < n.toNat) →
        t.node h = { leaf := true, value := v, weight := 0, left := 0, right := 0 } ∧
        t.node n = { leaf := false, value := 0, weight := 0, left := l, right := h } ∧
        (later = [] → t.root = n ∧ t.phase = 10 ∧ t.walkStack = [] ∧ ∀ g, g ≠ h → g ≠ n → t.node g = s.node g) ∧
        ∀ m rest, later = { node := m, left := none } :: rest →
          t.walkStack = { node := m, left := some n } :: rest ∧ t.phase = s.phase ∧
          ∀ g, g ≠ h → g ≠ n → t.node g = s.node g))

/-! ## huffman_decoder -/

/-- DECODE: a payload of codes ended by a sentinel leaf's code gives the low 8 bits of each leaf value; no bit after it
is read, and nothing else changes (R230, R233, R235, R260). -/
def Obligations.DecodeEmitsTheSymbols : Prop :=
  ∀ (s : State) (l r : CodeTree) (symbols : List (LeafValue × List Bool)) (last more : List Bool),
    HoldsTree s.arena (.node l r) s.root →
    (∀ e ∈ symbols, e ∈ (CodeTree.node l r).paths ∧ e.1 ≠ 256) → (256, last) ∈ (CodeTree.node l r).paths →
    s.rest = symbols.flatMap Prod.snd ++ last ++ more →
    ∃ at_ : Handle,
      (s.node at_).leaf = true ∧ (s.node at_).value = 256 ∧
      exec .decode s =
        .next
          { s with
            inPos := s.inPos + (symbols.flatMap Prod.snd ++ last).length, cur := at_
            output := s.output ++ symbols.flatMap (fun e => bitsN 8 (e.1.toNat % 256)), phase := 11 }

/-- DECODE: a payload that ends before the sentinel's code does is BadInput; the bytes decoded before are in the output,
unpadded and not closed (R232, R238, R283, R285). -/
def Obligations.DecodeRefusesACutPayload : Prop :=
  ∀ (s : State) (l r : CodeTree) (symbols : List (LeafValue × List Bool)) (part path : List Bool) (v : LeafValue),
    HoldsTree s.arena (.node l r) s.root →
    (∀ e ∈ symbols, e ∈ (CodeTree.node l r).paths ∧ e.1 ≠ 256) →
    (v, path) ∈ (CodeTree.node l r).paths → part <+: path → part ≠ path →
    s.rest = symbols.flatMap Prod.snd ++ part →
    ∃ t : State, exec .decode s = .next t ∧
      t = { s with
            cur := t.cur, inPos := s.input.length
            output := s.output ++ symbols.flatMap (fun e => bitsN 8 (e.1.toNat % 256))
            busy := false, done := false, err := true, errCode := 3 }

/-- DECODE: with no leaf of value 256 in the tree, the end is BadInput once the input is exhausted (R237, R197). -/
def Obligations.NoSentinelEndsInBadInput : Prop :=
  ∀ (s : State) (l r : CodeTree), HoldsTree s.arena (.node l r) s.root → 256 ∉ (CodeTree.node l r).values →
    ∃ t : State, exec .decode s = .next t ∧ t.err = true ∧ t.errCode = 3 ∧ t.busy = false ∧ t.done = false ∧
      t.phase = s.phase ∧ t.inPos = s.input.length

/-- DECODE: a root that is a leaf is DegenerateTree before any bit is read or written (R231, R288). -/
def Obligations.LeafRootIsDegenerate : Prop :=
  ∀ (s : State) (v : LeafValue), HoldsTree s.arena (.leaf v) s.root →
    exec .decode s = .next { s with busy := false, done := false, err := true, errCode := 4 }

/-! ## Every instruction -/

/-- Every phase ends, in every state, but for the walks of GENCODES and WRITE_HEADER where ROOT holds no tree over the
symbols, and for REWIND on an input that cannot be rewound (R258, R237). -/
def Obligations.EveryPhaseEnds : Prop :=
  ∀ s : State,
    (∀ i ∈ [Instr.compress, .decompress, .idle, .count, .build, .encode, .closeC, .readMagic, .deserialize, .decode,
        .closeD, .internal], ∃ t, exec i s = .next t) ∧
    (∀ v, ∃ t, exec (.leaf v) s = .next t) ∧
    (s.rewindable = true → ∃ t, exec .rewind s = .next t) ∧
    (∀ T, HoldsTree s.arena T s.root → ∃ t, exec .writeHeader s = .next t) ∧
    (∀ T, HoldsTree s.arena T s.root → (∀ v ∈ T.values, v.toNat < 257) → ∃ t, exec .gencodes s = .next t)

/-- THE FRAME: an instruction changes nothing but what R51 and the status rules let it write, for every instruction and
form (R51, R42, R144, R250, R254, R285): `putBack` names the fields of each (the walk stack: log 20; the
records: log 21). -/
def Obligations.EveryInstructionKeepsItsFrame : Prop :=
  ∀ (i : Instr) (s t : State), exec i s = .next t → putBack i s t = s

/-- No instruction reads or writes the host's side: exec commutes with another list of pending moves, another last read
and other taken bytes (R31, R51; these fields are the model's, log 1 and 2). -/
def Obligations.InstructionsIgnoreTheHostSide : Prop :=
  ∀ (i : Instr) (s t : State) (host : List HostAction) (readData : Word) (taken : List Byte), exec i s = .next t →
    exec i { s with host := host, readData := readData, taken := taken } =
      .next { t with host := host, readData := readData, taken := taken }

/-! ## The whole machine -/

/-- Reset: STATUS 0, PHASE IDLE, OP 0, PQ and the walk stack empty (R53, R310). -/
def Obligations.ResetIsIdleAndClear : Prop :=
  State.reset.statusWord = 0 ∧ State.reset.phase = phaseIdle ∧ State.reset.op = 0 ∧ State.reset.pq = [] ∧
    State.reset.walkStack = []

/-- A reset at any time abandons the command and leaves the streams as they were (R310; as a move of the host: log 1, 7). -/
def Obligations.ResetAbandonsTheCommand : Prop :=
  ∀ (s : State) (later : List HostAction), ∃ t : State, step { s with host := .reset :: later } = .next t ∧
    t.statusWord = 0 ∧ t.phase = phaseIdle ∧ t.op = 0 ∧ t.pq = [] ∧ t.walkStack = [] ∧
    t.input = s.input ∧ t.inPos = s.inPos ∧ t.output = s.output ∧ t.outClosed = s.outClosed ∧ t.host = later

/-- The host's stream moves: an input is its bytes' bits with the cursor at 0, an output is empty and open, what is taken
is the output's bytes; while BUSY each is refused (R71, R75, R87, R313; the moves and the refusal are the model's, log 1
and 15). -/
def Obligations.HostOwnsTheStreamsWhileIdle : Prop :=
  ∀ (s : State) (later : List HostAction) (bytes : List Byte) (rewindable : Bool),
    (s.busy = false →
      step { s with host := .attachIn bytes rewindable :: later } =
        .next { s with host := later, input := bitsOfBytes bytes, inPos := 0, rewindable := rewindable } ∧
      step { s with host := .attachOut :: later } = .next { s with host := later, output := [], outClosed := false } ∧
      step { s with host := .takeOut :: later } = .next { s with host := later, taken := bytesOf s.output }) ∧
    (s.busy = true →
      step { s with host := .attachIn bytes rewindable :: later } = .refused .streamAccessWhileBusy ∧
      step { s with host := .attachOut :: later } = .refused .streamAccessWhileBusy ∧
      step { s with host := .takeOut :: later } = .refused .streamAccessWhileBusy)

/-- The invariant holds at reset (NALLOC's reset value is the model's, log 4). -/
def Obligations.InvariantHoldsAtReset : Prop := Inv State.reset

/-- THE INVARIANT: at most one of BUSY, DONE and ERR, a legal ERR_CODE and PHASE, a phase of the running command, a legal
cursor, an empty PQ, NALLOC within NODE_CAP, and a built tree wherever one is walked, are kept by every step, whatever
the host does (R33, R36, R37, R41, R43, R47, R71, R253). -/
def Obligations.EveryStepKeepsTheInvariant : Prop :=
  ∀ s t : State, Inv s → step s = .next t → Inv t

/-- From the invariant no step faults, and a step is refused only for a host that breaks its duties (R258, R51; the
refusals are the model's, log 14 to 16). -/
def Obligations.InvariantStatesNeverFault : Prop :=
  ∀ s : State, Inv s →
    (∀ r, step s ≠ .fault r) ∧
    ∀ r, step s = .refused r →
      (r = .streamAccessWhileBusy ∧ s.busy = true) ∨ (r = .inputNotRewindable ∧ s.rewindable = false) ∨
        r = .hostAccessSize

/-- A running command ends within seven steps of the codec, by completion or by an error (R258, R251, R252). -/
def Obligations.EveryCommandEnds : Prop :=
  ∀ s : State, Inv s → s.busy = true → s.rewindable = true → s.host = [] →
    ∃ k ≤ 7, ∃ t : State, Host.Core.run Sys2Proof.core k s = .next t ∧ t.busy = false ∧
      (t.done = true ∨ t.err = true)

/-- COMPRESS writes the file format: the magic number, the records of a full tree, the codes of the input bytes in it,
the sentinel's code, and zero bits to a byte boundary; the tree and so the file depend on the input alone (R106, R110
to R113, R251, R259, R262; the script is in the model's host moves, log 1). -/
def Obligations.CompressWritesTheFileFormat : Prop :=
  ∀ bytes : List Byte, bytes.length ≤ 2 ^ 32 - 2 →
    ∃ T : CodeTree, T.IsFull ∧
      let file :=
        bitsN 32 0xFACE8201 ++ T.records ++ bytes.flatMap (fun b => T.pathOf (BitVec.ofNat 9 b.toNat)) ++ T.pathOf 256
      ∀ s : State, s.busy = false →
        ∃ t : State,
          Host.Core.run Sys2Proof.core 12 (withScript (commandScript 1 bytes true) s) = .next t ∧
          t.statusWord = 2 ∧ t.outClosed = true ∧ HoldsTree t.arena T t.root ∧
          t.output = file ++ List.replicate (padding file.length) false ∧ t.taken = bytesOf t.output

/-- ROUND TRIP: for every input of at most 2^32 - 2 bytes, the empty one too, and from every idle state, DECOMPRESS of
what COMPRESS wrote gives back exactly the input, with DONE (R261; the scripts are in the model's host moves, log 1). -/
def Obligations.DecompressInvertsCompress : Prop :=
  ∀ bytes : List Byte, bytes.length ≤ 2 ^ 32 - 2 →
    ∃ file : List Byte,
      (∀ s : State, s.busy = false →
        ∃ t : State, Host.Core.run Sys2Proof.core 12 (withScript (commandScript 1 bytes true) s) = .next t ∧
          t.statusWord = 2 ∧ t.taken = file) ∧
      ∀ (s : State) (rewindable : Bool), s.busy = false →
        ∃ t : State, Host.Core.run Sys2Proof.core 9 (withScript (commandScript 2 file rewindable) s) = .next t ∧
          t.statusWord = 2 ∧ t.taken = bytes

/-- Under every TIE_ORDER, and either choice of the left child, the phases of DECOMPRESS give back what the phases of
COMPRESS read (R162, R261; the order as a parameter is the model's reading, log 18). -/
def Obligations.RoundTripUnderEveryTieOrder : Prop :=
  ∀ (before firstLeft : Key → Key → Bool), IsTieOrder before →
    ∀ (bytes : List Byte), bytes.length ≤ 2 ^ 32 - 2 →
      ∀ s : State, s.busy = true → s.input = bitsOfBytes bytes → s.inPos = 0 → s.rewindable = true → s.output = [] →
        ∃ t : State, compressUnder before firstLeft s = .next t ∧ t.done = true ∧
          ∀ u : State, u.busy = true → u.input = t.output → u.inPos = 0 → u.output = [] →
            ∃ v : State, decompressPhases u = .next v ∧ v.done = true ∧ v.output = bitsOfBytes bytes

/-- What a command leaves in the streams and in STATUS depends on its input alone, not on what the codec's memories held
(R51, R312, R262; the script is in the model's host moves, log 1). -/
def Obligations.CommandsIgnoreOldMemories : Prop :=
  ∀ (command : Word) (bytes : List Byte) (s s' : State), command = 1 ∨ command = 2 → s.busy = false → s'.busy = false →
    ∃ t t' : State,
      Host.Core.run Sys2Proof.core 12 (withScript (commandScript command bytes true) s) = .next t ∧
      Host.Core.run Sys2Proof.core 12 (withScript (commandScript command bytes true) s') = .next t' ∧
      t.statusWord = t'.statusWord ∧ t.inPos = t'.inPos ∧ t.output = t'.output ∧ t.outClosed = t'.outClosed ∧
      t.taken = t'.taken ∧ t.op = t'.op
end

