-- ==== Sys2Proof/Laws/State.lean ====
section
/-! SUPPORT. What every named update leaves in every field of State. -/

namespace Sys2Proof.Machine

@[simp] theorem State.rewindInput_busy (s : State) : (s.rewindInput).busy = s.busy := rfl
@[simp] theorem State.rewindInput_done (s : State) : (s.rewindInput).done = s.done := rfl
@[simp] theorem State.rewindInput_err (s : State) : (s.rewindInput).err = s.err := rfl
@[simp] theorem State.rewindInput_errCode (s : State) : (s.rewindInput).errCode = s.errCode := rfl
@[simp] theorem State.rewindInput_phase (s : State) : (s.rewindInput).phase = s.phase := rfl
@[simp] theorem State.rewindInput_op (s : State) : (s.rewindInput).op = s.op := rfl
@[simp] theorem State.rewindInput_counts (s : State) : (s.rewindInput).counts = s.counts := rfl
@[simp] theorem State.rewindInput_total (s : State) : (s.rewindInput).total = s.total := rfl
@[simp] theorem State.rewindInput_arena (s : State) : (s.rewindInput).arena = s.arena := rfl
@[simp] theorem State.rewindInput_nalloc (s : State) : (s.rewindInput).nalloc = s.nalloc := rfl
@[simp] theorem State.rewindInput_root (s : State) : (s.rewindInput).root = s.root := rfl
@[simp] theorem State.rewindInput_code (s : State) : (s.rewindInput).code = s.code := rfl
@[simp] theorem State.rewindInput_cur (s : State) : (s.rewindInput).cur = s.cur := rfl
@[simp] theorem State.rewindInput_pq (s : State) : (s.rewindInput).pq = s.pq := rfl
@[simp] theorem State.rewindInput_walkStack (s : State) : (s.rewindInput).walkStack = s.walkStack := rfl
@[simp] theorem State.rewindInput_input (s : State) : (s.rewindInput).input = s.input := rfl
@[simp] theorem State.rewindInput_inPos (s : State) : (s.rewindInput).inPos = 0 := rfl
@[simp] theorem State.rewindInput_rewindable (s : State) : (s.rewindInput).rewindable = s.rewindable := rfl
@[simp] theorem State.rewindInput_output (s : State) : (s.rewindInput).output = s.output := rfl
@[simp] theorem State.rewindInput_outClosed (s : State) : (s.rewindInput).outClosed = s.outClosed := rfl
@[simp] theorem State.rewindInput_host (s : State) : (s.rewindInput).host = s.host := rfl
@[simp] theorem State.rewindInput_readData (s : State) : (s.rewindInput).readData = s.readData := rfl
@[simp] theorem State.rewindInput_taken (s : State) : (s.rewindInput).taken = s.taken := rfl

@[simp] theorem State.append_busy (bits : List Bool) (s : State) : (s.append bits).busy = s.busy := rfl
@[simp] theorem State.append_done (bits : List Bool) (s : State) : (s.append bits).done = s.done := rfl
@[simp] theorem State.append_err (bits : List Bool) (s : State) : (s.append bits).err = s.err := rfl
@[simp] theorem State.append_errCode (bits : List Bool) (s : State) : (s.append bits).errCode = s.errCode := rfl
@[simp] theorem State.append_phase (bits : List Bool) (s : State) : (s.append bits).phase = s.phase := rfl
@[simp] theorem State.append_op (bits : List Bool) (s : State) : (s.append bits).op = s.op := rfl
@[simp] theorem State.append_counts (bits : List Bool) (s : State) : (s.append bits).counts = s.counts := rfl
@[simp] theorem State.append_total (bits : List Bool) (s : State) : (s.append bits).total = s.total := rfl
@[simp] theorem State.append_arena (bits : List Bool) (s : State) : (s.append bits).arena = s.arena := rfl
@[simp] theorem State.append_nalloc (bits : List Bool) (s : State) : (s.append bits).nalloc = s.nalloc := rfl
@[simp] theorem State.append_root (bits : List Bool) (s : State) : (s.append bits).root = s.root := rfl
@[simp] theorem State.append_code (bits : List Bool) (s : State) : (s.append bits).code = s.code := rfl
@[simp] theorem State.append_cur (bits : List Bool) (s : State) : (s.append bits).cur = s.cur := rfl
@[simp] theorem State.append_pq (bits : List Bool) (s : State) : (s.append bits).pq = s.pq := rfl
@[simp] theorem State.append_walkStack (bits : List Bool) (s : State) : (s.append bits).walkStack = s.walkStack := rfl
@[simp] theorem State.append_input (bits : List Bool) (s : State) : (s.append bits).input = s.input := rfl
@[simp] theorem State.append_inPos (bits : List Bool) (s : State) : (s.append bits).inPos = s.inPos := rfl
@[simp] theorem State.append_rewindable (bits : List Bool) (s : State) : (s.append bits).rewindable = s.rewindable := rfl
@[simp] theorem State.append_output (bits : List Bool) (s : State) : (s.append bits).output = s.output ++ bits := rfl
@[simp] theorem State.append_outClosed (bits : List Bool) (s : State) : (s.append bits).outClosed = s.outClosed := rfl
@[simp] theorem State.append_host (bits : List Bool) (s : State) : (s.append bits).host = s.host := rfl
@[simp] theorem State.append_readData (bits : List Bool) (s : State) : (s.append bits).readData = s.readData := rfl
@[simp] theorem State.append_taken (bits : List Bool) (s : State) : (s.append bits).taken = s.taken := rfl

@[simp] theorem State.writeBits_busy (n v : Nat) (s : State) : (s.writeBits n v).busy = s.busy := rfl
@[simp] theorem State.writeBits_done (n v : Nat) (s : State) : (s.writeBits n v).done = s.done := rfl
@[simp] theorem State.writeBits_err (n v : Nat) (s : State) : (s.writeBits n v).err = s.err := rfl
@[simp] theorem State.writeBits_errCode (n v : Nat) (s : State) : (s.writeBits n v).errCode = s.errCode := rfl
@[simp] theorem State.writeBits_phase (n v : Nat) (s : State) : (s.writeBits n v).phase = s.phase := rfl
@[simp] theorem State.writeBits_op (n v : Nat) (s : State) : (s.writeBits n v).op = s.op := rfl
@[simp] theorem State.writeBits_counts (n v : Nat) (s : State) : (s.writeBits n v).counts = s.counts := rfl
@[simp] theorem State.writeBits_total (n v : Nat) (s : State) : (s.writeBits n v).total = s.total := rfl
@[simp] theorem State.writeBits_arena (n v : Nat) (s : State) : (s.writeBits n v).arena = s.arena := rfl
@[simp] theorem State.writeBits_nalloc (n v : Nat) (s : State) : (s.writeBits n v).nalloc = s.nalloc := rfl
@[simp] theorem State.writeBits_root (n v : Nat) (s : State) : (s.writeBits n v).root = s.root := rfl
@[simp] theorem State.writeBits_code (n v : Nat) (s : State) : (s.writeBits n v).code = s.code := rfl
@[simp] theorem State.writeBits_cur (n v : Nat) (s : State) : (s.writeBits n v).cur = s.cur := rfl
@[simp] theorem State.writeBits_pq (n v : Nat) (s : State) : (s.writeBits n v).pq = s.pq := rfl
@[simp] theorem State.writeBits_walkStack (n v : Nat) (s : State) : (s.writeBits n v).walkStack = s.walkStack := rfl
@[simp] theorem State.writeBits_input (n v : Nat) (s : State) : (s.writeBits n v).input = s.input := rfl
@[simp] theorem State.writeBits_inPos (n v : Nat) (s : State) : (s.writeBits n v).inPos = s.inPos := rfl
@[simp] theorem State.writeBits_rewindable (n v : Nat) (s : State) : (s.writeBits n v).rewindable = s.rewindable := rfl
@[simp] theorem State.writeBits_output (n v : Nat) (s : State) : (s.writeBits n v).output = s.output ++ bitsN n v := rfl
@[simp] theorem State.writeBits_outClosed (n v : Nat) (s : State) : (s.writeBits n v).outClosed = s.outClosed := rfl
@[simp] theorem State.writeBits_host (n v : Nat) (s : State) : (s.writeBits n v).host = s.host := rfl
@[simp] theorem State.writeBits_readData (n v : Nat) (s : State) : (s.writeBits n v).readData = s.readData := rfl
@[simp] theorem State.writeBits_taken (n v : Nat) (s : State) : (s.writeBits n v).taken = s.taken := rfl

@[simp] theorem State.close_busy (s : State) : (s.close).busy = s.busy := rfl
@[simp] theorem State.close_done (s : State) : (s.close).done = s.done := rfl
@[simp] theorem State.close_err (s : State) : (s.close).err = s.err := rfl
@[simp] theorem State.close_errCode (s : State) : (s.close).errCode = s.errCode := rfl
@[simp] theorem State.close_phase (s : State) : (s.close).phase = s.phase := rfl
@[simp] theorem State.close_op (s : State) : (s.close).op = s.op := rfl
@[simp] theorem State.close_counts (s : State) : (s.close).counts = s.counts := rfl
@[simp] theorem State.close_total (s : State) : (s.close).total = s.total := rfl
@[simp] theorem State.close_arena (s : State) : (s.close).arena = s.arena := rfl
@[simp] theorem State.close_nalloc (s : State) : (s.close).nalloc = s.nalloc := rfl
@[simp] theorem State.close_root (s : State) : (s.close).root = s.root := rfl
@[simp] theorem State.close_code (s : State) : (s.close).code = s.code := rfl
@[simp] theorem State.close_cur (s : State) : (s.close).cur = s.cur := rfl
@[simp] theorem State.close_pq (s : State) : (s.close).pq = s.pq := rfl
@[simp] theorem State.close_walkStack (s : State) : (s.close).walkStack = s.walkStack := rfl
@[simp] theorem State.close_input (s : State) : (s.close).input = s.input := rfl
@[simp] theorem State.close_inPos (s : State) : (s.close).inPos = s.inPos := rfl
@[simp] theorem State.close_rewindable (s : State) : (s.close).rewindable = s.rewindable := rfl
@[simp] theorem State.close_output (s : State) : (s.close).output = s.output ++ List.replicate (padding s.output.length) false := rfl
@[simp] theorem State.close_outClosed (s : State) : (s.close).outClosed = true := rfl
@[simp] theorem State.close_host (s : State) : (s.close).host = s.host := rfl
@[simp] theorem State.close_readData (s : State) : (s.close).readData = s.readData := rfl
@[simp] theorem State.close_taken (s : State) : (s.close).taken = s.taken := rfl

@[simp] theorem State.setNode_busy (h : Handle) (n : Node) (s : State) : (s.setNode h n).busy = s.busy := rfl
@[simp] theorem State.setNode_done (h : Handle) (n : Node) (s : State) : (s.setNode h n).done = s.done := rfl
@[simp] theorem State.setNode_err (h : Handle) (n : Node) (s : State) : (s.setNode h n).err = s.err := rfl
@[simp] theorem State.setNode_errCode (h : Handle) (n : Node) (s : State) : (s.setNode h n).errCode = s.errCode := rfl
@[simp] theorem State.setNode_phase (h : Handle) (n : Node) (s : State) : (s.setNode h n).phase = s.phase := rfl
@[simp] theorem State.setNode_op (h : Handle) (n : Node) (s : State) : (s.setNode h n).op = s.op := rfl
@[simp] theorem State.setNode_counts (h : Handle) (n : Node) (s : State) : (s.setNode h n).counts = s.counts := rfl
@[simp] theorem State.setNode_total (h : Handle) (n : Node) (s : State) : (s.setNode h n).total = s.total := rfl
@[simp] theorem State.setNode_arena (h : Handle) (n : Node) (s : State) : (s.setNode h n).arena = s.arena.set h.toNat n h.isLt := rfl
@[simp] theorem State.setNode_nalloc (h : Handle) (n : Node) (s : State) : (s.setNode h n).nalloc = s.nalloc := rfl
@[simp] theorem State.setNode_root (h : Handle) (n : Node) (s : State) : (s.setNode h n).root = s.root := rfl
@[simp] theorem State.setNode_code (h : Handle) (n : Node) (s : State) : (s.setNode h n).code = s.code := rfl
@[simp] theorem State.setNode_cur (h : Handle) (n : Node) (s : State) : (s.setNode h n).cur = s.cur := rfl
@[simp] theorem State.setNode_pq (h : Handle) (n : Node) (s : State) : (s.setNode h n).pq = s.pq := rfl
@[simp] theorem State.setNode_walkStack (h : Handle) (n : Node) (s : State) : (s.setNode h n).walkStack = s.walkStack := rfl
@[simp] theorem State.setNode_input (h : Handle) (n : Node) (s : State) : (s.setNode h n).input = s.input := rfl
@[simp] theorem State.setNode_inPos (h : Handle) (n : Node) (s : State) : (s.setNode h n).inPos = s.inPos := rfl
@[simp] theorem State.setNode_rewindable (h : Handle) (n : Node) (s : State) : (s.setNode h n).rewindable = s.rewindable := rfl
@[simp] theorem State.setNode_output (h : Handle) (n : Node) (s : State) : (s.setNode h n).output = s.output := rfl
@[simp] theorem State.setNode_outClosed (h : Handle) (n : Node) (s : State) : (s.setNode h n).outClosed = s.outClosed := rfl
@[simp] theorem State.setNode_host (h : Handle) (n : Node) (s : State) : (s.setNode h n).host = s.host := rfl
@[simp] theorem State.setNode_readData (h : Handle) (n : Node) (s : State) : (s.setNode h n).readData = s.readData := rfl
@[simp] theorem State.setNode_taken (h : Handle) (n : Node) (s : State) : (s.setNode h n).taken = s.taken := rfl

@[simp] theorem State.setCount_busy (x : Symbol) (w : Word) (s : State) : (s.setCount x w).busy = s.busy := rfl
@[simp] theorem State.setCount_done (x : Symbol) (w : Word) (s : State) : (s.setCount x w).done = s.done := rfl
@[simp] theorem State.setCount_err (x : Symbol) (w : Word) (s : State) : (s.setCount x w).err = s.err := rfl
@[simp] theorem State.setCount_errCode (x : Symbol) (w : Word) (s : State) : (s.setCount x w).errCode = s.errCode := rfl
@[simp] theorem State.setCount_phase (x : Symbol) (w : Word) (s : State) : (s.setCount x w).phase = s.phase := rfl
@[simp] theorem State.setCount_op (x : Symbol) (w : Word) (s : State) : (s.setCount x w).op = s.op := rfl
@[simp] theorem State.setCount_counts (x : Symbol) (w : Word) (s : State) : (s.setCount x w).counts = s.counts.set x.val w x.isLt := rfl
@[simp] theorem State.setCount_total (x : Symbol) (w : Word) (s : State) : (s.setCount x w).total = s.total := rfl
@[simp] theorem State.setCount_arena (x : Symbol) (w : Word) (s : State) : (s.setCount x w).arena = s.arena := rfl
@[simp] theorem State.setCount_nalloc (x : Symbol) (w : Word) (s : State) : (s.setCount x w).nalloc = s.nalloc := rfl
@[simp] theorem State.setCount_root (x : Symbol) (w : Word) (s : State) : (s.setCount x w).root = s.root := rfl
@[simp] theorem State.setCount_code (x : Symbol) (w : Word) (s : State) : (s.setCount x w).code = s.code := rfl
@[simp] theorem State.setCount_cur (x : Symbol) (w : Word) (s : State) : (s.setCount x w).cur = s.cur := rfl
@[simp] theorem State.setCount_pq (x : Symbol) (w : Word) (s : State) : (s.setCount x w).pq = s.pq := rfl
@[simp] theorem State.setCount_walkStack (x : Symbol) (w : Word) (s : State) : (s.setCount x w).walkStack = s.walkStack := rfl
@[simp] theorem State.setCount_input (x : Symbol) (w : Word) (s : State) : (s.setCount x w).input = s.input := rfl
@[simp] theorem State.setCount_inPos (x : Symbol) (w : Word) (s : State) : (s.setCount x w).inPos = s.inPos := rfl
@[simp] theorem State.setCount_rewindable (x : Symbol) (w : Word) (s : State) : (s.setCount x w).rewindable = s.rewindable := rfl
@[simp] theorem State.setCount_output (x : Symbol) (w : Word) (s : State) : (s.setCount x w).output = s.output := rfl
@[simp] theorem State.setCount_outClosed (x : Symbol) (w : Word) (s : State) : (s.setCount x w).outClosed = s.outClosed := rfl
@[simp] theorem State.setCount_host (x : Symbol) (w : Word) (s : State) : (s.setCount x w).host = s.host := rfl
@[simp] theorem State.setCount_readData (x : Symbol) (w : Word) (s : State) : (s.setCount x w).readData = s.readData := rfl
@[simp] theorem State.setCount_taken (x : Symbol) (w : Word) (s : State) : (s.setCount x w).taken = s.taken := rfl

@[simp] theorem State.setCode_busy (x : Symbol) (c : Code) (s : State) : (s.setCode x c).busy = s.busy := rfl
@[simp] theorem State.setCode_done (x : Symbol) (c : Code) (s : State) : (s.setCode x c).done = s.done := rfl
@[simp] theorem State.setCode_err (x : Symbol) (c : Code) (s : State) : (s.setCode x c).err = s.err := rfl
@[simp] theorem State.setCode_errCode (x : Symbol) (c : Code) (s : State) : (s.setCode x c).errCode = s.errCode := rfl
@[simp] theorem State.setCode_phase (x : Symbol) (c : Code) (s : State) : (s.setCode x c).phase = s.phase := rfl
@[simp] theorem State.setCode_op (x : Symbol) (c : Code) (s : State) : (s.setCode x c).op = s.op := rfl
@[simp] theorem State.setCode_counts (x : Symbol) (c : Code) (s : State) : (s.setCode x c).counts = s.counts := rfl
@[simp] theorem State.setCode_total (x : Symbol) (c : Code) (s : State) : (s.setCode x c).total = s.total := rfl
@[simp] theorem State.setCode_arena (x : Symbol) (c : Code) (s : State) : (s.setCode x c).arena = s.arena := rfl
@[simp] theorem State.setCode_nalloc (x : Symbol) (c : Code) (s : State) : (s.setCode x c).nalloc = s.nalloc := rfl
@[simp] theorem State.setCode_root (x : Symbol) (c : Code) (s : State) : (s.setCode x c).root = s.root := rfl
@[simp] theorem State.setCode_code (x : Symbol) (c : Code) (s : State) : (s.setCode x c).code = s.code.set x.val c x.isLt := rfl
@[simp] theorem State.setCode_cur (x : Symbol) (c : Code) (s : State) : (s.setCode x c).cur = s.cur := rfl
@[simp] theorem State.setCode_pq (x : Symbol) (c : Code) (s : State) : (s.setCode x c).pq = s.pq := rfl
@[simp] theorem State.setCode_walkStack (x : Symbol) (c : Code) (s : State) : (s.setCode x c).walkStack = s.walkStack := rfl
@[simp] theorem State.setCode_input (x : Symbol) (c : Code) (s : State) : (s.setCode x c).input = s.input := rfl
@[simp] theorem State.setCode_inPos (x : Symbol) (c : Code) (s : State) : (s.setCode x c).inPos = s.inPos := rfl
@[simp] theorem State.setCode_rewindable (x : Symbol) (c : Code) (s : State) : (s.setCode x c).rewindable = s.rewindable := rfl
@[simp] theorem State.setCode_output (x : Symbol) (c : Code) (s : State) : (s.setCode x c).output = s.output := rfl
@[simp] theorem State.setCode_outClosed (x : Symbol) (c : Code) (s : State) : (s.setCode x c).outClosed = s.outClosed := rfl
@[simp] theorem State.setCode_host (x : Symbol) (c : Code) (s : State) : (s.setCode x c).host = s.host := rfl
@[simp] theorem State.setCode_readData (x : Symbol) (c : Code) (s : State) : (s.setCode x c).readData = s.readData := rfl
@[simp] theorem State.setCode_taken (x : Symbol) (c : Code) (s : State) : (s.setCode x c).taken = s.taken := rfl

@[simp] theorem State.setPhase_busy (p : PhaseCode) (s : State) : (s.setPhase p).busy = s.busy := rfl
@[simp] theorem State.setPhase_done (p : PhaseCode) (s : State) : (s.setPhase p).done = s.done := rfl
@[simp] theorem State.setPhase_err (p : PhaseCode) (s : State) : (s.setPhase p).err = s.err := rfl
@[simp] theorem State.setPhase_errCode (p : PhaseCode) (s : State) : (s.setPhase p).errCode = s.errCode := rfl
@[simp] theorem State.setPhase_phase (p : PhaseCode) (s : State) : (s.setPhase p).phase = p := rfl
@[simp] theorem State.setPhase_op (p : PhaseCode) (s : State) : (s.setPhase p).op = s.op := rfl
@[simp] theorem State.setPhase_counts (p : PhaseCode) (s : State) : (s.setPhase p).counts = s.counts := rfl
@[simp] theorem State.setPhase_total (p : PhaseCode) (s : State) : (s.setPhase p).total = s.total := rfl
@[simp] theorem State.setPhase_arena (p : PhaseCode) (s : State) : (s.setPhase p).arena = s.arena := rfl
@[simp] theorem State.setPhase_nalloc (p : PhaseCode) (s : State) : (s.setPhase p).nalloc = s.nalloc := rfl
@[simp] theorem State.setPhase_root (p : PhaseCode) (s : State) : (s.setPhase p).root = s.root := rfl
@[simp] theorem State.setPhase_code (p : PhaseCode) (s : State) : (s.setPhase p).code = s.code := rfl
@[simp] theorem State.setPhase_cur (p : PhaseCode) (s : State) : (s.setPhase p).cur = s.cur := rfl
@[simp] theorem State.setPhase_pq (p : PhaseCode) (s : State) : (s.setPhase p).pq = s.pq := rfl
@[simp] theorem State.setPhase_walkStack (p : PhaseCode) (s : State) : (s.setPhase p).walkStack = s.walkStack := rfl
@[simp] theorem State.setPhase_input (p : PhaseCode) (s : State) : (s.setPhase p).input = s.input := rfl
@[simp] theorem State.setPhase_inPos (p : PhaseCode) (s : State) : (s.setPhase p).inPos = s.inPos := rfl
@[simp] theorem State.setPhase_rewindable (p : PhaseCode) (s : State) : (s.setPhase p).rewindable = s.rewindable := rfl
@[simp] theorem State.setPhase_output (p : PhaseCode) (s : State) : (s.setPhase p).output = s.output := rfl
@[simp] theorem State.setPhase_outClosed (p : PhaseCode) (s : State) : (s.setPhase p).outClosed = s.outClosed := rfl
@[simp] theorem State.setPhase_host (p : PhaseCode) (s : State) : (s.setPhase p).host = s.host := rfl
@[simp] theorem State.setPhase_readData (p : PhaseCode) (s : State) : (s.setPhase p).readData = s.readData := rfl
@[simp] theorem State.setPhase_taken (p : PhaseCode) (s : State) : (s.setPhase p).taken = s.taken := rfl

@[simp] theorem State.raise_busy (e : Error) (s : State) : (s.raise e).busy = false := rfl
@[simp] theorem State.raise_done (e : Error) (s : State) : (s.raise e).done = false := rfl
@[simp] theorem State.raise_err (e : Error) (s : State) : (s.raise e).err = true := rfl
@[simp] theorem State.raise_errCode (e : Error) (s : State) : (s.raise e).errCode = e.code := rfl
@[simp] theorem State.raise_phase (e : Error) (s : State) : (s.raise e).phase = s.phase := rfl
@[simp] theorem State.raise_op (e : Error) (s : State) : (s.raise e).op = s.op := rfl
@[simp] theorem State.raise_counts (e : Error) (s : State) : (s.raise e).counts = s.counts := rfl
@[simp] theorem State.raise_total (e : Error) (s : State) : (s.raise e).total = s.total := rfl
@[simp] theorem State.raise_arena (e : Error) (s : State) : (s.raise e).arena = s.arena := rfl
@[simp] theorem State.raise_nalloc (e : Error) (s : State) : (s.raise e).nalloc = s.nalloc := rfl
@[simp] theorem State.raise_root (e : Error) (s : State) : (s.raise e).root = s.root := rfl
@[simp] theorem State.raise_code (e : Error) (s : State) : (s.raise e).code = s.code := rfl
@[simp] theorem State.raise_cur (e : Error) (s : State) : (s.raise e).cur = s.cur := rfl
@[simp] theorem State.raise_pq (e : Error) (s : State) : (s.raise e).pq = s.pq := rfl
@[simp] theorem State.raise_walkStack (e : Error) (s : State) : (s.raise e).walkStack = s.walkStack := rfl
@[simp] theorem State.raise_input (e : Error) (s : State) : (s.raise e).input = s.input := rfl
@[simp] theorem State.raise_inPos (e : Error) (s : State) : (s.raise e).inPos = s.inPos := rfl
@[simp] theorem State.raise_rewindable (e : Error) (s : State) : (s.raise e).rewindable = s.rewindable := rfl
@[simp] theorem State.raise_output (e : Error) (s : State) : (s.raise e).output = s.output := rfl
@[simp] theorem State.raise_outClosed (e : Error) (s : State) : (s.raise e).outClosed = s.outClosed := rfl
@[simp] theorem State.raise_host (e : Error) (s : State) : (s.raise e).host = s.host := rfl
@[simp] theorem State.raise_readData (e : Error) (s : State) : (s.raise e).readData = s.readData := rfl
@[simp] theorem State.raise_taken (e : Error) (s : State) : (s.raise e).taken = s.taken := rfl

@[simp] theorem State.illegal_busy (s : State) : (s.illegal).busy = false := rfl
@[simp] theorem State.illegal_done (s : State) : (s.illegal).done = false := rfl
@[simp] theorem State.illegal_err (s : State) : (s.illegal).err = true := rfl
@[simp] theorem State.illegal_errCode (s : State) : (s.illegal).errCode = 7 := rfl
@[simp] theorem State.illegal_phase (s : State) : (s.illegal).phase = phaseIdle := rfl
@[simp] theorem State.illegal_op (s : State) : (s.illegal).op = s.op := rfl
@[simp] theorem State.illegal_counts (s : State) : (s.illegal).counts = s.counts := rfl
@[simp] theorem State.illegal_total (s : State) : (s.illegal).total = s.total := rfl
@[simp] theorem State.illegal_arena (s : State) : (s.illegal).arena = s.arena := rfl
@[simp] theorem State.illegal_nalloc (s : State) : (s.illegal).nalloc = s.nalloc := rfl
@[simp] theorem State.illegal_root (s : State) : (s.illegal).root = s.root := rfl
@[simp] theorem State.illegal_code (s : State) : (s.illegal).code = s.code := rfl
@[simp] theorem State.illegal_cur (s : State) : (s.illegal).cur = s.cur := rfl
@[simp] theorem State.illegal_pq (s : State) : (s.illegal).pq = s.pq := rfl
@[simp] theorem State.illegal_walkStack (s : State) : (s.illegal).walkStack = s.walkStack := rfl
@[simp] theorem State.illegal_input (s : State) : (s.illegal).input = s.input := rfl
@[simp] theorem State.illegal_inPos (s : State) : (s.illegal).inPos = s.inPos := rfl
@[simp] theorem State.illegal_rewindable (s : State) : (s.illegal).rewindable = s.rewindable := rfl
@[simp] theorem State.illegal_output (s : State) : (s.illegal).output = s.output := rfl
@[simp] theorem State.illegal_outClosed (s : State) : (s.illegal).outClosed = s.outClosed := rfl
@[simp] theorem State.illegal_host (s : State) : (s.illegal).host = s.host := rfl
@[simp] theorem State.illegal_readData (s : State) : (s.illegal).readData = s.readData := rfl
@[simp] theorem State.illegal_taken (s : State) : (s.illegal).taken = s.taken := rfl

@[simp] theorem State.accept_busy (op : BitVec 2) (p : PhaseCode) (s : State) : (s.accept op p).busy = true := rfl
@[simp] theorem State.accept_done (op : BitVec 2) (p : PhaseCode) (s : State) : (s.accept op p).done = false := rfl
@[simp] theorem State.accept_err (op : BitVec 2) (p : PhaseCode) (s : State) : (s.accept op p).err = false := rfl
@[simp] theorem State.accept_errCode (op : BitVec 2) (p : PhaseCode) (s : State) : (s.accept op p).errCode = 0 := rfl
@[simp] theorem State.accept_phase (op : BitVec 2) (p : PhaseCode) (s : State) : (s.accept op p).phase = p := rfl
@[simp] theorem State.accept_op (op : BitVec 2) (p : PhaseCode) (s : State) : (s.accept op p).op = op := rfl
@[simp] theorem State.accept_counts (op : BitVec 2) (p : PhaseCode) (s : State) : (s.accept op p).counts = s.counts := rfl
@[simp] theorem State.accept_total (op : BitVec 2) (p : PhaseCode) (s : State) : (s.accept op p).total = s.total := rfl
@[simp] theorem State.accept_arena (op : BitVec 2) (p : PhaseCode) (s : State) : (s.accept op p).arena = s.arena := rfl
@[simp] theorem State.accept_nalloc (op : BitVec 2) (p : PhaseCode) (s : State) : (s.accept op p).nalloc = s.nalloc := rfl
@[simp] theorem State.accept_root (op : BitVec 2) (p : PhaseCode) (s : State) : (s.accept op p).root = s.root := rfl
@[simp] theorem State.accept_code (op : BitVec 2) (p : PhaseCode) (s : State) : (s.accept op p).code = s.code := rfl
@[simp] theorem State.accept_cur (op : BitVec 2) (p : PhaseCode) (s : State) : (s.accept op p).cur = s.cur := rfl
@[simp] theorem State.accept_pq (op : BitVec 2) (p : PhaseCode) (s : State) : (s.accept op p).pq = s.pq := rfl
@[simp] theorem State.accept_walkStack (op : BitVec 2) (p : PhaseCode) (s : State) : (s.accept op p).walkStack = s.walkStack := rfl
@[simp] theorem State.accept_input (op : BitVec 2) (p : PhaseCode) (s : State) : (s.accept op p).input = s.input := rfl
@[simp] theorem State.accept_inPos (op : BitVec 2) (p : PhaseCode) (s : State) : (s.accept op p).inPos = s.inPos := rfl
@[simp] theorem State.accept_rewindable (op : BitVec 2) (p : PhaseCode) (s : State) : (s.accept op p).rewindable = s.rewindable := rfl
@[simp] theorem State.accept_output (op : BitVec 2) (p : PhaseCode) (s : State) : (s.accept op p).output = s.output := rfl
@[simp] theorem State.accept_outClosed (op : BitVec 2) (p : PhaseCode) (s : State) : (s.accept op p).outClosed = s.outClosed := rfl
@[simp] theorem State.accept_host (op : BitVec 2) (p : PhaseCode) (s : State) : (s.accept op p).host = s.host := rfl
@[simp] theorem State.accept_readData (op : BitVec 2) (p : PhaseCode) (s : State) : (s.accept op p).readData = s.readData := rfl
@[simp] theorem State.accept_taken (op : BitVec 2) (p : PhaseCode) (s : State) : (s.accept op p).taken = s.taken := rfl

@[simp] theorem State.complete_busy (s : State) : (s.complete).busy = false := rfl
@[simp] theorem State.complete_done (s : State) : (s.complete).done = true := rfl
@[simp] theorem State.complete_err (s : State) : (s.complete).err = false := rfl
@[simp] theorem State.complete_errCode (s : State) : (s.complete).errCode = 0 := rfl
@[simp] theorem State.complete_phase (s : State) : (s.complete).phase = phaseIdle := rfl
@[simp] theorem State.complete_op (s : State) : (s.complete).op = s.op := rfl
@[simp] theorem State.complete_counts (s : State) : (s.complete).counts = s.counts := rfl
@[simp] theorem State.complete_total (s : State) : (s.complete).total = s.total := rfl
@[simp] theorem State.complete_arena (s : State) : (s.complete).arena = s.arena := rfl
@[simp] theorem State.complete_nalloc (s : State) : (s.complete).nalloc = s.nalloc := rfl
@[simp] theorem State.complete_root (s : State) : (s.complete).root = s.root := rfl
@[simp] theorem State.complete_code (s : State) : (s.complete).code = s.code := rfl
@[simp] theorem State.complete_cur (s : State) : (s.complete).cur = s.cur := rfl
@[simp] theorem State.complete_pq (s : State) : (s.complete).pq = s.pq := rfl
@[simp] theorem State.complete_walkStack (s : State) : (s.complete).walkStack = s.walkStack := rfl
@[simp] theorem State.complete_input (s : State) : (s.complete).input = s.input := rfl
@[simp] theorem State.complete_inPos (s : State) : (s.complete).inPos = s.inPos := rfl
@[simp] theorem State.complete_rewindable (s : State) : (s.complete).rewindable = s.rewindable := rfl
@[simp] theorem State.complete_output (s : State) : (s.complete).output = s.output := rfl
@[simp] theorem State.complete_outClosed (s : State) : (s.complete).outClosed = s.outClosed := rfl
@[simp] theorem State.complete_host (s : State) : (s.complete).host = s.host := rfl
@[simp] theorem State.complete_readData (s : State) : (s.complete).readData = s.readData := rfl
@[simp] theorem State.complete_taken (s : State) : (s.complete).taken = s.taken := rfl

@[simp] theorem State.codecReset_busy (s : State) : (s.codecReset).busy = State.reset.busy := rfl
@[simp] theorem State.codecReset_done (s : State) : (s.codecReset).done = State.reset.done := rfl
@[simp] theorem State.codecReset_err (s : State) : (s.codecReset).err = State.reset.err := rfl
@[simp] theorem State.codecReset_errCode (s : State) : (s.codecReset).errCode = State.reset.errCode := rfl
@[simp] theorem State.codecReset_phase (s : State) : (s.codecReset).phase = State.reset.phase := rfl
@[simp] theorem State.codecReset_op (s : State) : (s.codecReset).op = State.reset.op := rfl
@[simp] theorem State.codecReset_counts (s : State) : (s.codecReset).counts = State.reset.counts := rfl
@[simp] theorem State.codecReset_total (s : State) : (s.codecReset).total = State.reset.total := rfl
@[simp] theorem State.codecReset_arena (s : State) : (s.codecReset).arena = State.reset.arena := rfl
@[simp] theorem State.codecReset_nalloc (s : State) : (s.codecReset).nalloc = State.reset.nalloc := rfl
@[simp] theorem State.codecReset_root (s : State) : (s.codecReset).root = State.reset.root := rfl
@[simp] theorem State.codecReset_code (s : State) : (s.codecReset).code = State.reset.code := rfl
@[simp] theorem State.codecReset_cur (s : State) : (s.codecReset).cur = State.reset.cur := rfl
@[simp] theorem State.codecReset_pq (s : State) : (s.codecReset).pq = State.reset.pq := rfl
@[simp] theorem State.codecReset_walkStack (s : State) : (s.codecReset).walkStack = State.reset.walkStack := rfl
@[simp] theorem State.codecReset_input (s : State) : (s.codecReset).input = s.input := rfl
@[simp] theorem State.codecReset_inPos (s : State) : (s.codecReset).inPos = s.inPos := rfl
@[simp] theorem State.codecReset_rewindable (s : State) : (s.codecReset).rewindable = s.rewindable := rfl
@[simp] theorem State.codecReset_output (s : State) : (s.codecReset).output = s.output := rfl
@[simp] theorem State.codecReset_outClosed (s : State) : (s.codecReset).outClosed = s.outClosed := rfl
@[simp] theorem State.codecReset_host (s : State) : (s.codecReset).host = s.host := rfl
@[simp] theorem State.codecReset_readData (s : State) : (s.codecReset).readData = s.readData := rfl
@[simp] theorem State.codecReset_taken (s : State) : (s.codecReset).taken = s.taken := rfl

@[simp] theorem State.clearCounts_busy (s : State) : (s.clearCounts).busy = s.busy := rfl
@[simp] theorem State.clearCounts_done (s : State) : (s.clearCounts).done = s.done := rfl
@[simp] theorem State.clearCounts_err (s : State) : (s.clearCounts).err = s.err := rfl
@[simp] theorem State.clearCounts_errCode (s : State) : (s.clearCounts).errCode = s.errCode := rfl
@[simp] theorem State.clearCounts_phase (s : State) : (s.clearCounts).phase = s.phase := rfl
@[simp] theorem State.clearCounts_op (s : State) : (s.clearCounts).op = s.op := rfl
@[simp] theorem State.clearCounts_counts (s : State) : (s.clearCounts).counts = (Vector.replicate Config.symbolCount 0).set sentinel.val 1 sentinel.isLt := rfl
@[simp] theorem State.clearCounts_total (s : State) : (s.clearCounts).total = 1 := rfl
@[simp] theorem State.clearCounts_arena (s : State) : (s.clearCounts).arena = s.arena := rfl
@[simp] theorem State.clearCounts_nalloc (s : State) : (s.clearCounts).nalloc = s.nalloc := rfl
@[simp] theorem State.clearCounts_root (s : State) : (s.clearCounts).root = s.root := rfl
@[simp] theorem State.clearCounts_code (s : State) : (s.clearCounts).code = s.code := rfl
@[simp] theorem State.clearCounts_cur (s : State) : (s.clearCounts).cur = s.cur := rfl
@[simp] theorem State.clearCounts_pq (s : State) : (s.clearCounts).pq = s.pq := rfl
@[simp] theorem State.clearCounts_walkStack (s : State) : (s.clearCounts).walkStack = s.walkStack := rfl
@[simp] theorem State.clearCounts_input (s : State) : (s.clearCounts).input = s.input := rfl
@[simp] theorem State.clearCounts_inPos (s : State) : (s.clearCounts).inPos = s.inPos := rfl
@[simp] theorem State.clearCounts_rewindable (s : State) : (s.clearCounts).rewindable = s.rewindable := rfl
@[simp] theorem State.clearCounts_output (s : State) : (s.clearCounts).output = s.output := rfl
@[simp] theorem State.clearCounts_outClosed (s : State) : (s.clearCounts).outClosed = s.outClosed := rfl
@[simp] theorem State.clearCounts_host (s : State) : (s.clearCounts).host = s.host := rfl
@[simp] theorem State.clearCounts_readData (s : State) : (s.clearCounts).readData = s.readData := rfl
@[simp] theorem State.clearCounts_taken (s : State) : (s.clearCounts).taken = s.taken := rfl

@[simp] theorem State.allocate_busy (s : State) : (s.allocate).busy = s.busy := rfl
@[simp] theorem State.allocate_done (s : State) : (s.allocate).done = s.done := rfl
@[simp] theorem State.allocate_err (s : State) : (s.allocate).err = s.err := rfl
@[simp] theorem State.allocate_errCode (s : State) : (s.allocate).errCode = s.errCode := rfl
@[simp] theorem State.allocate_phase (s : State) : (s.allocate).phase = s.phase := rfl
@[simp] theorem State.allocate_op (s : State) : (s.allocate).op = s.op := rfl
@[simp] theorem State.allocate_counts (s : State) : (s.allocate).counts = s.counts := rfl
@[simp] theorem State.allocate_total (s : State) : (s.allocate).total = s.total := rfl
@[simp] theorem State.allocate_arena (s : State) : (s.allocate).arena = s.arena := rfl
@[simp] theorem State.allocate_nalloc (s : State) : (s.allocate).nalloc = s.nalloc + 1 := rfl
@[simp] theorem State.allocate_root (s : State) : (s.allocate).root = s.root := rfl
@[simp] theorem State.allocate_code (s : State) : (s.allocate).code = s.code := rfl
@[simp] theorem State.allocate_cur (s : State) : (s.allocate).cur = s.cur := rfl
@[simp] theorem State.allocate_pq (s : State) : (s.allocate).pq = s.pq := rfl
@[simp] theorem State.allocate_walkStack (s : State) : (s.allocate).walkStack = s.walkStack := rfl
@[simp] theorem State.allocate_input (s : State) : (s.allocate).input = s.input := rfl
@[simp] theorem State.allocate_inPos (s : State) : (s.allocate).inPos = s.inPos := rfl
@[simp] theorem State.allocate_rewindable (s : State) : (s.allocate).rewindable = s.rewindable := rfl
@[simp] theorem State.allocate_output (s : State) : (s.allocate).output = s.output := rfl
@[simp] theorem State.allocate_outClosed (s : State) : (s.allocate).outClosed = s.outClosed := rfl
@[simp] theorem State.allocate_host (s : State) : (s.allocate).host = s.host := rfl
@[simp] theorem State.allocate_readData (s : State) : (s.allocate).readData = s.readData := rfl
@[simp] theorem State.allocate_taken (s : State) : (s.allocate).taken = s.taken := rfl

@[simp] theorem State.openInternal_busy (s : State) : (s.openInternal).busy = s.busy := rfl
@[simp] theorem State.openInternal_done (s : State) : (s.openInternal).done = s.done := rfl
@[simp] theorem State.openInternal_err (s : State) : (s.openInternal).err = s.err := rfl
@[simp] theorem State.openInternal_errCode (s : State) : (s.openInternal).errCode = s.errCode := rfl
@[simp] theorem State.openInternal_phase (s : State) : (s.openInternal).phase = s.phase := rfl
@[simp] theorem State.openInternal_op (s : State) : (s.openInternal).op = s.op := rfl
@[simp] theorem State.openInternal_counts (s : State) : (s.openInternal).counts = s.counts := rfl
@[simp] theorem State.openInternal_total (s : State) : (s.openInternal).total = s.total := rfl
@[simp] theorem State.openInternal_arena (s : State) : (s.openInternal).arena = s.arena := rfl
@[simp] theorem State.openInternal_nalloc (s : State) : (s.openInternal).nalloc = s.nalloc + 1 := rfl
@[simp] theorem State.openInternal_root (s : State) : (s.openInternal).root = s.root := rfl
@[simp] theorem State.openInternal_code (s : State) : (s.openInternal).code = s.code := rfl
@[simp] theorem State.openInternal_cur (s : State) : (s.openInternal).cur = s.cur := rfl
@[simp] theorem State.openInternal_pq (s : State) : (s.openInternal).pq = s.pq := rfl
@[simp] theorem State.openInternal_walkStack (s : State) : (s.openInternal).walkStack = { node := s.nextHandle, left := none } :: s.walkStack := rfl
@[simp] theorem State.openInternal_input (s : State) : (s.openInternal).input = s.input := rfl
@[simp] theorem State.openInternal_inPos (s : State) : (s.openInternal).inPos = s.inPos := rfl
@[simp] theorem State.openInternal_rewindable (s : State) : (s.openInternal).rewindable = s.rewindable := rfl
@[simp] theorem State.openInternal_output (s : State) : (s.openInternal).output = s.output := rfl
@[simp] theorem State.openInternal_outClosed (s : State) : (s.openInternal).outClosed = s.outClosed := rfl
@[simp] theorem State.openInternal_host (s : State) : (s.openInternal).host = s.host := rfl
@[simp] theorem State.openInternal_readData (s : State) : (s.openInternal).readData = s.readData := rfl
@[simp] theorem State.openInternal_taken (s : State) : (s.openInternal).taken = s.taken := rfl

@[simp] theorem State.readBits_busy (n : Nat) (s : State) : (s.readBits n).2.busy = s.busy := by unfold State.readBits; split <;> rfl
@[simp] theorem State.readBits_done (n : Nat) (s : State) : (s.readBits n).2.done = s.done := by unfold State.readBits; split <;> rfl
@[simp] theorem State.readBits_err (n : Nat) (s : State) : (s.readBits n).2.err = s.err := by unfold State.readBits; split <;> rfl
@[simp] theorem State.readBits_errCode (n : Nat) (s : State) : (s.readBits n).2.errCode = s.errCode := by unfold State.readBits; split <;> rfl
@[simp] theorem State.readBits_phase (n : Nat) (s : State) : (s.readBits n).2.phase = s.phase := by unfold State.readBits; split <;> rfl
@[simp] theorem State.readBits_op (n : Nat) (s : State) : (s.readBits n).2.op = s.op := by unfold State.readBits; split <;> rfl
@[simp] theorem State.readBits_counts (n : Nat) (s : State) : (s.readBits n).2.counts = s.counts := by unfold State.readBits; split <;> rfl
@[simp] theorem State.readBits_total (n : Nat) (s : State) : (s.readBits n).2.total = s.total := by unfold State.readBits; split <;> rfl
@[simp] theorem State.readBits_arena (n : Nat) (s : State) : (s.readBits n).2.arena = s.arena := by unfold State.readBits; split <;> rfl
@[simp] theorem State.readBits_nalloc (n : Nat) (s : State) : (s.readBits n).2.nalloc = s.nalloc := by unfold State.readBits; split <;> rfl
@[simp] theorem State.readBits_root (n : Nat) (s : State) : (s.readBits n).2.root = s.root := by unfold State.readBits; split <;> rfl
@[simp] theorem State.readBits_code (n : Nat) (s : State) : (s.readBits n).2.code = s.code := by unfold State.readBits; split <;> rfl
@[simp] theorem State.readBits_cur (n : Nat) (s : State) : (s.readBits n).2.cur = s.cur := by unfold State.readBits; split <;> rfl
@[simp] theorem State.readBits_pq (n : Nat) (s : State) : (s.readBits n).2.pq = s.pq := by unfold State.readBits; split <;> rfl
@[simp] theorem State.readBits_walkStack (n : Nat) (s : State) : (s.readBits n).2.walkStack = s.walkStack := by unfold State.readBits; split <;> rfl
@[simp] theorem State.readBits_input (n : Nat) (s : State) : (s.readBits n).2.input = s.input := by unfold State.readBits; split <;> rfl
theorem State.readBits_inPos (n : Nat) (s : State) :
    (s.readBits n).2.inPos = if s.inPos + n ≤ s.input.length then s.inPos + n else s.input.length := by
  unfold State.readBits; split <;> rfl
@[simp] theorem State.readBits_rewindable (n : Nat) (s : State) : (s.readBits n).2.rewindable = s.rewindable := by unfold State.readBits; split <;> rfl
@[simp] theorem State.readBits_output (n : Nat) (s : State) : (s.readBits n).2.output = s.output := by unfold State.readBits; split <;> rfl
@[simp] theorem State.readBits_outClosed (n : Nat) (s : State) : (s.readBits n).2.outClosed = s.outClosed := by unfold State.readBits; split <;> rfl
@[simp] theorem State.readBits_host (n : Nat) (s : State) : (s.readBits n).2.host = s.host := by unfold State.readBits; split <;> rfl
@[simp] theorem State.readBits_readData (n : Nat) (s : State) : (s.readBits n).2.readData = s.readData := by unfold State.readBits; split <;> rfl
@[simp] theorem State.readBits_taken (n : Nat) (s : State) : (s.readBits n).2.taken = s.taken := by unfold State.readBits; split <;> rfl

end Sys2Proof.Machine
end

