-- ==== Sys2Proof/Laws/Arena.lean ====
section
/-! SUPPORT. Reads after writes in the arena, the frequency table and the code table. -/

namespace Sys2Proof

namespace Machine

theorem nodeAt_eq (a : Arena) (h : Handle) : nodeAt a h = a[h.toNat]'h.isLt := rfl

@[simp] theorem nodeAt_set_self (a : Arena) (h : Handle) (n : Node) : nodeAt (a.set h.toNat n h.isLt) h = n := by
  simp [nodeAt_eq]

theorem nodeAt_set_ne {a : Arena} {h g : Handle} {n : Node} (hg : g ≠ h) :
    nodeAt (a.set h.toNat n h.isLt) g = nodeAt a g := by
  have : h.toNat ≠ g.toNat := fun e => hg (BitVec.eq_of_toNat_eq e.symm)
  simp [nodeAt_eq, Vector.getElem_set_ne, this]

@[simp] theorem State.node_setNode_self (s : State) (h : Handle) (n : Node) : (s.setNode h n).node h = n :=
  nodeAt_set_self _ _ _

theorem State.node_setNode_ne {s : State} {h g : Handle} {n : Node} (hg : g ≠ h) : (s.setNode h n).node g = s.node g :=
  nodeAt_set_ne hg

theorem State.node_congr {s t : State} (h : t.arena = s.arena) (g : Handle) : t.node g = s.node g := by
  simp [State.node, h]

@[simp] theorem State.count_setCount_self (s : State) (x : Symbol) (w : Word) : (s.setCount x w).count x = w := by
  simp [State.count, State.setCount]

theorem State.count_setCount_ne {s : State} {x y : Symbol} {w : Word} (h : y ≠ x) :
    (s.setCount x w).count y = s.count y := by
  have : x.val ≠ y.val := fun e => h (Fin.ext e.symm)
  simp [State.count, State.setCount, Vector.getElem_set_ne, this]

@[simp] theorem State.codeOf_setCode_self (s : State) (x : Symbol) (c : Code) : (s.setCode x c).codeOf x = c := by
  simp [State.codeOf, State.setCode]

theorem State.codeOf_setCode_ne {s : State} {x y : Symbol} {c : Code} (h : y ≠ x) :
    (s.setCode x c).codeOf y = s.codeOf y := by
  have : x.val ≠ y.val := fun e => h (Fin.ext e.symm)
  simp [State.codeOf, State.setCode, Vector.getElem_set_ne, this]

end Machine

open Machine

/-- A tree stays in an arena whose nodes below a bound on the tree's handles are kept. -/
theorem HoldsTree.mono {a b : Arena} {P : Handle → Prop} (hab : ∀ h, P h → nodeAt b h = nodeAt a h)
    (hP : ∀ h, P h → (nodeAt a h).leaf = false → P (nodeAt a h).left ∧ P (nodeAt a h).right) :
    ∀ {T : CodeTree} {h : Handle}, P h → HoldsTree a T h → HoldsTree b T h := by
  intro T
  induction T with
  | leaf v => intro h hh ht; simpa [HoldsTree, hab h hh] using ht
  | node l r ihl ihr =>
    intro h hh ht
    obtain ⟨h0, hl, hr⟩ := ht
    obtain ⟨pl, pr⟩ := hP h hh h0
    simp only [HoldsTree, hab h hh]
    exact ⟨h0, ihl pl hl, ihr pr hr⟩

/-- A handle holds at most one tree. -/
theorem HoldsTree.unique {a : Arena} : ∀ {T U : CodeTree} {h : Handle}, HoldsTree a T h → HoldsTree a U h → T = U := by
  intro T
  induction T with
  | leaf v =>
    intro U h ht hu
    cases U with
    | leaf w => obtain ⟨_, e⟩ := ht; obtain ⟨_, e'⟩ := hu; rw [← e, ← e']
    | node l r => exact absurd hu.1 (by simp [ht.1])
  | node l r ihl ihr =>
    intro U h ht hu
    cases U with
    | leaf w => exact absurd hu.1 (by simp [ht.1])
    | node l' r' => rw [ihl ht.2.1 hu.2.1, ihr ht.2.2 hu.2.2]

end Sys2Proof
end

