-- ==== Sys2Proof/Laws/Bits.lean ====
section
/-! SUPPORT. Bit strings: lengths, `num` and `bits_N` as inverses, and the packing of bytes. -/

namespace Sys2Proof.Machine

@[simp] theorem length_bitsN (n v : Nat) : (bitsN n v).length = n := by
  induction n with
  | zero => rfl
  | succ n ih => simp [bitsN, ih]

theorem foldl_bits (s : List Bool) : ∀ a : Nat,
    s.foldl (fun v b => 2 * v + b.toNat) a = a * 2 ^ s.length + num s := by
  induction s with
  | nil => intro a; simp [num]
  | cons b s ih =>
    intro a
    have h0 := ih (2 * a + b.toNat)
    have h1 := ih (2 * 0 + b.toNat)
    simp only [num, List.foldl_cons, List.length_cons, pow_succ] at *
    rw [h0, h1]
    ring

@[simp] theorem num_nil : num [] = 0 := rfl

theorem num_cons (b : Bool) (s : List Bool) : num (b :: s) = b.toNat * 2 ^ s.length + num s := by
  have h := foldl_bits s (2 * 0 + b.toNat)
  simpa [num] using h

theorem num_append (s t : List Bool) : num (s ++ t) = num s * 2 ^ t.length + num t := by
  simp only [num, List.foldl_append]
  exact foldl_bits t _

theorem num_lt (s : List Bool) : num s < 2 ^ s.length := by
  induction s with
  | nil => simp
  | cons b s ih =>
    rw [num_cons, List.length_cons, pow_succ]
    cases b <;> simp <;> omega

theorem num_bitsN (n v : Nat) : num (bitsN n v) = v % 2 ^ n := by
  induction n with
  | zero => simp [bitsN, Nat.mod_one]
  | succ n ih =>
    have hb : (v.testBit n).toNat = v / 2 ^ n % 2 := by
      rw [Nat.testBit_eq_decide_div_mod_eq]
      rcases Nat.mod_two_eq_zero_or_one (v / 2 ^ n) with h | h <;> simp [h]
    rw [bitsN, num_cons, ih, length_bitsN, hb, pow_succ, Nat.mod_mul]
    ring

theorem num_bitsN_of_lt {n v : Nat} (h : v < 2 ^ n) : num (bitsN n v) = v := by
  rw [num_bitsN, Nat.mod_eq_of_lt h]

theorem bitsN_congr {n v w : Nat} (h : ∀ i < n, v.testBit i = w.testBit i) : bitsN n v = bitsN n w := by
  induction n with
  | zero => rfl
  | succ n ih =>
    simp only [bitsN]
    rw [h n (Nat.lt_succ_self n), ih (fun i hi => h i (Nat.lt_succ_of_lt hi))]

theorem bitsN_mod (n v : Nat) : bitsN n (v % 2 ^ n) = bitsN n v :=
  bitsN_congr (fun i hi => by rw [Nat.testBit_mod_two_pow]; simp [hi])

theorem bitsN_num (s : List Bool) : bitsN s.length (num s) = s := by
  induction s with
  | nil => rfl
  | cons b s ih =>
    have hl := num_lt s
    have hb : (num (b :: s)).testBit s.length = b := by
      rw [num_cons, Nat.testBit_eq_decide_div_mod_eq]
      have : (b.toNat * 2 ^ s.length + num s) / 2 ^ s.length = b.toNat := by
        rw [Nat.add_comm, Nat.add_mul_div_right _ _ (Nat.two_pow_pos _), Nat.div_eq_of_lt hl, Nat.zero_add]
      rw [this]
      cases b <;> simp
    have hr : bitsN s.length (num (b :: s)) = bitsN s.length (num s) := by
      rw [← bitsN_mod s.length (num (b :: s)), num_cons, Nat.add_comm, Nat.add_mul_mod_self_right, bitsN_mod]
    rw [List.length_cons, bitsN, hb, hr, ih]

theorem bitsN_inj {n v w : Nat} (hv : v < 2 ^ n) (hw : w < 2 ^ n) (h : bitsN n v = bitsN n w) : v = w := by
  rw [← num_bitsN_of_lt hv, ← num_bitsN_of_lt hw, h]

@[simp] theorem length_bitsOfBytes (l : List Byte) : (bitsOfBytes l).length = 8 * l.length := by
  induction l with
  | nil => rfl
  | cons b l ih => simp [bitsOfBytes, ih]; omega

theorem bytesOf_bits_append (b : Byte) (rest : List Bool) :
    bytesOf (bitsN 8 b.toNat ++ rest) = b :: bytesOf rest := by
  have h : num (bitsN 8 b.toNat) = b.toNat := num_bitsN_of_lt b.isLt
  simp only [bitsN, List.cons_append, List.nil_append, bytesOf] at *
  rw [h]
  simp

@[simp] theorem bytesOf_bitsOfBytes (l : List Byte) : bytesOf (bitsOfBytes l) = l := by
  induction l with
  | nil => rfl
  | cons b l ih => rw [bitsOfBytes, bytesOf_bits_append, ih]

/-- A bit string of at least 8 bits is a byte and the rest. -/
theorem exists_byte_append {s : List Bool} (h : 8 ≤ s.length) :
    s = bitsN 8 (num (s.take 8)) ++ s.drop 8 := by
  have hl : (s.take 8).length = 8 := by simp [h]
  have := bitsN_num (s.take 8)
  rw [hl] at this
  rw [this, List.take_append_drop]

theorem bytesOf_of_short {s : List Bool} (h : s.length < 8) : bytesOf s = [] := by
  match s, h with
  | [], _ => rfl
  | [_], _ => rfl
  | [_, _], _ => rfl
  | [_, _, _], _ => rfl
  | [_, _, _, _], _ => rfl
  | [_, _, _, _, _], _ => rfl
  | [_, _, _, _, _, _], _ => rfl
  | [_, _, _, _, _, _, _], _ => rfl
  | _ :: _ :: _ :: _ :: _ :: _ :: _ :: _ :: _, h => simp at h; omega

theorem bytesOf_of_long {s : List Bool} (h : 8 ≤ s.length) :
    bytesOf s = BitVec.ofNat 8 (num (s.take 8)) :: bytesOf (s.drop 8) := by
  have hn : num (s.take 8) < 2 ^ 8 := by
    have := num_lt (s.take 8)
    simpa [h] using this
  have := bytesOf_bits_append (BitVec.ofNat 8 (num (s.take 8))) (s.drop 8)
  rw [BitVec.toNat_ofNat, Nat.mod_eq_of_lt hn, ← exists_byte_append h] at this
  exact this

theorem length_bytesOf (s : List Bool) : (bytesOf s).length = s.length / 8 := by
  induction hn : s.length using Nat.strong_induction_on generalizing s with
  | _ n ih =>
    by_cases h : 8 ≤ s.length
    · rw [bytesOf_of_long h, List.length_cons, ih (s.drop 8).length (by simp; omega) _ rfl]
      simp
      omega
    · rw [bytesOf_of_short (by omega)]
      simp
      omega

theorem bitsOfBytes_bytesOf {s : List Bool} (h : s.length % 8 = 0) : bitsOfBytes (bytesOf s) = s := by
  induction hn : s.length using Nat.strong_induction_on generalizing s with
  | _ n ih =>
    by_cases h8 : 8 ≤ s.length
    · have hlt : num (s.take 8) < 2 ^ 8 := by
        have := num_lt (s.take 8)
        simpa [h8] using this
      rw [bytesOf_of_long h8, bitsOfBytes, ih (s.drop 8).length (by simp; omega) (by simp; omega) rfl,
        BitVec.toNat_ofNat, Nat.mod_eq_of_lt hlt]
      exact (exists_byte_append h8).symm
    · have : s = [] := List.length_eq_zero_iff.mp (by omega)
      subst this
      rfl

theorem bytesOf_append {s t : List Bool} (h : s.length % 8 = 0) : bytesOf (s ++ t) = bytesOf s ++ bytesOf t := by
  induction hn : s.length using Nat.strong_induction_on generalizing s with
  | _ n ih =>
    by_cases h8 : 8 ≤ s.length
    · rw [bytesOf_of_long h8, bytesOf_of_long (by simp; omega), List.take_append_of_le_length h8,
        List.drop_append_of_le_length h8, ih (s.drop 8).length (by simp; omega) (by simp; omega) rfl]
      rfl
    · have : s = [] := List.length_eq_zero_iff.mp (by omega)
      subst this
      rfl

end Sys2Proof.Machine
end

