-- ==== Sys2Proof/Laws/Constants.lean ====
section
/-! SUPPORT. The named constants as numerals, and the ranges of the types made of them, so that no
later proof unfolds a constant. -/

namespace Sys2Proof

theorem Config.alphabetSize_eq : Config.alphabetSize = 256 := rfl
theorem Config.symbolCount_eq : Config.symbolCount = 257 := rfl
theorem Config.unitBits_eq : Config.unitBits = 8 := rfl
theorem Config.valueBits_eq : Config.valueBits = 9 := rfl
theorem Config.magicBits_eq : Config.magicBits = 32 := rfl
theorem Config.maxCodeBits_eq : Config.maxCodeBits = 256 := rfl
theorem Config.codeLenBits_eq : Config.codeLenBits = 9 := rfl
theorem Config.magic_eq : Config.magic = 0xFACE8201 := rfl

namespace Machine

/-- A symbol is 0 to 256 (00_scope.md R8). -/
theorem symbol_lt (x : Symbol) : x.val < 257 := x.isLt

/-- A leaf's value is 0 to 511 (00_scope.md R10). -/
theorem leafValue_lt (v : LeafValue) : v.toNat < 512 := v.isLt

/-- A unit of the input is 0 to 255 (00_scope.md R9). -/
theorem inputUnit_lt (b : InputUnit) : b.toNat < 256 := b.isLt

@[simp] theorem symbolOfByte_val (b : InputUnit) : (symbolOfByte b).val = b.toNat := rfl

/-- A symbol that is no sentinel is the symbol of a unit. -/
theorem symbolOfByte_ofNat {x : Symbol} (h : x.val < 256) : symbolOfByte (BitVec.ofNat Config.unitBits x.val) = x :=
  Fin.ext (Nat.mod_eq_of_lt h)

@[simp] theorem sentinel_val : sentinel.val = 256 := rfl
@[simp] theorem sentinelValue_toNat : sentinelValue.toNat = 256 := rfl

/-- A symbol's leaf value is the symbol. -/
@[simp] theorem valueOfSymbol_toNat (x : Symbol) : (valueOfSymbol x).toNat = x.val :=
  Nat.mod_eq_of_lt (Nat.lt_trans (symbol_lt x) (by decide : 257 < 2 ^ Config.valueBits))

theorem valueOfSymbol_injective : Function.Injective valueOfSymbol := fun x y h =>
  Fin.ext (by rw [← valueOfSymbol_toNat x, h, valueOfSymbol_toNat])

end Machine

/-- `BuiltArena` at one handle, in numerals. -/
theorem BuiltArena.at_handle {arena : Machine.Arena} (b : BuiltArena arena) (h : Handle) :
    (h.toNat < 257 → (Machine.nodeAt arena h).leaf = true ∧ (Machine.nodeAt arena h).value.toNat = h.toNat) ∧
    (257 ≤ h.toNat → h.toNat < 513 →
      (Machine.nodeAt arena h).leaf = false ∧ (Machine.nodeAt arena h).left.toNat < h.toNat ∧
        (Machine.nodeAt arena h).right.toNat < h.toNat) := b h

theorem symbolValues_length : symbolValues.length = 257 := by
  rw [symbolValues, List.length_map, List.length_finRange]

theorem symbolValues_nodup : symbolValues.Nodup :=
  (List.nodup_finRange _).map Machine.valueOfSymbol_injective

/-- The leaf values of symbols are 0 to 256. -/
theorem mem_symbolValues {v : LeafValue} : v ∈ symbolValues ↔ v.toNat < 257 := by
  simp only [symbolValues, List.mem_map, List.mem_finRange, true_and]
  constructor
  · rintro ⟨x, rfl⟩
    rw [Machine.valueOfSymbol_toNat]
    exact Machine.symbol_lt x
  · intro h
    exact ⟨⟨v.toNat, h⟩, BitVec.eq_of_toNat_eq (Machine.valueOfSymbol_toNat _)⟩

end Sys2Proof
end

