-- ==== Sys2Proof/Laws/Nodes.lean ====
section
/-! SUPPORT. Everything that returning a node from `deser()`, taking a handle, and the two tree records can do. -/

namespace Sys2Proof.Machine

theorem State.nextHandle_eq (s : State) : s.nextHandle = BitVec.ofNat 10 s.nalloc.toNat := by
  apply BitVec.eq_of_toNat_eq
  simp [State.nextHandle]

/-- Taking a handle counts it, where one is free. -/
theorem State.allocate_nalloc_toNat {s : State} (h : s.nalloc.toNat < 1024) :
    s.allocate.nalloc.toNat = s.nalloc.toNat + 1 := by
  simp
  omega

/-- What returning a node writes: arena entries and the walk stack, and, when the last open node is filled, ROOT and the
next phase. -/
theorem returnNode_cases (frames : List Frame) (h : Handle) (s : State) :
    (∃ arena f rest, returnNode h frames s = { s with arena := arena, walkStack := f :: rest }) ∨
      ∃ arena root, returnNode h frames s = { s with arena := arena, walkStack := [], root := root, phase := phaseDecode } := by
  induction frames generalizing h s with
  | nil => exact Or.inr ⟨s.arena, h, rfl⟩
  | cons f rest ih =>
    obtain ⟨n, _ | l⟩ := f
    · exact Or.inl ⟨s.arena, _, _, rfl⟩
    · obtain ⟨a, f, r, e⟩ | ⟨a, r, e⟩ :=
        ih n (s.setNode n { leaf := false, value := 0, weight := 0, left := l, right := h })
      · exact Or.inl ⟨a, f, r, by rw [returnNode, e]; rfl⟩
      · exact Or.inr ⟨a, r, by rw [returnNode, e]; rfl⟩

/-- Returning a node takes no bit. -/
theorem returnNode_rest (frames : List Frame) (h : Handle) (s : State) : (returnNode h frames s).rest = s.rest := by
  obtain ⟨_, _, _, e⟩ | ⟨_, _, e⟩ := returnNode_cases frames h s <;> rw [e] <;> rfl

/-- Returning a node takes no handle. -/
theorem returnNode_nalloc (frames : List Frame) (h : Handle) (s : State) : (returnNode h frames s).nalloc = s.nalloc := by
  obtain ⟨_, _, _, e⟩ | ⟨_, _, e⟩ := returnNode_cases frames h s <;> rw [e]

/-- Returning a node writes only the open nodes. -/
theorem returnNode_node_of_ne {frames : List Frame} {g : Handle} (hg : ∀ f ∈ frames, f.node ≠ g) (h : Handle) (s : State) :
    (returnNode h frames s).node g = s.node g := by
  induction frames generalizing h s with
  | nil => rfl
  | cons f rest ih =>
    obtain ⟨n, _ | l⟩ := f
    · rfl
    · rw [returnNode, ih (fun f hf => hg f (List.mem_cons_of_mem _ hf)),
        State.node_setNode_ne (fun e => hg _ (List.mem_cons_self ..) e.symm)]

end Sys2Proof.Machine
end

