-- ==== Sys2Proof/Laws/PerInstr.lean ====
section
/-! SUPPORT. For each instruction: its word is one that its encoding space holds; and what reading a tree record can
answer. -/

namespace Sys2Proof

/-- A LEAF record is read with its value, whatever follows. -/
theorem decodeRecord_leaf (v : LeafValue) (more : List Bool) :
    decodeRecord (true :: (Machine.bitsN Config.valueBits v.toNat ++ more)) = .ok (.leaf v, more) := by
  have h : Machine.num (Machine.bitsN Config.valueBits v.toNat) = v.toNat := Machine.num_bitsN_of_lt v.isLt
  have n : (Machine.bitsN Config.valueBits v.toNat).length = Config.valueBits := Machine.length_bitsN ..
  simp only [decodeRecord, List.length_append, n, Nat.le_add_right, if_true]
  rw [List.take_left' n, List.drop_left' n, h, BitVec.ofNat_toNat, BitVec.setWidth_eq]

/-- A LEAF record whose value is cut short is none. -/
theorem decodeRecord_short {rest : List Bool} (h : rest.length < Config.valueBits) :
    decodeRecord (true :: rest) = .error .truncatedRecord := by
  simp only [decodeRecord, if_neg (Nat.not_le.mpr h)]

/-- What a record that is read can be: its bits are those of its instruction, and the rest follows. -/
theorem decodeRecord_cases {bits more : List Bool} {i : Instr} (h : decodeRecord bits = .ok (i, more)) :
    (i = .internal ∧ bits = false :: more) ∨
      ∃ v : LeafValue, i = .leaf v ∧ bits = true :: (Machine.bitsN Config.valueBits v.toNat ++ more) := by
  match bits, h with
  | false :: _, h => cases h; exact .inl ⟨rfl, rfl⟩
  | true :: rest, h =>
    by_cases hl : Config.valueBits ≤ rest.length
    · simp only [decodeRecord, if_pos hl, Except.ok.injEq, Prod.mk.injEq] at h
      obtain ⟨rfl, rfl⟩ := h
      have n : (rest.take Config.valueBits).length = Config.valueBits := List.length_take_of_le hl
      have hn := Machine.num_lt (rest.take Config.valueBits)
      have hb := Machine.bitsN_num (rest.take Config.valueBits)
      rw [n] at hn hb
      refine .inr ⟨_, rfl, ?_⟩
      rw [BitVec.toNat_ofNat, Nat.mod_eq_of_lt hn, hb, List.take_append_drop]
    · rw [decodeRecord_short (Nat.not_le.mp hl)] at h; cases h

namespace Laws.EncodeWf

/-- The word of an instruction is well formed. -/
def Statement (i : Instr) : Prop := (Sys2Proof.encode i).wf = true

theorem compress : Statement .compress := rfl
theorem decompress : Statement .decompress := rfl
theorem idle : Statement .idle := rfl
theorem count : Statement .count := rfl
theorem build : Statement .build := rfl
theorem gencodes : Statement .gencodes := rfl
theorem writeHeader : Statement .writeHeader := rfl
theorem rewind : Statement .rewind := rfl
theorem encode : Statement .encode := rfl
theorem closeC : Statement .closeC := rfl
theorem readMagic : Statement .readMagic := rfl
theorem deserialize : Statement .deserialize := rfl
theorem decode : Statement .decode := rfl
theorem closeD : Statement .closeD := rfl
theorem internal : Statement .internal := rfl
theorem leaf (v : LeafValue) : Statement (.leaf v) := by simp [Statement, Sys2Proof.encode, CodeWord.wf]

end Laws.EncodeWf

end Sys2Proof
end

