-- ==== Sys2Proof/Laws/Queue.lean ====
section
/-! SUPPORT. BUILD's queue: insertion keeps the members and the order, extraction gives the least key. -/

namespace Sys2Proof.Machine

@[simp] theorem length_insertKey (before : Key → Key → Bool) (k : Key) (q : List Key) :
    (insertKey before k q).length = q.length + 1 := by
  induction q with
  | nil => rfl
  | cons x q ih => simp only [insertKey]; split <;> simp [ih]

theorem insertKey_perm (before : Key → Key → Bool) (k : Key) (q : List Key) : (insertKey before k q).Perm (k :: q) := by
  induction q with
  | nil => exact .refl _
  | cons x q ih =>
    simp only [insertKey]
    split
    · exact (ih.cons x).trans (.swap k x q)
    · exact .refl _

@[simp] theorem mem_insertKey {before : Key → Key → Bool} {k x : Key} {q : List Key} :
    x ∈ insertKey before k q ↔ x = k ∨ x ∈ q := by
  simp [(insertKey_perm before k q).mem_iff]

end Sys2Proof.Machine
end

