-- ==== Sys2Proof/Laws/Streams.lean ====
section
/-! SUPPORT. What the stream primitives do, each said once. -/

namespace Sys2Proof.Machine

theorem State.rest_length (s : State) : s.rest.length = s.input.length - s.inPos := by simp [State.rest]

/-- A read that finds its bits: the number of the next n bits, and the cursor past them. -/
theorem State.readBits_of_le {n : Nat} {s : State} (h : s.inPos + n ≤ s.input.length) :
    s.readBits n = (some (num (s.rest.take n)), { s with inPos := s.inPos + n }) := by
  simp [State.readBits, State.rest, h]

/-- A read past the end: EOD, and the cursor at the end. -/
theorem State.readBits_of_gt {n : Nat} {s : State} (h : s.input.length < s.inPos + n) :
    s.readBits n = (none, { s with inPos := s.input.length }) := by
  simp [State.readBits, Nat.not_le.mpr h]

/-- A read of n bits when the bits left begin with the n bits f. -/
theorem State.readBits_field {s : State} {f more : List Bool} (h : s.rest = f ++ more) (hf : f ≠ []) :
    s.readBits f.length = (some (num f), { s with inPos := s.inPos + f.length }) := by
  have hlen := congrArg List.length h
  rw [State.rest_length, List.length_append] at hlen
  have hpos : 0 < f.length := List.length_pos_iff.mpr hf
  rw [State.readBits_of_le (by omega), h]
  simp

/-- A read of n bits when fewer than n are left. -/
theorem State.readBits_short {n : Nat} {s : State} (h : s.rest.length < n) :
    s.readBits n = (none, { s with inPos := s.input.length }) := by
  rw [State.rest_length] at h
  exact State.readBits_of_gt (by omega)

@[simp] theorem State.rest_withInPos (s : State) (k : Nat) : ({ s with inPos := s.inPos + k } : State).rest = s.rest.drop k := by
  simp [State.rest, List.drop_drop]

theorem State.rest_congr {s t : State} (hi : t.input = s.input) (hp : t.inPos = s.inPos) : t.rest = s.rest := by
  simp [State.rest, hi, hp]

/-- A read of one bit when one is left. -/
theorem State.readBit_cons {s : State} {b : Bool} {more : List Bool} (h : s.rest = b :: more) :
    s.readBits 1 = (some b.toNat, { s with inPos := s.inPos + 1 }) ∧
      ({ s with inPos := s.inPos + 1 } : State).rest = more := by
  constructor
  · have e := State.readBits_field (s := s) (f := [b]) (more := more) (by simpa using h) (by simp)
    simpa [num] using e
  · rw [State.rest_withInPos, h, List.drop_one, List.tail_cons]

/-- A read of one bit when none is left. -/
theorem State.readBit_nil {s : State} (h : s.rest = []) : s.readBits 1 = (none, { s with inPos := s.input.length }) :=
  State.readBits_short (by simp [h])

/-- Everything a read can do: it answers EOD or a number, and moves the cursor. -/
theorem State.readBits_cases (n : Nat) (s : State) :
    (∃ k, s.readBits n = (none, { s with inPos := k })) ∨ ∃ v k, s.readBits n = (some v, { s with inPos := k }) := by
  simp only [State.readBits]
  split
  · exact Or.inr ⟨_, _, rfl⟩
  · exact Or.inl ⟨_, rfl⟩

/-- A read leaves a legal cursor. -/
theorem State.readBits_inPos_le (n : Nat) (s : State) : (s.readBits n).2.inPos ≤ (s.readBits n).2.input.length := by
  simp only [State.readBits]
  split
  · assumption
  · exact Nat.le_refl _

/-- A read that answers a number takes its bits away from what is left; no read adds any. -/
theorem State.readBits_rest_length (n : Nat) (s : State) :
    (s.readBits n).2.rest.length ≤ s.rest.length ∧
      ∀ v, (s.readBits n).1 = some v → (s.readBits n).2.rest.length + n ≤ s.rest.length := by
  simp only [State.readBits]
  split
  · simp [State.rest]
    omega
  · simp [State.rest]

/-- The fewest zero bits that reach a byte boundary. -/
theorem padding_spec (n : Nat) : padding n ≤ 7 ∧ (n + padding n) % 8 = 0 := by
  unfold padding
  omega

theorem padding_eq_zero {n : Nat} (h : n % 8 = 0) : padding n = 0 := by
  unfold padding
  omega

end Sys2Proof.Machine
end

