-- ==== Sys2Proof/Laws/Walks.lean ====
section
/-! SUPPORT. Trees in the arena: a tree that the arena holds nests at most NODE_CAP nodes, so the bounds of `walk` and
`ser` are enough for it; and what the two walks write. -/

namespace Sys2Proof

open Machine

/-- The nodes on the longest path of a tree. -/
def CodeTree.levels : CodeTree → Nat
  | .leaf _ => 1
  | .node l r => 1 + max l.levels r.levels

theorem CodeTree.size_pos (T : CodeTree) : 0 < T.size := by
  cases T <;> simp [CodeTree.size]

@[simp] theorem CodeTree.values_leaf (v : LeafValue) : (CodeTree.leaf v).values = [v] := rfl

@[simp] theorem CodeTree.values_node (l r : CodeTree) : (CodeTree.node l r).values = l.values ++ r.values := by
  simp [CodeTree.values, CodeTree.paths, List.map_map, Function.comp_def]

/-- A strict binary tree has one leaf more than internal nodes. -/
theorem CodeTree.size_eq (T : CodeTree) : T.size + 1 = 2 * T.paths.length := by
  induction T with
  | leaf v => rfl
  | node l r ihl ihr =>
    simp only [CodeTree.size, CodeTree.paths, List.length_append, List.length_map]
    omega

/-- No path is longer than the leaves beside its own. -/
theorem CodeTree.path_length_lt {T : CodeTree} {e : LeafValue × List Bool} (h : e ∈ T.paths) :
    e.2.length + 1 ≤ T.paths.length := by
  induction T generalizing e with
  | leaf v => simp only [CodeTree.paths, List.mem_singleton] at h; subst h; simp [CodeTree.paths]
  | node l r ihl ihr =>
    have hl := l.size_eq
    have hr := r.size_eq
    have := l.size_pos
    have := r.size_pos
    simp only [CodeTree.paths, List.mem_append, List.mem_map, List.length_append, List.length_map] at h ⊢
    obtain ⟨x, hx, rfl⟩ | ⟨x, hx, rfl⟩ := h
    · have := ihl hx
      simp
      omega
    · have := ihr hx
      simp
      omega

/-- The handles along a longest path are distinct: each holds a smaller tree than the one above it. -/
theorem HoldsTree.longest_path {a : Arena} {T : CodeTree} {h : Handle} (ht : HoldsTree a T h) :
    ∃ path : List Handle, path.length = T.levels ∧ path.Nodup ∧ ∀ g ∈ path, ∃ U, HoldsTree a U g ∧ U.size ≤ T.size := by
  induction T generalizing h with
  | leaf v => exact ⟨[h], rfl, by simp, by simpa using ⟨_, ht, Nat.le_refl _⟩⟩
  | node l r ihl ihr =>
    have extend : ∀ U : CodeTree, U.size < (CodeTree.node l r).size →
        (∃ path : List Handle, path.length = U.levels ∧ path.Nodup ∧ ∀ g ∈ path, ∃ V, HoldsTree a V g ∧ V.size ≤ U.size) →
        ∃ path : List Handle, path.length = 1 + U.levels ∧ path.Nodup ∧
          ∀ g ∈ path, ∃ V, HoldsTree a V g ∧ V.size ≤ (CodeTree.node l r).size := by
      rintro U hU ⟨path, h1, h2, h3⟩
      refine ⟨h :: path, by rw [List.length_cons, h1, Nat.add_comm], ?_, ?_⟩
      · refine List.nodup_cons.mpr ⟨fun hm => ?_, h2⟩
        obtain ⟨V, v1, v2⟩ := h3 h hm
        have := v1.unique ht
        subst this
        omega
      · intro g hg
        obtain rfl | hg := List.mem_cons.mp hg
        · exact ⟨_, ht, Nat.le_refl _⟩
        · obtain ⟨V, v1, v2⟩ := h3 g hg
          exact ⟨V, v1, by omega⟩
    have := l.size_pos
    have := r.size_pos
    obtain hm | hm := Nat.le_total l.levels r.levels
    · obtain ⟨path, q⟩ := extend r (by simp only [CodeTree.size]; omega) (ihr ht.2.2)
      exact ⟨path, by rw [q.1, CodeTree.levels, max_eq_right hm], q.2⟩
    · obtain ⟨path, q⟩ := extend l (by simp only [CodeTree.size]; omega) (ihl ht.2.1)
      exact ⟨path, by rw [q.1, CodeTree.levels, max_eq_left hm], q.2⟩

theorem HoldsTree.levels_le {a : Arena} {T : CodeTree} {h : Handle} (ht : HoldsTree a T h) : T.levels ≤ Config.nodeCap := by
  obtain ⟨path, h1, h2, -⟩ := ht.longest_path
  rw [← h1]
  have h3 : (path.map BitVec.toFin).Nodup := h2.map (fun _ _ e => BitVec.eq_of_toFin_eq e)
  simpa using h3.length_le_card

namespace Machine

/-- `ser` appends the records of the tree that its handle holds. -/
theorem ser_holdsTree {T : CodeTree} : ∀ {bound : Nat} {h : Handle} {s : State}, HoldsTree s.arena T h → T.levels ≤ bound →
    ser bound h s = .ok (s.append T.records) := by
  induction T with
  | leaf v =>
    intro bound h s ht hb
    cases bound with
    | zero => simp [CodeTree.levels] at hb
    | succ bound =>
      have e : (s.node h).value = v := ht.2
      rw [ser, if_pos ht.1, e]
      simp [State.writeBits, State.append, CodeTree.records, bitsN, List.append_assoc]
  | node l r ihl ihr =>
    intro bound h s ht hb
    cases bound with
    | zero => simp [CodeTree.levels] at hb
    | succ bound =>
      simp only [CodeTree.levels] at hb
      have h0 : (s.node h).leaf = false := ht.1
      rw [ser, if_neg (by simp [h0]), ihl (s := s.writeBits 1 0) ht.2.1 (by omega)]
      simp only
      rw [ihr (s := (s.writeBits 1 0).append l.records) ht.2.2 (by omega)]
      simp [State.writeBits, State.append, CodeTree.records, bitsN, List.append_assoc]

/-- All that `ser` can write is the output. -/
theorem ser_frame {bound : Nat} {h : Handle} {s t : State} (e : ser bound h s = .ok t) : ∃ output, t = { s with output := output } := by
  induction bound generalizing h s t with
  | zero => simp [ser] at e
  | succ bound ih =>
    rw [ser] at e
    split at e
    · cases e
      exact ⟨_, rfl⟩
    · split at e
      · cases e
      · next u hu =>
        obtain ⟨o, rfl⟩ := ih hu
        obtain ⟨o', rfl⟩ := ih e
        exact ⟨o', rfl⟩

/-- All that `walk` can write is the code table. -/
theorem walk_frame {bound : Nat} {h : Handle} {d p : Nat} {s t : State} (e : walk bound h d p s = .ok t) :
    ∃ code, t = { s with code := code } := by
  induction bound generalizing h d p s t with
  | zero => simp [walk] at e
  | succ bound ih =>
    rw [walk] at e
    split at e
    · unfold setCodeOfLeaf at e
      split at e
      · cases e
        exact ⟨_, rfl⟩
      · cases e
    · split at e
      · cases e
      · next u hu =>
        obtain ⟨c, rfl⟩ := ih hu
        obtain ⟨c', rfl⟩ := ih e
        exact ⟨c', rfl⟩

/-- The entry of a leaf no deeper than 256 reads back as its path. -/
theorem mkCode_path {path : List Bool} (h : path.length ≤ 256) :
    mkCode path.length (num path) = { len := BitVec.ofNat 9 path.length, bits := BitVec.ofNat 256 (num path) } ∧
      bitsN (BitVec.ofNat 9 path.length).toNat (BitVec.ofNat 256 (num path)).toNat = path := by
  have h1 := num_lt path
  have h2 : 2 ^ path.length ≤ 2 ^ 256 := Nat.pow_le_pow_right (by omega) h
  refine ⟨by simp [mkCode, h], ?_⟩
  rw [BitVec.toNat_ofNat, BitVec.toNat_ofNat, Nat.mod_eq_of_lt (by omega), Nat.mod_eq_of_lt (by omega), bitsN_num]

end Machine

end Sys2Proof
end

