-- ==== Sys2Proof/Laws/Shape.lean ====
section
/-! SUPPORT. What each instruction's next state can be, said once: the loops first, then `exec_shape` over all
instructions. -/

namespace Sys2Proof.Machine

/-- COUNT ends in BUILD, or in InputTooLong, with the table, TOTAL and the cursor written. -/
theorem countLoop_shape {bound : Nat} {s t : State} (h : countLoop bound s = .next t) :
    ∃ counts total k, t = ({ s with counts := counts, total := total, inPos := k } : State).setPhase phaseBuild ∨
      t = ({ s with counts := counts, total := total, inPos := k } : State).raise .inputTooLong := by
  induction bound generalizing s with
  | zero => simp [countLoop] at h
  | succ bound ih =>
    rw [countLoop] at h
    obtain ⟨k, e⟩ | ⟨v, k, e⟩ := s.readBits_cases Config.unitBits
    · rw [e] at h
      cases h
      exact ⟨s.counts, s.total, k, Or.inl rfl⟩
    · rw [e] at h
      simp only at h
      split at h
      · cases h
        exact ⟨s.counts, s.total, k, Or.inr rfl⟩
      · obtain ⟨c, w, k', e⟩ := ih h
        exact ⟨c, w, k', e⟩

/-- ENCODE ends in CLOSE_C, with the cursor and the output written. -/
theorem encodeLoop_shape {bound : Nat} {s t : State} (h : encodeLoop bound s = .next t) :
    ∃ output k, t = ({ s with output := output, inPos := k } : State).setPhase phaseCloseC := by
  induction bound generalizing s with
  | zero => simp [encodeLoop] at h
  | succ bound ih =>
    rw [encodeLoop] at h
    obtain ⟨k, e⟩ | ⟨v, k, e⟩ := s.readBits_cases Config.unitBits
    · rw [e] at h
      cases h
      exact ⟨_, k, rfl⟩
    · rw [e] at h
      obtain ⟨o, k', e⟩ := ih h
      exact ⟨o, k', e⟩

/-- DECODE's loop ends in CLOSE_D, or in BadInput, with the cursor, CUR and the output written. -/
theorem decodeLoop_shape {bound : Nat} {s t : State} (h : decodeLoop bound s = .next t) :
    ∃ cur output k, t = ({ s with cur := cur, output := output, inPos := k } : State).setPhase phaseCloseD ∨
      t = ({ s with cur := cur, output := output, inPos := k } : State).raise .badInput := by
  induction bound generalizing s with
  | zero => simp [decodeLoop] at h
  | succ bound ih =>
    rw [decodeLoop] at h
    obtain ⟨k, e⟩ | ⟨v, k, e⟩ := s.readBits_cases 1
    · rw [e] at h
      cases h
      exact ⟨s.cur, s.output, k, Or.inr rfl⟩
    · rw [e] at h
      simp only at h
      split at h
      · split at h
        · cases h
          exact ⟨_, s.output, k, Or.inl rfl⟩
        · obtain ⟨c, o, k', e⟩ := ih h
          exact ⟨c, o, k', e⟩
      · obtain ⟨c, o, k', e⟩ := ih h
        exact ⟨c, o, k', e⟩

/-- DESERIALIZE ends in DECODE with the walk stack empty, or in one of its two errors. -/
theorem recordLoop_shape {bound : Nat} {s t : State} (h : recordLoop bound s = .next t) :
    ∃ arena nalloc k,
      (∃ root, t =
        ({ s with arena := arena, nalloc := nalloc, root := root, walkStack := [], inPos := k } : State).setPhase phaseDecode) ∨
      ∃ frames, t = ({ s with arena := arena, nalloc := nalloc, walkStack := frames, inPos := k } : State).raise .malformedHeader ∨
        t = ({ s with arena := arena, nalloc := nalloc, walkStack := frames, inPos := k } : State).raise .nodeCapacity := by
  induction bound generalizing s with
  | zero => simp [recordLoop] at h
  | succ bound ih =>
    rw [recordLoop] at h
    obtain ⟨k, e⟩ | ⟨v, k, e⟩ := s.readBits_cases 1
    · rw [e] at h
      cases h
      exact ⟨s.arena, s.nalloc, k, Or.inr ⟨s.walkStack, Or.inl rfl⟩⟩
    · rw [e] at h
      simp only at h
      split at h
      · cases h
        exact ⟨s.arena, s.nalloc, k, Or.inr ⟨s.walkStack, Or.inr rfl⟩⟩
      · split at h
        · obtain ⟨a, n, k', e⟩ := ih h
          exact ⟨a, n, k', e⟩
        · obtain ⟨k2, e2⟩ | ⟨v2, k2, e2⟩ := ({ s with inPos := k } : State).readBits_cases Config.valueBits
          · rw [e2] at h
            cases h
            exact ⟨s.arena, _, k2, Or.inr ⟨s.walkStack, Or.inl rfl⟩⟩
          · rw [e2] at h
            simp only at h
            obtain ⟨a, f, r, e3⟩ | ⟨a, r, e3⟩ :=
              returnNode_cases s.walkStack ({ s with inPos := k2 } : State).nextHandle
                (({ s with inPos := k2 } : State).allocate.setNode ({ s with inPos := k2 } : State).nextHandle
                  { leaf := true, value := BitVec.ofNat 9 v2, weight := 0, left := 0, right := 0 })
            · have e4 : ({ s with inPos := k2 } : State).placeLeaf (BitVec.ofNat 9 v2) = _ := e3
              rw [e4, if_neg (by simp)] at h
              obtain ⟨a, n, k', e⟩ := ih h
              exact ⟨a, n, k', e⟩
            · have e4 : ({ s with inPos := k2 } : State).placeLeaf (BitVec.ofNat 9 v2) = _ := e3
              rw [e4, if_pos (by simp)] at h
              cases h
              exact ⟨a, _, k2, Or.inl ⟨r, rfl⟩⟩

/-- Placing the symbols writes the arena and the queue. -/
theorem placeSymbols_shape (before : Key → Key → Bool) (s : State) :
    ∃ arena pq, placeSymbols before s = { s with arena := arena, pq := pq } := by
  have fold : ∀ (l : List Symbol) (s : State), ∃ arena pq, l.foldl (placeSymbol before) s = { s with arena := arena, pq := pq } := by
    intro l
    induction l with
    | nil => exact fun s => ⟨s.arena, s.pq, rfl⟩
    | cons x l ih =>
      intro s
      obtain ⟨a, q, e⟩ := ih (placeSymbol before s x)
      exact ⟨a, q, by rw [List.foldl_cons, e]; rfl⟩
  obtain ⟨a, q, e⟩ := fold (List.finRange Config.symbolCount) { s with pq := [] }
  exact ⟨a, q, e⟩

/-- The merges write the arena, NALLOC and ROOT, empty the queue, and end in GENCODES. -/
theorem mergeLoop_shape (before firstLeft : Key → Key → Bool) (bound k : Nat) (s : State) :
    ∃ arena nalloc root, mergeLoop before firstLeft bound k s =
      { s with arena := arena, nalloc := nalloc, root := root, pq := [], phase := phaseGencodes } := by
  induction bound generalizing k s with
  | zero => exact ⟨s.arena, _, _, rfl⟩
  | succ bound ih =>
    rw [mergeLoop]
    split
    · exact ⟨s.arena, _, _, rfl⟩
    · split
      · exact ⟨s.arena, _, _, rfl⟩
      · obtain ⟨a, n, r, e⟩ := ih (k + 1) (mergeStep before firstLeft k _ _ _ s)
        exact ⟨a, n, r, by rw [e]; rfl⟩

theorem buildWith_shape (before firstLeft : Key → Key → Bool) (s : State) :
    ∃ arena nalloc root, buildWith before firstLeft s =
      { s with arena := arena, nalloc := nalloc, root := root, pq := [], phase := phaseGencodes } := by
  obtain ⟨a, q, e⟩ := placeSymbols_shape before s
  obtain ⟨a', n, r, e'⟩ := mergeLoop_shape before firstLeft (placeSymbols before s).pq.length 0 (placeSymbols before s)
  refine ⟨a', n, r, ?_⟩
  rw [buildWith, e']
  rw [e]

/-- The next states an instruction can answer. -/
def Shape (i : Instr) (s t : State) : Prop :=
  match i with
  | .compress => s.busy = true ∧ t = s ∨ s.busy = false ∧ t = s.accept 1 phaseCount
  | .decompress => s.busy = true ∧ t = s ∨ s.busy = false ∧ t = s.accept 2 phaseReadMagic
  | .idle => t = s
  | .count =>
    ∃ counts total k, t = ({ s with counts := counts, total := total, inPos := k } : State).setPhase phaseBuild ∨
      t = ({ s with counts := counts, total := total, inPos := k } : State).raise .inputTooLong
  | .build =>
    ∃ arena nalloc root, t =
      { s with arena := arena, nalloc := nalloc, root := root, pq := [], phase := phaseGencodes }
  | .gencodes => ∃ code, t = { s with code := code, phase := phaseWriteHeader }
  | .writeHeader => ∃ output, t = { s with output := output, phase := phaseRewind }
  | .rewind => s.rewindable = true ∧ t = { s with inPos := 0, phase := phaseEncode }
  | .encode => ∃ output k, t = ({ s with output := output, inPos := k } : State).setPhase phaseCloseC
  | .closeC => t = s.close.complete
  | .readMagic =>
    ∃ k, t = ({ s with inPos := k } : State).setPhase phaseDeserialize ∨
      t = ({ s with inPos := k } : State).raise .invalidMagicNumber
  | .deserialize =>
    ∃ arena nalloc k,
      (∃ root, t =
        ({ s with arena := arena, nalloc := nalloc, root := root, walkStack := [], inPos := k } : State).setPhase phaseDecode) ∨
      ∃ frames, t = ({ s with arena := arena, nalloc := nalloc, walkStack := frames, inPos := k } : State).raise .malformedHeader ∨
        t = ({ s with arena := arena, nalloc := nalloc, walkStack := frames, inPos := k } : State).raise .nodeCapacity
  | .decode =>
    t = s.raise .degenerateTree ∨
      ∃ cur output k, t = ({ s with cur := cur, output := output, inPos := k } : State).setPhase phaseCloseD ∨
        t = ({ s with cur := cur, output := output, inPos := k } : State).raise .badInput
  | .closeD => t = s.close.complete
  | .internal => t = s.raise .nodeCapacity ∨ t = s.openInternal
  | .leaf _ =>
    t = s.raise .nodeCapacity ∨
      (∃ arena f rest, t = { s.allocate with arena := arena, walkStack := f :: rest }) ∨
      ∃ arena root, t = { s.allocate with arena := arena, walkStack := [], root := root, phase := phaseDecode }

/-- Every next state of an instruction has its shape. -/
theorem exec_shape {i : Instr} {s t : State} (h : exec i s = .next t) : Shape i s t := by
  cases i with
  | compress =>
    simp only [exec, execCompress] at h
    split at h <;> cases h
    · exact Or.inl ⟨‹_›, rfl⟩
    · exact Or.inr ⟨by simpa using ‹¬ s.busy = true›, rfl⟩
  | decompress =>
    simp only [exec, execDecompress] at h
    split at h <;> cases h
    · exact Or.inl ⟨‹_›, rfl⟩
    · exact Or.inr ⟨by simpa using ‹¬ s.busy = true›, rfl⟩
  | idle => cases h; rfl
  | count =>
    obtain ⟨c, w, k, e⟩ := countLoop_shape h
    exact ⟨c, w, k, e⟩
  | build =>
    obtain ⟨a, n, r, e⟩ := buildWith_shape tieBefore firstIsLeft s
    simp only [exec, execBuild, e] at h
    cases h
    exact ⟨a, n, r, rfl⟩
  | gencodes =>
    simp only [exec, execGencodes] at h
    rcases e : walk Config.nodeCap s.root 0 0 s with r | u
    · rw [e] at h; cases h
    · rw [e] at h; cases h
      obtain ⟨c, rfl⟩ := walk_frame e
      exact ⟨c, rfl⟩
  | writeHeader =>
    simp only [exec, execWriteHeader] at h
    rcases e : ser Config.nodeCap s.root (s.writeBits Config.magicBits Config.magic) with r | u
    · rw [e] at h; cases h
    · rw [e] at h; cases h
      obtain ⟨o, rfl⟩ := ser_frame e
      exact ⟨o, rfl⟩
  | rewind =>
    simp only [exec, execRewind] at h
    split at h <;> cases h
    exact ⟨‹_›, rfl⟩
  | encode => exact encodeLoop_shape h
  | closeC => cases h; rfl
  | readMagic =>
    simp only [exec, execReadMagic] at h
    obtain ⟨k, e⟩ | ⟨v, k, e⟩ := s.readBits_cases Config.magicBits
    · rw [e] at h; cases h; exact ⟨k, Or.inr rfl⟩
    · rw [e] at h
      simp only at h
      split at h <;> cases h
      · exact ⟨k, Or.inl rfl⟩
      · exact ⟨k, Or.inr rfl⟩
  | deserialize =>
    obtain ⟨a, n, k, e⟩ := recordLoop_shape h
    exact ⟨a, n, k, e⟩
  | decode =>
    simp only [exec, execDecode] at h
    split at h
    · cases h; exact Or.inl rfl
    · obtain ⟨c, o, k, e⟩ := decodeLoop_shape h
      exact Or.inr ⟨c, o, k, e⟩
  | closeD => cases h; rfl
  | internal =>
    simp only [exec, execInternal] at h
    split at h <;> cases h
    · exact Or.inl rfl
    · exact Or.inr rfl
  | leaf v =>
    simp only [exec, execLeaf] at h
    split at h <;> cases h
    · exact Or.inl rfl
    · obtain ⟨a, f, r, e⟩ | ⟨a, r, e⟩ := returnNode_cases s.walkStack s.nextHandle
        (s.allocate.setNode s.nextHandle { leaf := true, value := v, weight := 0, left := 0, right := 0 })
      · exact Or.inr (Or.inl ⟨a, f, r, e⟩)
      · exact Or.inr (Or.inr ⟨a, r, e⟩)

end Sys2Proof.Machine
end

