-- ==== Sys2Proof/Tests/Slice0.lean ====
section
/-! SUPPORT. Tests of the model's own: ill-formed words, words written out from spec/30_encoding.md, the vectors of
spec/95_test_vectors.md that one step shows, and a witness for every statement with hypotheses. -/

namespace Sys2Proof.Tests

open Machine

/-! ## Ill-formed words (30_encoding.md R104, R105, R116) and instructions -/

theorem test_wf_refuses_command_3 : (CodeWord.command 3).wf = false := by decide
theorem test_wf_refuses_command_1_with_a_high_bit : (CodeWord.command 0x80000001).wf = false := by decide
theorem test_wf_refuses_phase_12 : (CodeWord.phase 12).wf = false := by decide
theorem test_wf_refuses_no_bits : (CodeWord.record []).wf = false := by decide
theorem test_wf_refuses_a_long_internal : (CodeWord.record [false, true]).wf = false := by decide
theorem test_wf_refuses_a_short_leaf :
    (CodeWord.record [true, false, false, false, false, false, false, false, false]).wf = false := by decide
theorem test_conforming_refuses_leaf_300 : (Instr.leaf 300).conforming = false := by decide
theorem test_conforming_accepts_leaf_256 : (Instr.leaf 256).conforming = true := by decide
theorem test_access_refuses_a_byte : legalAccess 4 1 = false := by decide
theorem test_access_refuses_offset_2 : legalAccess 2 4 = false := by decide

/-! ## The constants of 00_scope.md R8 to R11, and what is made of them -/

theorem test_constants :
    Config.alphabetSize = 256 ∧ Config.unitBits = 8 ∧ Config.valueBits = 9 ∧ Config.magicBits = 32 ∧
      Config.magic = 0xFACE8201 := by decide
theorem test_sentinel : sentinel = (256 : Symbol) ∧ sentinelValue = 0b100000000 := by decide

/-! ## Words written out from the encoding tables: R102, R103, R104, R114, R115 -/

theorem test_decode_compress : Sys2Proof.decode (.command 0b00000000000000000000000000000001) = .ok .compress := by decide
theorem test_decode_decompress : Sys2Proof.decode (.command 0b00000000000000000000000000000010) = .ok .decompress := by decide
theorem test_decode_idle : Sys2Proof.decode (.phase 0b0000) = .ok .idle := by decide
theorem test_decode_count : Sys2Proof.decode (.phase 0b0001) = .ok .count := by decide
theorem test_decode_build : Sys2Proof.decode (.phase 0b0010) = .ok .build := by decide
theorem test_decode_gencodes : Sys2Proof.decode (.phase 0b0011) = .ok .gencodes := by decide
theorem test_decode_write_header : Sys2Proof.decode (.phase 0b0100) = .ok .writeHeader := by decide
theorem test_decode_rewind : Sys2Proof.decode (.phase 0b0101) = .ok .rewind := by decide
theorem test_decode_encode : Sys2Proof.decode (.phase 0b0110) = .ok .encode := by decide
theorem test_decode_close_c : Sys2Proof.decode (.phase 0b0111) = .ok .closeC := by decide
theorem test_decode_read_magic : Sys2Proof.decode (.phase 0b1000) = .ok .readMagic := by decide
theorem test_decode_deserialize : Sys2Proof.decode (.phase 0b1001) = .ok .deserialize := by decide
theorem test_decode_decode : Sys2Proof.decode (.phase 0b1010) = .ok .decode := by decide
theorem test_decode_close_d : Sys2Proof.decode (.phase 0b1011) = .ok .closeD := by decide
theorem test_decode_internal : Sys2Proof.decode (.record [false]) = .ok .internal := by decide

/-- 95_test_vectors.md 2.4: the serialized sentinel leaf is 1100000000. -/
theorem test_decode_leaf_256 :
    Sys2Proof.decode (.record [true, true, false, false, false, false, false, false, false, false]) = .ok (.leaf 256) := by
  decide

/-- 95_test_vectors.md 2.8: L(65) is 1001000001. -/
theorem test_decode_leaf_65 :
    Sys2Proof.decode (.record [true, false, false, true, false, false, false, false, false, true]) = .ok (.leaf 65) := by
  decide

theorem test_decode_refuses_phase_12 : Sys2Proof.decode (.phase 12) = .error (.reservedPhase 12) := by decide
theorem test_decode_refuses_command_0 : Sys2Proof.decode (.command 0) = .error (.illegalCommand 0) := by decide
theorem test_decode_refuses_two_records : Sys2Proof.decode (.record [false, false]) = .error .extraBits := by decide
theorem test_table_word_leaf : decodeTableWord 16 0b1001000001 = some (.leaf 65) := by decide
theorem test_table_word_phase : decodeTableWord 8 9 = some .deserialize := by decide

/-! ## States for the tests -/

/-- A codec in a phase of a command, with an input and the cursor 0. -/
def running (op : BitVec 2) (phase : PhaseCode) (bytes : List Byte) : State :=
  { State.reset with busy := true, op := op, phase := phase, input := bitsOfBytes bytes }

/-- The file S9 of 95_test_vectors.md 2.8. -/
def s9 : List Byte := [0xFA, 0xCE, 0x82, 0x01, 0x48, 0x29, 0x0B, 0x00, 0x4C]

/-- Its tree, and the tree in the arena at handles in pre-order. -/
def tree9 : CodeTree := .node (.leaf 65) (.node (.leaf 66) (.leaf 256))

def leafNode (v : LeafValue) : Node := { leaf := true, value := v, weight := 0, left := 0, right := 0 }

def innerNode (l r : Handle) : Node := { leaf := false, value := 0, weight := 0, left := l, right := r }

/-- s with S9's tree in the arena, at ROOT 0. -/
def withTree9 (s : State) : State :=
  { ((((s.setNode 0 (innerNode 1 2)).setNode 1 (leafNode 65)).setNode 2 (innerNode 3 4)).setNode 3 (leafNode 66)).setNode 4
      (leafNode 256) with root := 0 }

theorem withTree9_holds (s : State) : HoldsTree (withTree9 s).arena tree9 (withTree9 s).root := by
  refine ⟨?_, ⟨?_, ?_⟩, ?_, ⟨?_, ?_⟩, ?_, ?_⟩ <;>
    simp [withTree9, State.setNode, nodeAt_eq, innerNode, leafNode]

/-- What a next state holds, if the outcome is one. -/
def shows {α : Type} (f : State → α) : Host.Outcome State Fault Refusal → Option α
  | .next s => some (f s)
  | .fault _ => none
  | .refused _ => none

/-! ## One-step vectors of 95_test_vectors.md -/

/-- 2.6: a read of 32 bits from three bytes is EOD and takes all 24. -/
theorem test_readBits_partial :
    (let r := (running 2 8 [0xFA, 0xCE, 0x82]).readBits 32; (r.1, r.2.inPos)) = (none, 24) := by decide

/-- 2.6: readBits(8) of FA. -/
theorem test_readBits_byte : ((running 2 8 [0xFA]).readBits 8).1 = some 0xFA := by decide

/-- 2.6: writeBits(8, 300) writes the low 8 bits, 00101100. -/
theorem test_writeBits_300 :
    (State.reset.writeBits 8 300).output = [false, false, true, false, true, true, false, false] := by decide

/-- 2.6: close of 101 pads with zeros. -/
theorem test_close_101 :
    ({ State.reset with output := [true, false, true] } : State).close.output =
      [true, false, true, false, false, false, false, false] := by decide

/-- 2.10: COMPRESS accepted. -/
theorem test_accept_compress :
    shows (fun s => (s.statusWord, s.op)) (step { State.reset with host := [.writeReg 0 4 1] }) = some (0x101, 1) := by decide

/-- 2.10: DECOMPRESS accepted, after an error, which it clears. -/
theorem test_accept_decompress :
    shows (fun s => (s.statusWord, s.op))
      (step { State.reset with err := true, errCode := 1, phase := 8, host := [.writeReg 0 4 2] }) = some (0x801, 2) := by decide

/-- 2.10: an illegal word. -/
theorem test_illegal_command :
    shows State.statusWord (step { State.reset with host := [.writeReg 0 4 0x80000001] }) = some 0x74 := by decide

/-- 2.10: a command while busy is ignored. -/
theorem test_busy_command :
    shows State.statusWord (step { running 2 10 [] with host := [.writeReg 0 4 2] }) = some 0xA01 := by decide

/-- 2.10: a read of offset 8. -/
theorem test_read_offset_8 :
    shows State.readData (step { State.reset with readData := 7, host := [.readReg 8 4] }) = some 0 := by decide

/-- 2.1: [65, 65, 66]. -/
theorem test_count :
    shows (fun s => ((s.count 65, s.count 66, s.count 256, s.count 0), s.total, s.inPos, s.statusWord))
      (step (running 1 1 [65, 65, 66])) = some ((2, 1, 1, 0), 4, 24, 0x201) := by decide +kernel

/-- 2.1: InputTooLong when TOTAL is at its bound; 0x00000164. -/
theorem test_count_too_long :
    shows State.statusWord (countLoop 9 { running 1 1 [65] with total := 0xFFFFFFFF }) = some 0x164 := by decide +kernel

/-- 42_tree_builder.md R151: of equal weights the smaller handle comes first. -/
theorem test_tie_break :
    insertKey tieBefore { weight := 1, handle := 256 } [{ weight := 1, handle := 66 }, { weight := 2, handle := 65 }] =
      [{ weight := 1, handle := 66 }, { weight := 1, handle := 256 }, { weight := 2, handle := 65 }] := by decide

/-- 2.2, [65, 65, 66]: the last merge, of 65 (weight 2) and 511 (weight 2), has 65 on the left and weight 4. -/
theorem test_last_merge :
    let s := (State.reset.setNode 65 { leafNode 65 with weight := 2 }).setNode 511 { innerNode 256 510 with weight := 2 }
    mergeNode firstIsLeft s { weight := 2, handle := 65 } { weight := 2, handle := 511 } =
      { innerNode 65 511 with weight := 4 } := by decide +kernel

/-- 2.3's convention on S9's tree (2.8): 66 has the code 10, 256 the code 11, 65 the code 0. -/
theorem test_gencodes :
    shows (fun s => (s.codeBits 65, s.codeBits 66, s.codeBits 256)) (exec .gencodes (withTree9 State.reset)) =
      some ([false], [true, false], [true, true]) := by decide +kernel

/-- 2.8: S9's first eight bytes are the magic number and the tree I L(65) I L(66) L(256). -/
theorem test_write_header :
    shows (fun s => bytesOf s.output) (exec .writeHeader (withTree9 State.reset)) = some (s9.take 8) := by decide +kernel

/-- 46_encoder.md R210. -/
theorem test_rewind :
    shows (fun s => (s.inPos, s.statusWord)) (step { running 1 5 [65] with inPos := 8 }) = some (0, 0x601) := by decide

/-- 46_encoder.md R211 with S9's codes (2.8): 65, 66, 65 and the sentinel are 0 10 0 11. -/
theorem test_encode :
    shows State.output
      (exec .encode
        (((({ running 1 6 [65, 66, 65] with output := [true] } : State).setCode 65 { len := 1, bits := 0 }).setCode 66
          { len := 2, bits := 2 }).setCode 256 { len := 2, bits := 3 })) =
      some [true, false, true, false, false, true, true] := by decide +kernel

/-- 46_encoder.md R212, 48_commands.md R254. -/
theorem test_close_c :
    shows (fun s => (s.statusWord, s.outClosed, s.output.length)) (step { running 1 7 [] with output := [true] }) =
      some (2, true, 8) := by decide

/-- 2.7.1 and 2.7.2. -/
theorem test_read_magic :
    shows (fun s => (s.statusWord, s.inPos)) (step (running 2 8 s9)) = some (0x901, 32) := by decide

theorem test_read_magic_mismatch :
    shows (fun s => (s.statusWord, s.inPos)) (step (running 2 8 [0xFA, 0xCE, 0x82, 0x00])) = some (0x814, 32) := by decide

/-- 2.8.1, P2: S9's tree. -/
theorem test_deserialize :
    shows (fun s => ((s.nalloc, s.root, s.inPos, s.statusWord), s.node 0, s.node 2, s.node 4))
      (step { running 2 9 s9 with inPos := 32 }) =
      some ((5, 0, 64, 0xA01), innerNode 1 2, innerNode 3 4, leafNode 256) := by decide +kernel

/-- 2.8.5: cut inside the value of L(65). -/
theorem test_deserialize_cut :
    shows (fun s => (s.statusWord, s.inPos, s.nalloc)) (step { running 2 9 [0xFA, 0xCE, 0x82, 0x01, 0x48] with inPos := 32 }) =
      some (0x924, 40, 2) := by decide +kernel

/-- 2.8.1: A, B, A and the sentinel. -/
theorem test_decode_payload :
    shows (fun s => (bytesOf s.output, s.inPos, s.statusWord)) (step { withTree9 (running 2 10 s9) with inPos := 64 }) =
      some ([0x41, 0x42, 0x41], 70, 0xB01) := by decide +kernel

/-- 2.8.3: no payload bit is left. -/
theorem test_decode_payload_cut :
    shows (fun s => (s.output, s.inPos, s.statusWord)) (step { withTree9 (running 2 10 (s9.take 8)) with inPos := 64 }) =
      some ([], 64, 0xA34) := by decide +kernel

/-- 2.8.8: a root that is a leaf. -/
theorem test_decode_degenerate : shows State.statusWord (step (running 2 10 [0])) = some 0xA44 := by decide

/-- 47_decoder.md R236, 48_commands.md R254. -/
theorem test_close_d : shows (fun s => (s.statusWord, s.outClosed)) (step (running 2 11 [])) = some (2, true) := by decide

theorem test_idle : shows State.statusWord (step State.reset) = some 0 := by decide

/-- 45_tree_deserializer.md R193: one record more than the arena holds. -/
theorem test_internal_full : shows State.errCode (exec .internal { State.reset with nalloc := 1024 }) = some 5 := by decide

theorem test_internal :
    shows (fun s => (s.nalloc, s.walkStack)) (exec .internal { State.reset with nalloc := 3 }) =
      some (4, [{ node := 3, left := none }]) := by decide

/-- 45_tree_deserializer.md R195: a value above 256 is stored as read. -/
theorem test_leaf :
    shows (fun s => ((s.node 0).value, s.root, s.phase)) (exec (.leaf 300) State.reset) = some (300, 0, 10) := by decide +kernel

theorem test_leaf_closes_a_node :
    shows (fun s => (s.node 0, s.root))
      (exec (.leaf 256) { State.reset with nalloc := 2, walkStack := [{ node := 0, left := some 1 }] }) =
      some (innerNode 1 2, 0) := by decide +kernel

/-! ## The model's stops -/

theorem test_reserved_phase : step (running 1 12 []) = .fault .reservedPhase := rfl

theorem test_gencodes_without_an_entry : exec .gencodes (State.reset.setNode 0 (leafNode 300)) = .fault .noCodeEntry := rfl

theorem test_rewind_refused : exec .rewind { State.reset with rewindable := false } = .refused .inputNotRewindable := rfl

/-- A node that is its own child: WRITE_HEADER would not end (log 12). -/
theorem test_cycle_never_ends : exec .writeHeader (State.reset.setNode 0 (innerNode 0 0)) = .fault .phaseNeverEnds := by
  have loop : ∀ (bound : Nat) (s : State), s.node 0 = innerNode 0 0 → ser bound 0 s = .error .phaseNeverEnds := by
    intro bound
    induction bound with
    | zero => exact fun _ _ => rfl
    | succ bound ih =>
      intro s h
      rw [ser, h]
      simp only [innerNode, Bool.false_eq_true, if_false]
      rw [ih (s.writeBits 1 0) h]
  have h0 : ((State.reset.setNode 0 (innerNode 0 0)).writeBits Config.magicBits Config.magic).node 0 = innerNode 0 0 :=
    State.node_setNode_self _ _ _
  simp only [exec, execWriteHeader]
  rw [show (State.reset.setNode 0 (innerNode 0 0)).root = 0 from rfl, loop Config.nodeCap _ h0]
  rfl

/-! ## Witnesses: for each obligation with hypotheses, operands that meet them, at the ends of each clause's range -/

theorem witness_EncodeAndDecodeAgree :
    Sys2Proof.decode (.command 2) = .ok .decompress ∧ Sys2Proof.decode (.phase 11) = .ok .closeD ∧
      Sys2Proof.decode (.record [true, true, true, true, true, true, true, true, true, true]) = .ok (.leaf 511) := by decide

theorem witness_RecordsAreSelfDelimiting :
    encode (.leaf 0) = .record (true :: bitsN 9 0) ∧ [true] <+: true :: bitsN 9 0 ∧ [true] ≠ true :: bitsN 9 0 ∧
      encode .internal = .record [false] ∧ [] <+: [false] ∧ [] ≠ [false] := by decide

/-- A read of exactly what is left, and of one bit more. -/
theorem witness_ReadBitsGivesTheNextField :
    (running 2 8 [0xFA]).inPos + 8 ≤ (running 2 8 [0xFA]).input.length ∧
      (running 2 8 [0xFA]).input.length < (running 2 8 [0xFA]).inPos + 9 := by decide

/-- The bits of a field, the first and the last. -/
theorem witness_WritesAppendAndClosePads :
    0 < 9 ∧ 8 < 9 ∧ ({ State.reset with output := List.replicate 8 true } : State).output.length % 8 = 0 := by decide

/-- CMD, STATUS, another register; a wrong size, a wrong offset. -/
theorem witness_RegisterAccesses :
    ((4 = 4 ∧ 0 % 4 = 0) ∧ (4 = 4 ∧ 4 % 4 = 0 ∧ 4 ≠ 0) ∧ (4 = 4 ∧ 8 % 4 = 0 ∧ 8 ≠ 0)) ∧ ¬(3 = 4 ∧ 4 % 4 = 0) ∧
      ¬(4 = 4 ∧ 5 % 4 = 0) := by decide

/-- Each word at which the clauses meet: 0, 1, 2, 3. -/
theorem witness_IdleCommandWrites :
    State.reset.busy = false ∧
      shows State.statusWord (step { State.reset with host := [.writeReg 0 4 0] }) = some 0x74 ∧
      shows State.statusWord (step { State.reset with host := [.writeReg 0 4 1] }) = some 0x101 ∧
      shows State.statusWord (step { State.reset with host := [.writeReg 0 4 2] }) = some 0x801 ∧
      shows State.statusWord (step { State.reset with host := [.writeReg 0 4 3] }) = some 0x74 := by decide

theorem witness_CommandInstructions : State.reset.busy = false ∧ (running 1 1 []).busy = true := ⟨rfl, rfl⟩

theorem witness_BusyCommandWritesAreIgnored : (running 1 1 []).busy = true := rfl

theorem witness_IdleWaits : State.reset.busy = false ∧ State.reset.host = [] := ⟨rfl, rfl⟩

/-- The first and the last phase, a command word, and the reserved codes 12 and 15. -/
theorem witness_StepRunsTheDecodedInstruction :
    (running 1 1 []).busy = true ∧ decodePhase (running 1 1 []).phase = .ok .count ∧ (running 1 1 []).host = [] ∧
      decodePhase (running 2 11 []).phase = .ok .closeD ∧ decodeCommand 1 = .ok .compress ∧
      (∀ j, decodePhase (running 1 12 []).phase ≠ .ok j) ∧ ∀ j, decodePhase (running 1 15 []).phase ≠ .ok j :=
  ⟨rfl, rfl, rfl, rfl, rfl, fun _ => nofun, fun _ => nofun⟩

theorem witness_WaitEndsWhenIdle : State.reset.busy = false := rfl

theorem witness_PhasesFollowTheTable :
    successor .closeC = some phaseIdle ∧ (running 1 7 []).err = false ∧
      exec .closeC (running 1 7 []) = .next (running 1 7 []).close.complete ∧
      (running 1 7 []).close.complete.err = false := ⟨rfl, rfl, rfl, rfl⟩

theorem witness_ErrorsAbortTheCommand :
    (running 2 8 []).err = false ∧ exec .readMagic (running 2 8 []) = .next ((running 2 8 []).raise .invalidMagicNumber) ∧
      ((running 2 8 []).raise .invalidMagicNumber).err = true := ⟨rfl, rfl, rfl⟩

theorem bytesOf_running (op : BitVec 2) (phase : PhaseCode) (bytes : List Byte) :
    bytesOf (running op phase bytes).rest = bytes := by
  show bytesOf ((bitsOfBytes bytes).drop 0) = bytes
  simp

/-- The longest input that COUNT takes, and the empty one. -/
theorem witness_CountGivesTheFrequencyTable :
    (bytesOf (running 1 1 []).rest).length ≤ 2 ^ 32 - 2 ∧
      (bytesOf (running 1 1 (List.replicate (2 ^ 32 - 2) 0)).rest).length ≤ 2 ^ 32 - 2 := by
  rw [bytesOf_running, bytesOf_running, List.length_replicate]
  exact ⟨Nat.zero_le _, Nat.le_refl _⟩

/-- The shortest input that COUNT refuses. -/
theorem witness_CountRefusesLongInput :
    2 ^ 32 - 1 ≤ (bytesOf (running 1 1 (List.replicate (2 ^ 32 - 1) 0)).rest).length := by
  rw [bytesOf_running, List.length_replicate]

theorem witness_BuildMergesTheLeastKeys :
    exec .build State.reset = .next (buildWith tieBefore firstIsLeft State.reset) ∧ 0 < 256 ∧ 255 < 256 :=
  ⟨rfl, by decide, by decide⟩

/-- All counts zero. -/
theorem witness_BuildWeightsAreExactSums :
    ((List.finRange 257).map (fun x => (State.reset.count x).toNat)).sum < 2 ^ 32 ∧
      exec .build State.reset = .next (buildWith tieBefore firstIsLeft State.reset) := by
  refine ⟨?_, rfl⟩
  rw [List.sum_eq_zero]
  · exact Nat.two_pow_pos 32
  · intro n hn
    obtain ⟨x, -, rfl⟩ := List.mem_map.mp hn
    simp [State.count, State.reset]

/-- Two arenas that differ. -/
theorem witness_BuildDependsOnTheCountsAlone :
    (∀ x : Symbol, State.reset.count x = (withTree9 State.reset).count x) ∧
      exec .build State.reset = .next (buildWith tieBefore firstIsLeft State.reset) ∧
      exec .build (withTree9 State.reset) = .next (buildWith tieBefore firstIsLeft (withTree9 State.reset)) :=
  ⟨fun _ => rfl, rfl, rfl⟩

theorem witness_QueueExtractsTheLeastKey :
    InOrder [⟨1, 3⟩, ⟨1, 4⟩, ⟨2, 0⟩] ∧ (⟨1, 5⟩ : Key) ∉ [⟨1, 3⟩, ⟨1, 4⟩, ⟨2, 0⟩] ∧ InOrder [] ∧ (⟨0, 0⟩ : Key) ∉ [] := by
  unfold InOrder
  decide

theorem witness_GencodesRecordsEveryPath :
    HoldsTree (withTree9 State.reset).arena tree9 (withTree9 State.reset).root ∧ tree9.values.Nodup ∧
      (∀ e ∈ tree9.paths, e.1.toNat < 257 ∧ e.2.length ≤ 256) ∧
      ((BitVec.ofNat 9 (66 : Symbol).val, [true, false]) ∈ tree9.paths) ∧ BitVec.ofNat 9 (0 : Symbol).val ∉ tree9.values :=
  ⟨withTree9_holds _, by decide, by decide, by decide, by decide⟩

theorem witness_BuiltCodesAreAPrefixCode :
    exec .build State.reset = .next (buildWith tieBefore firstIsLeft State.reset) ∧ (255 : Symbol) ≠ 256 :=
  ⟨rfl, by decide⟩

theorem witness_WriteHeaderAppendsMagicAndTree :
    HoldsTree (withTree9 State.reset).arena tree9 (withTree9 State.reset).root := withTree9_holds _

theorem witness_BuiltHeaderHas2858Bits :
    State.reset.output = [] ∧ exec .build State.reset = .next (buildWith tieBefore firstIsLeft State.reset) := ⟨rfl, rfl⟩

theorem witness_WalksStopOnlyOnCycles : exec .writeHeader (State.reset.setNode 0 (innerNode 0 0)) = .fault .phaseNeverEnds :=
  test_cycle_never_ends

theorem witness_RewindReturnsToTheStart :
    State.reset.rewindable = true ∧ ({ State.reset with rewindable := false } : State).rewindable = false := ⟨rfl, rfl⟩

/-- The magic number with nothing after it, and one bit short of it. -/
theorem witness_ReadMagicChecksTheConstant :
    ({ running 2 8 [] with input := bitsN 32 0xFACE8201 } : State).rest = bitsN 32 0xFACE8201 ++ [] ∧
      ¬ ∃ more, ({ running 2 8 [] with input := (bitsN 32 0xFACE8201).take 31 } : State).rest = bitsN 32 0xFACE8201 ++ more := by
  refine ⟨by decide, ?_⟩
  rintro ⟨more, h⟩
  have := congrArg List.length h
  simp [State.rest, running, State.reset] at this
  omega

/-- A tree of 2 n + 1 records. -/
def comb : Nat → CodeTree
  | 0 => .leaf 256
  | n + 1 => .node (.leaf 0) (comb n)

theorem comb_size (n : Nat) : (comb n).size = 2 * n + 1 := by
  induction n with
  | zero => rfl
  | succ n ih => simp only [comb, CodeTree.size, ih]; omega

/-- A state whose next bits are the records of a tree. -/
def holding (bits : List Bool) : State := { running 2 9 [] with input := bits }

/-- The largest tree that the arena takes; a tree has an odd number of nodes. -/
theorem witness_DeserializeReadsOneTree :
    (holding (comb 511).records).rest = (comb 511).records ++ [] ∧ (comb 511).size ≤ 1024 := by
  rw [comb_size, List.append_nil]
  exact ⟨rfl, by decide⟩

/-- Cut before the first bit, and before the last. -/
theorem witness_DeserializeRefusesACutTree :
    tree9.records = (holding []).rest ++ tree9.records ∧ tree9.records ≠ [] ∧
      tree9.records = (holding (tree9.records.take 31)).rest ++ [false] ∧ [false] ≠ [] ∧ tree9.size ≤ 1024 := by decide

/-- The smallest tree that the arena does not take. -/
theorem witness_DeserializeRefusesALargeTree :
    (holding (comb 512).records).rest = (comb 512).records ++ [] ∧ 1024 < (comb 512).size := by
  rw [comb_size, List.append_nil]
  exact ⟨rfl, by decide⟩

theorem witness_DeserializeRunsDecodedRecords :
    decodeRecord (holding [false, true]).rest = .ok (.internal, [true]) ∧
      ({ holding [false, true] with nalloc := 1023 } : State).nalloc.toNat < 1024 := by decide

theorem witness_InternalRecordOpensANode :
    ({ State.reset with nalloc := 1023 } : State).nalloc.toNat < 1024 ∧
      1024 ≤ ({ State.reset with nalloc := 1024 } : State).nalloc.toNat := by decide

/-- Two nodes are taken, and the second is the left child of the first, which is open. -/
def oneOpen : State := { State.reset with nalloc := 2, walkStack := [⟨0, some 1⟩] }

/-- All nodes but one are taken; node 1 has its left child, and node 0, whose left child it is, is open too. -/
def twoOpen : State := { State.reset with nalloc := 1023, walkStack := [⟨1, some 2⟩, ⟨0, none⟩] }

/-- A full arena; no open node; a node awaiting its left child; the last open node awaiting its right child; one that is
the left child of another. -/
theorem witness_LeafRecordReturnsANode :
    1024 ≤ ({ State.reset with nalloc := 1024 } : State).nalloc.toNat ∧ State.reset.nalloc.toNat < 1024 ∧
      State.reset.walkStack = [] ∧
      ({ State.reset with nalloc := 1, walkStack := [⟨0, none⟩] } : State).walkStack = ⟨0, none⟩ :: [] ∧
      (oneOpen.walkStack = ⟨0, some 1⟩ :: [] ∧ (0 : Handle).toNat < oneOpen.nalloc.toNat) ∧
      (twoOpen.walkStack = ⟨1, some 2⟩ :: ⟨0, none⟩ :: [] ∧ (1 : Handle).toNat < twoOpen.nalloc.toNat ∧
        ∀ f ∈ [(⟨0, none⟩ : Frame)], f.node.toNat < (1 : Handle).toNat) := by decide

/-- S9's payload, 0 10 0 11, and the empty one, 11. -/
theorem witness_DecodeEmitsTheSymbols :
    HoldsTree (withTree9 (holding [false, true, false, false, true, true])).arena tree9
        (withTree9 (holding [false, true, false, false, true, true])).root ∧
      (∀ e ∈ [((65 : LeafValue), [false]), (66, [true, false]), (65, [false])], e ∈ tree9.paths ∧ e.1 ≠ 256) ∧
      ((256 : LeafValue), [true, true]) ∈ tree9.paths ∧
      (withTree9 (holding [false, true, false, false, true, true])).rest =
        [((65 : LeafValue), [false]), (66, [true, false]), (65, [false])].flatMap Prod.snd ++ [true, true] ++ [] ∧
      (withTree9 (holding [true, true])).rest = ([] : List (LeafValue × List Bool)).flatMap Prod.snd ++ [true, true] ++ [] :=
  ⟨withTree9_holds _, by decide, by decide, by decide, by decide⟩

/-- Cut inside the sentinel's code, and before any bit. -/
theorem witness_DecodeRefusesACutPayload :
    HoldsTree (withTree9 (holding [false, true])).arena tree9 (withTree9 (holding [false, true])).root ∧
      (∀ e ∈ [((65 : LeafValue), [false])], e ∈ tree9.paths ∧ e.1 ≠ 256) ∧
      ((256 : LeafValue), [true, true]) ∈ tree9.paths ∧ [true] <+: [true, true] ∧ [true] ≠ [true, true] ∧
      (withTree9 (holding [false, true])).rest = [((65 : LeafValue), [false])].flatMap Prod.snd ++ [true] ∧
      ([] <+: [true, true]) ∧ [] ≠ [true, true] ∧
      (withTree9 (holding [])).rest = ([] : List (LeafValue × List Bool)).flatMap Prod.snd ++ [] :=
  ⟨withTree9_holds _, by decide, by decide, by decide, by decide, by decide, by decide, by decide, by decide⟩

theorem witness_NoSentinelEndsInBadInput :
    HoldsTree (State.reset.setNode 0 (innerNode 1 1)).arena (.node (.leaf 0) (.leaf 0)) (State.reset.setNode 0 (innerNode 1 1)).root ∧
      256 ∉ (CodeTree.node (.leaf 0) (.leaf 0)).values := by
  refine ⟨⟨?_, ⟨?_, ?_⟩, ?_, ?_⟩, by decide⟩ <;>
    simp [State.setNode, nodeAt_eq, innerNode, State.reset, Node.atReset]

theorem witness_LeafRootIsDegenerate :
    HoldsTree (State.reset.setNode 0 (leafNode 256)).arena (.leaf 256) (State.reset.setNode 0 (leafNode 256)).root := by
  constructor <;> simp [State.setNode, nodeAt_eq, leafNode, State.reset]

theorem witness_EveryPhaseEnds :
    Instr.internal ∈ [Instr.compress, .decompress, .idle, .count, .build, .encode, .closeC, .readMagic, .deserialize, .decode,
        .closeD, .internal] ∧
      State.reset.rewindable = true ∧ HoldsTree (withTree9 State.reset).arena tree9 (withTree9 State.reset).root ∧
      ∀ v ∈ tree9.values, v.toNat < 257 :=
  ⟨by decide, rfl, withTree9_holds _, by decide⟩

theorem witness_EveryInstructionKeepsItsFrame :
    exec .idle State.reset = .next State.reset ∧ exec .closeD (running 2 11 []) = .next (running 2 11 []).close.complete :=
  ⟨rfl, rfl⟩

theorem witness_InstructionsIgnoreTheHostSide : exec .closeD (running 2 11 []) = .next (running 2 11 []).close.complete := rfl

theorem witness_HostOwnsTheStreamsWhileIdle : State.reset.busy = false ∧ (running 1 1 []).busy = true := ⟨rfl, rfl⟩

/-- A command that has just been accepted meets the invariant. -/
theorem running_inv (bytes : List Byte) : Inv (running 2 8 bytes) := by
  refine ⟨⟨rfl, rfl, rfl, ?_, fun _ => rfl, ?_⟩, ⟨?_, fun _ => Or.inr ⟨rfl, ?_, ?_⟩, fun h => by cases h⟩,
    ⟨Nat.zero_le _, ?_, rfl, ?_⟩, ?_⟩
  · exact Nat.zero_le _
  · show (8 : PhaseCode).toNat ≤ 11
    decide
  · show (2 : BitVec 2).toNat ≤ 2
    decide
  · show 8 ≤ (8 : PhaseCode).toNat
    decide
  · show (8 : PhaseCode).toNat ≤ 11
    decide
  · show (bitsOfBytes bytes).length % 8 = 0
    simp
  · exact Nat.zero_le _
  · rintro - (h | h) <;> exact absurd h (by show ¬ (8 : PhaseCode) = _; decide)

theorem witness_EveryStepKeepsTheInvariant :
    Inv (running 2 8 []) ∧ step (running 2 8 []) = .next ((running 2 8 []).raise .invalidMagicNumber) := ⟨running_inv _, rfl⟩

/-- A host that takes the output of a running command. -/
theorem witness_InvariantStatesNeverFault :
    Inv { running 2 8 [] with host := [.takeOut] } ∧
      step { running 2 8 [] with host := [.takeOut] } = .refused .streamAccessWhileBusy := ⟨running_inv [], rfl⟩

theorem witness_EveryCommandEnds :
    Inv (running 2 8 s9) ∧ (running 2 8 s9).busy = true ∧ (running 2 8 s9).rewindable = true ∧ (running 2 8 s9).host = [] :=
  ⟨running_inv _, rfl, rfl, rfl⟩

/-- The empty input and the longest one. -/
theorem witness_CompressWritesTheFileFormat :
    ([] : List Byte).length ≤ 2 ^ 32 - 2 ∧ (List.replicate (2 ^ 32 - 2) (0 : Byte)).length ≤ 2 ^ 32 - 2 ∧
      State.reset.busy = false := by
  rw [List.length_replicate]
  exact ⟨Nat.zero_le _, Nat.le_refl _, rfl⟩

theorem witness_DecompressInvertsCompress :
    ([] : List Byte).length ≤ 2 ^ 32 - 2 ∧ (List.replicate (2 ^ 32 - 2) (0 : Byte)).length ≤ 2 ^ 32 - 2 ∧
      State.reset.busy = false := witness_CompressWritesTheFileFormat

/-- An order other than the default: of equal weights the greater handle first. -/
def lastFirst (x y : Key) : Bool :=
  decide (x.weight.toNat < y.weight.toNat ∨ x.weight.toNat = y.weight.toNat ∧ y.handle.toNat < x.handle.toNat)

theorem lastFirst_order : IsTieOrder lastFirst := by
  refine ⟨?_, ?_, ?_, ?_⟩
  · intro x
    simp [lastFirst]
  · intro x y z h1 h2
    simp only [lastFirst, decide_eq_true_eq] at *
    omega
  · intro x y h
    have : ¬(x.weight.toNat = y.weight.toNat ∧ x.handle.toNat = y.handle.toNat) := by
      rintro ⟨hw, hh⟩
      cases x
      cases y
      exact h (congrArg₂ Key.mk (BitVec.eq_of_toNat_eq hw) (BitVec.eq_of_toNat_eq hh))
    simp only [lastFirst, decide_eq_true_eq]
    omega
  · intro x y h
    simp only [lastFirst, decide_eq_true_eq]
    omega

/-- A running COMPRESS, and for any output of it a running DECOMPRESS that reads it. -/
theorem witness_RoundTripUnderEveryTieOrder :
    IsTieOrder lastFirst ∧ [(65 : Byte)].length ≤ 2 ^ 32 - 2 ∧
      ((running 1 1 [65]).busy = true ∧ (running 1 1 [65]).input = bitsOfBytes [65] ∧ (running 1 1 [65]).inPos = 0 ∧
        (running 1 1 [65]).rewindable = true ∧ (running 1 1 [65]).output = []) ∧
      ∀ t : State, (holding t.output).busy = true ∧ (holding t.output).input = t.output ∧ (holding t.output).inPos = 0 ∧
        (holding t.output).output = [] :=
  ⟨lastFirst_order, by decide, ⟨rfl, rfl, rfl, rfl, rfl⟩, fun _ => ⟨rfl, rfl, rfl, rfl⟩⟩

theorem witness_CommandsIgnoreOldMemories :
    ((1 : Word) = 1 ∨ (1 : Word) = 2) ∧ ((2 : Word) = 1 ∨ (2 : Word) = 2) ∧ State.reset.busy = false ∧
      (withTree9 State.reset).busy = false := ⟨Or.inl rfl, Or.inr rfl, rfl, rfl⟩

end Sys2Proof.Tests
end

section
/-! PROOFS. The registers, and the state after reset. -/

namespace Sys2Proof.Machine

/-- The bits of the STATUS word (10_state.md R33). -/
theorem State.statusWord_getLsbD (s : State) (i : Nat) :
    s.statusWord.getLsbD i =
      if i = 0 then s.busy else if i = 1 then s.done else if i = 2 then s.err else if i = 3 then false
      else if i < 8 then s.errCode.getLsbD (i - 4) else s.phase.getLsbD (i - 8) := by
  have composed : s.statusWord.getLsbD i =
      (0#20 ++ s.phase ++ s.errCode ++ 0#1 ++ BitVec.ofBool s.err ++ BitVec.ofBool s.done ++
        BitVec.ofBool s.busy).getLsbD i := rfl
  rw [composed]
  simp only [BitVec.getLsbD_append]
  match i with
  | 0 | 1 | 2 | 3 => simp
  | i + 4 => grind

/-- Settles O7, by `State.statusWord_getLsbD`. -/
theorem statusWordHasItsFields : Obligations.StatusWordHasItsFields := by
  intro s
  have field (start len : Nat) (x : BitVec len)
      (h : ∀ i < len, s.statusWord.getLsbD (start + i) = x.getLsbD i) : s.statusWord.extractLsb' start len = x :=
    BitVec.eq_of_getLsbD_eq fun i hi => by simp [hi, h i hi]
  refine ⟨s.statusWord_getLsbD 0, s.statusWord_getLsbD 1, s.statusWord_getLsbD 2, s.statusWord_getLsbD 3,
    field _ _ _ fun i hi => ?_, field _ _ _ fun i hi => ?_, field _ _ _ fun i hi => ?_⟩
  all_goals
    rw [State.statusWord_getLsbD]
    grind

/-- A register access is legal exactly where it is one aligned 32-bit word (20_memory.md R82). -/
theorem legalAccess_iff {offset size : Nat} : legalAccess offset size = true ↔ size = 4 ∧ offset % 4 = 0 := by
  simp [legalAccess]

/-- Settles O9: the step is the head of `host`, and each of its cases is told by `legalAccess_iff`. -/
theorem registerAccesses : Obligations.RegisterAccesses := by
  intro s later offset size w
  refine ⟨fun hs ho => ?_, fun hs ho hc => ?_, fun hn => ?_⟩
  · have legal := legalAccess_iff.mpr ⟨hs, ho⟩
    simp only [step, advance, hostMove, legal, if_true]
    rfl
  · have legal := legalAccess_iff.mpr ⟨hs, ho⟩
    simp only [step, advance, hostMove, legal, if_true, offsetCmd, hc, if_false]
  · have illegal := mt legalAccess_iff.mp hn
    simp only [step, advance, hostMove, if_neg illegal, and_self]

/-- Settles O49: every field is a literal of `State.reset`. -/
theorem resetIsIdleAndClear : Obligations.ResetIsIdleAndClear := by
  refine ⟨?_, rfl, rfl, rfl, rfl⟩
  decide

/-- Settles O52: nothing runs at reset, so the clauses on a running command are empty. -/
theorem invariantHoldsAtReset : Obligations.InvariantHoldsAtReset := by
  have status : StatusLegal State.reset := ⟨rfl, rfl, rfl, Nat.zero_le _, fun _ => rfl, Nat.zero_le _⟩
  have sequencer : SequencerLegal State.reset := ⟨Nat.zero_le _, nofun, fun _ _ => rfl⟩
  have memories : MemoriesLegal State.reset := ⟨Nat.le_refl _, rfl, rfl, Nat.zero_le _⟩
  exact ⟨status, sequencer, memories, nofun⟩

/-- Settles O47: every next state has its shape (`exec_shape`), whose updates are those that `putBack` undoes. -/
theorem everyInstructionKeepsItsFrame : Obligations.EveryInstructionKeepsItsFrame := by
  intro i s t h
  have shape := exec_shape h
  cases i with
  | compress | decompress => obtain ⟨-, rfl⟩ | ⟨-, rfl⟩ := shape <;> rfl
  | idle => exact shape
  | count => obtain ⟨_, _, _, rfl | rfl⟩ := shape <;> rfl
  | build => obtain ⟨_, _, _, rfl⟩ := shape; rfl
  | gencodes | writeHeader => obtain ⟨_, rfl⟩ := shape; rfl
  | rewind => obtain ⟨-, rfl⟩ := shape; rfl
  | encode => obtain ⟨_, _, rfl⟩ := shape; rfl
  | closeC | closeD => obtain rfl := shape; rfl
  | readMagic => obtain ⟨_, rfl | rfl⟩ := shape <;> rfl
  | deserialize => obtain ⟨_, _, _, ⟨_, rfl⟩ | ⟨_, rfl | rfl⟩⟩ := shape <;> rfl
  | decode => obtain rfl | ⟨_, _, _, rfl | rfl⟩ := shape <;> rfl
  | internal => obtain rfl | rfl := shape <;> rfl
  | leaf v => obtain rfl | ⟨_, _, _, rfl⟩ | ⟨_, _, rfl⟩ := shape <;> rfl

end Sys2Proof.Machine
end

section
/-! PROOFS. When two arenas hold the same tree at a handle. -/

namespace Sys2Proof.Machine

/-- Two arenas hold the same nodes at a handle and wherever its children lead: some set of handles around it is closed
under children, and the arenas agree on it. -/
def SameTree (a b : Arena) (h : Handle) : Prop :=
  ∃ W : Handle → Prop, W h ∧ ∀ g, W g →
    nodeAt b g = nodeAt a g ∧ ((nodeAt a g).leaf = false → W (nodeAt a g).left ∧ W (nodeAt a g).right)

namespace SameTree

variable {a b : Arena} {g h : Handle}

theorem refl (a : Arena) (h : Handle) : SameTree a a h :=
  ⟨fun _ => True, trivial, fun _ _ => ⟨rfl, fun _ => ⟨trivial, trivial⟩⟩⟩

theorem node_eq (e : SameTree a b h) : nodeAt b h = nodeAt a h := by
  obtain ⟨_, hW, close⟩ := e
  exact (close h hW).1

theorem children (e : SameTree a b h) (inner : (nodeAt a h).leaf = false) :
    SameTree a b (nodeAt a h).left ∧ SameTree a b (nodeAt a h).right := by
  obtain ⟨W, hW, close⟩ := e
  obtain ⟨hl, hr⟩ := (close h hW).2 inner
  exact ⟨⟨W, hl, close⟩, ⟨W, hr, close⟩⟩

/-- A node written into both arenas, a leaf or one whose children the arenas hold alike, is held alike, and the handles
held alike before still are. -/
theorem set {n : Node} (alike : n.leaf = true ∨ SameTree a b n.left ∧ SameTree a b n.right)
    (e : h = g ∨ SameTree a b h) :
    SameTree (a.set g.toNat n g.isLt) (b.set g.toNat n g.isLt) h := by
  refine ⟨fun x => x = g ∨ SameTree a b x, e, fun x hx => ?_⟩
  by_cases hg : x = g
  · subst hg
    rw [nodeAt_set_self, nodeAt_set_self]
    refine ⟨rfl, fun inner => ?_⟩
    obtain leaf | ⟨hl, hr⟩ := alike
    · rw [leaf] at inner; cases inner
    · exact ⟨Or.inr hl, Or.inr hr⟩
  · have ex := hx.resolve_left hg
    rw [nodeAt_set_ne hg, nodeAt_set_ne hg]
    refine ⟨ex.node_eq, fun inner => ?_⟩
    obtain ⟨hl, hr⟩ := ex.children inner
    exact ⟨Or.inr hl, Or.inr hr⟩

theorem holdsTree {T : CodeTree} (e : SameTree a b h) (ht : HoldsTree a T h) : HoldsTree b T h := by
  induction T generalizing h with
  | leaf v =>
    unfold HoldsTree at ht ⊢
    rw [e.node_eq]
    exact ht
  | node l r ihl ihr =>
    obtain ⟨inner, hl, hr⟩ := ht
    obtain ⟨el, er⟩ := e.children inner
    unfold HoldsTree
    rw [e.node_eq]
    exact ⟨inner, ihl el hl, ihr er hr⟩

end SameTree

end Sys2Proof.Machine
end

section
/-! PROOFS. The loops that read the input, each said once: where the loop ends, and that what it does is the same in
every state that agrees on the fields the loop reads. -/

namespace Sys2Proof.Machine

/-- Two states have the same bits still to read. -/
structure SameInput (s t : State) : Prop where
  input : t.input = s.input
  inPos : t.inPos = s.inPos

theorem SameInput.refl (s : State) : SameInput s s := ⟨rfl, rfl⟩

/-- What a read answers, and where it leaves the cursor, is the same over the same input. -/
theorem State.readBits_alike (n : Nat) (s : State) :
    ∃ (answer : Option Nat) (k : Nat), k ≤ s.input.length ∧
      (0 < n → answer ≠ none → ({ s with inPos := k } : State).rest.length < s.rest.length) ∧
      ∀ t, SameInput s t → t.readBits n = (answer, { t with inPos := k }) := by
  by_cases fits : s.inPos + n ≤ s.input.length
  · refine ⟨some (num (s.rest.take n)), s.inPos + n, fits, fun _ _ => ?_, fun t same => ?_⟩
    · simp only [State.rest_length]; omega
    · obtain ⟨hi, hp⟩ := same
      rw [State.readBits_of_le (by rw [hi, hp]; exact fits), State.rest_congr hi hp, hp]
  · refine ⟨none, s.input.length, Nat.le_refl _, fun _ some => absurd rfl some, fun t same => ?_⟩
    obtain ⟨hi, hp⟩ := same
    rw [State.readBits_of_gt (by rw [hi, hp]; omega), hi]

/-- COUNT's loop reads the input, the table and TOTAL. -/
theorem countLoop_ends {bound : Nat} {s : State} (enough : s.rest.length < bound) :
    ∃ counts total k finish, k ≤ s.input.length ∧
      (finish = State.setPhase phaseBuild ∨ finish = State.raise .inputTooLong) ∧
      ∀ t, SameInput s t → t.counts = s.counts → t.total = s.total →
        countLoop bound t = .next (finish { t with counts := counts, total := total, inPos := k }) := by
  induction bound generalizing s with
  | zero => exact absurd enough (Nat.not_lt_zero _)
  | succ bound ih =>
    obtain ⟨answer, k, hk, shorter, read⟩ := s.readBits_alike Config.unitBits
    cases answer with
    | none =>
      exact ⟨s.counts, s.total, k, _, hk, Or.inl rfl, fun t same hc ht => by rw [countLoop, read t same, ← hc, ← ht]⟩
    | some v =>
      have shorter := shorter (by decide) (Option.some_ne_none v)
      by_cases full : s.total.toNat = 2 ^ 32 - 1
      · refine ⟨s.counts, s.total, k, _, hk, Or.inr rfl, fun t same hc ht => ?_⟩
        rw [countLoop, read t same, ← hc, ← ht]
        exact if_pos (ht ▸ full)
      · let b := symbolOfByte (BitVec.ofNat Config.unitBits v)
        obtain ⟨c, w, k', f, hk', hf, run⟩ :=
          ih (s := { ({ s with inPos := k } : State).setCount b (s.count b + 1) with total := s.total + 1 })
            (Nat.lt_of_lt_of_le shorter (Nat.le_of_lt_succ enough))
        refine ⟨c, w, k', f, hk', hf, fun t same hc ht => ?_⟩
        rw [countLoop, read t same]
        refine (if_neg (ht ▸ full)).trans (run _ ⟨same.input, rfl⟩ ?_ ?_)
        · simp [State.setCount, State.count, hc, b]
        · simp [ht]

/-- ENCODE's loop reads the input and the code table, and ends at the end of the input. -/
theorem encodeLoop_ends {bound : Nat} {s : State} (enough : s.rest.length < bound) :
    ∃ bits k, k ≤ s.input.length ∧ ∀ t, SameInput s t → t.code = s.code →
      encodeLoop bound t = .next (({ t with output := t.output ++ bits, inPos := k } : State).setPhase phaseCloseC) := by
  induction bound generalizing s with
  | zero => exact absurd enough (Nat.not_lt_zero _)
  | succ bound ih =>
    obtain ⟨answer, k, hk, shorter, read⟩ := s.readBits_alike Config.unitBits
    cases answer with
    | none =>
      refine ⟨s.codeBits sentinel, k, hk, fun t same hc => ?_⟩
      have : s.codeBits sentinel = t.codeBits sentinel := by simp [State.codeBits, State.codeOf, hc]
      rw [encodeLoop, read t same, this]
      rfl
    | some v =>
      have shorter := shorter (by decide) (Option.some_ne_none v)
      let b := symbolOfByte (BitVec.ofNat Config.unitBits v)
      obtain ⟨bits, k', hk', run⟩ := ih (s := ({ s with inPos := k } : State).writeCode b)
        (Nat.lt_of_lt_of_le shorter (Nat.le_of_lt_succ enough))
      refine ⟨s.codeBits b ++ bits, k', hk', fun t same hc => ?_⟩
      have : s.codeBits b = t.codeBits b := by simp [State.codeBits, State.codeOf, hc]
      rw [encodeLoop, read t same, this, ← List.append_assoc]
      exact run (({ t with inPos := k } : State).writeCode b) ⟨same.input, rfl⟩ hc

/-- DECODE's loop reads the input, CUR, ROOT, and the nodes below them. -/
theorem decodeLoop_ends {bound : Nat} {s : State} (enough : s.rest.length < bound)
    (innerCur : (s.node s.cur).leaf = false) (innerRoot : (s.node s.root).leaf = false) :
    ∃ cur bits k finish, k ≤ s.input.length ∧
      (finish = State.setPhase phaseCloseD ∨ finish = State.raise .badInput) ∧
      ∀ t, SameInput s t → t.cur = s.cur → t.root = s.root → SameTree s.arena t.arena s.cur →
        SameTree s.arena t.arena s.root →
        decodeLoop bound t = .next (finish { t with cur := cur, output := t.output ++ bits, inPos := k }) := by
  induction bound generalizing s with
  | zero => exact absurd enough (Nat.not_lt_zero _)
  | succ bound ih =>
    obtain ⟨answer, k, hk, shorter, read⟩ := s.readBits_alike 1
    cases answer with
    | none =>
      refine ⟨s.cur, [], k, _, hk, Or.inr rfl, fun t same hc hr _ _ => ?_⟩
      rw [decodeLoop, read t same, List.append_nil, ← hc]
    | some bit =>
      have shorter := Nat.lt_of_lt_of_le (shorter (by decide) (Option.some_ne_none bit)) (Nat.le_of_lt_succ enough)
      let c := childOf (s.node s.cur) bit
      have child : ∀ {t : State}, t.cur = s.cur → SameTree s.arena t.arena s.cur →
          childOf (t.node t.cur) bit = c ∧ SameTree s.arena t.arena c := by
        intro t hc same
        obtain ⟨hl, hr⟩ := same.children innerCur
        refine ⟨by rw [State.node, hc, same.node_eq], ?_⟩
        simp only [c, childOf]
        split
        · exact hl
        · exact hr
      by_cases leaf : (s.node c).leaf = true
      · by_cases last : (s.node c).value = sentinelValue
        · refine ⟨c, [], k, _, hk, Or.inl rfl, fun t same hc hr hcur hroot => ?_⟩
          obtain ⟨ec, samec⟩ := child hc hcur
          rw [decodeLoop, read t same, List.append_nil]
          simp only [State.node] at ec leaf last ⊢
          rw [ec, samec.node_eq, if_pos leaf, if_pos last]
        · let bits := bitsN Config.unitBits (s.node c).value.toNat
          obtain ⟨cur, more, k', f, hk', hf, run⟩ :=
            ih (s := { s with inPos := k, cur := s.root, output := s.output ++ bits }) shorter innerRoot innerRoot
          refine ⟨cur, bits ++ more, k', f, hk', hf, fun t same hc hr hcur hroot => ?_⟩
          obtain ⟨ec, samec⟩ := child hc hcur
          rw [decodeLoop, read t same, ← List.append_assoc]
          simp only [State.node] at ec leaf last ⊢
          rw [ec, samec.node_eq, if_pos leaf, if_neg last]
          exact run { t with inPos := k, cur := t.root, output := t.output ++ bits } ⟨same.input, rfl⟩ hr hr hroot hroot
      · obtain ⟨cur, more, k', f, hk', hf, run⟩ :=
          ih (s := { s with inPos := k, cur := c }) shorter (by simpa using leaf) innerRoot
        refine ⟨cur, more, k', f, hk', hf, fun t same hc hr hcur hroot => ?_⟩
        obtain ⟨ec, samec⟩ := child hc hcur
        rw [decodeLoop, read t same]
        simp only [State.node] at ec leaf ⊢
        rw [ec, samec.node_eq, if_neg leaf]
        exact run { t with inPos := k, cur := c } ⟨same.input, rfl⟩ rfl hr samec hroot

/-- The left children that the walk stack's open nodes wait with are held alike. -/
def FramesAlike (a b : Arena) (frames : List Frame) : Prop :=
  ∀ f ∈ frames, ∀ l, f.left = some l → SameTree a b l

/-- Returning a node reads only the stack: it writes the same entries into every arena, and what it hands on, to the
stack or to ROOT, is held alike where what it was given is. -/
theorem returnNode_alike (frames : List Frame) (h : Handle) :
    ∃ write : Arena → Arena,
      (∃ f rest, (∀ t, returnNode h frames t = { t with arena := write t.arena, walkStack := f :: rest }) ∧
        ∀ a b, SameTree a b h → FramesAlike a b frames → FramesAlike (write a) (write b) (f :: rest)) ∨
      ∃ root,
        (∀ t, returnNode h frames t =
          { t with arena := write t.arena, walkStack := [], root := root, phase := phaseDecode }) ∧
        ∀ a b, SameTree a b h → FramesAlike a b frames → SameTree (write a) (write b) root := by
  induction frames generalizing h with
  | nil => exact ⟨id, Or.inr ⟨h, fun _ => rfl, fun _ _ same _ => same⟩⟩
  | cons f rest ih =>
    obtain ⟨n, _ | l⟩ := f
    · refine ⟨id, Or.inl ⟨_, _, fun _ => rfl, fun a b same alike g hg x hx => ?_⟩⟩
      obtain rfl | hg := List.mem_cons.mp hg
      · cases hx; exact same
      · exact alike g (List.mem_cons_of_mem _ hg) x hx
    · let inner : Node := { leaf := false, value := 0, weight := 0, left := l, right := h }
      have step : ∀ a b, SameTree a b h → FramesAlike a b (⟨n, some l⟩ :: rest) →
          SameTree (a.set n.toNat inner n.isLt) (b.set n.toNat inner n.isLt) n ∧
            FramesAlike (a.set n.toNat inner n.isLt) (b.set n.toNat inner n.isLt) rest := by
        intro a b same alike
        have both : inner.leaf = true ∨ SameTree a b inner.left ∧ SameTree a b inner.right :=
          Or.inr ⟨alike _ (List.mem_cons_self ..) l rfl, same⟩
        exact ⟨SameTree.set both (Or.inl rfl),
          fun g hg x hx => SameTree.set both (Or.inr (alike g (List.mem_cons_of_mem _ hg) x hx))⟩
      obtain ⟨write, ⟨f, more, run, alike'⟩ | ⟨root, run, alike'⟩⟩ := ih n
      · refine ⟨fun a => write (a.set n.toNat inner n.isLt), Or.inl ⟨f, more, fun t => ?_, fun a b same alike => ?_⟩⟩
        · rw [returnNode, run]; rfl
        · obtain ⟨hn, hrest⟩ := step a b same alike
          exact alike' _ _ hn hrest
      · refine ⟨fun a => write (a.set n.toNat inner n.isLt), Or.inr ⟨root, fun t => ?_, fun a b same alike => ?_⟩⟩
        · rw [returnNode, run]; rfl
        · obtain ⟨hn, hrest⟩ := step a b same alike
          exact alike' _ _ hn hrest

/-- A LEAF record reads NALLOC and the walk stack. -/
theorem placeLeaf_alike (v : LeafValue) (s : State) :
    ∃ write : Arena → Arena,
      (∃ f rest,
        (∀ t : State, t.nalloc = s.nalloc → t.walkStack = s.walkStack →
          t.placeLeaf v = { t.allocate with arena := write t.arena, walkStack := f :: rest }) ∧
        ∀ a b, FramesAlike a b s.walkStack → FramesAlike (write a) (write b) (f :: rest)) ∨
      ∃ root,
        (∀ t : State, t.nalloc = s.nalloc → t.walkStack = s.walkStack →
          t.placeLeaf v =
            { t.allocate with arena := write t.arena, walkStack := [], root := root, phase := phaseDecode }) ∧
        ∀ a b, FramesAlike a b s.walkStack → SameTree (write a) (write b) root := by
  let h := s.nextHandle
  let leaf : Node := { leaf := true, value := v, weight := 0, left := 0, right := 0 }
  have place : ∀ t : State, t.nalloc = s.nalloc → t.walkStack = s.walkStack →
      t.placeLeaf v = returnNode h s.walkStack (t.allocate.setNode h leaf) := by
    intro t hn hw
    have ht : t.nextHandle = h := by simp only [h, State.nextHandle, hn]
    rw [State.placeLeaf, ht, hw]
  have isLeaf : ∀ a b, leaf.leaf = true ∨ SameTree a b leaf.left ∧ SameTree a b leaf.right := fun _ _ => Or.inl rfl
  have frames : ∀ a b, FramesAlike a b s.walkStack →
      FramesAlike (a.set h.toNat leaf h.isLt) (b.set h.toNat leaf h.isLt) s.walkStack :=
    fun a b alike f hf l hl => SameTree.set (isLeaf a b) (Or.inr (alike f hf l hl))
  obtain ⟨write, ⟨f, rest, run, alike⟩ | ⟨root, run, alike⟩⟩ := returnNode_alike s.walkStack h
  · refine ⟨fun a => write (a.set h.toNat leaf h.isLt), Or.inl ⟨f, rest, fun t hn hw => ?_, fun a b fr => ?_⟩⟩
    · rw [place t hn hw, run]; rfl
    · exact alike _ _ (SameTree.set (isLeaf a b) (Or.inl rfl)) (frames a b fr)
  · refine ⟨fun a => write (a.set h.toNat leaf h.isLt), Or.inr ⟨root, fun t hn hw => ?_, fun a b fr => ?_⟩⟩
    · rw [place t hn hw, run]; rfl
    · exact alike _ _ (SameTree.set (isLeaf a b) (Or.inl rfl)) (frames a b fr)

theorem State.allocate_nalloc_le {s : State} (room : ¬ s.arenaFull = true) : s.allocate.nalloc.toNat ≤ Config.nodeCap := by
  have free : s.nalloc.toNat < 1024 := by simpa [State.arenaFull] using room
  rw [State.allocate_nalloc_toNat free]
  exact free

/-- Two states agree on what DESERIALIZE's loop reads: the input, NALLOC and the walk stack. -/
structure RecordsAlike (s t : State) : Prop where
  input : SameInput s t
  nalloc : t.nalloc = s.nalloc
  walkStack : t.walkStack = s.walkStack

/-- A run over records ends: it writes the same entries into every arena, and either holds the tree at ROOT alike, or
raises an error. -/
def RecordsEnd (run : State → Host.Outcome State Fault Refusal) (s : State) : Prop :=
  ∃ (write : Arena → Arena) (nalloc : BitVec 11) (k : Nat), k ≤ s.input.length ∧ nalloc.toNat ≤ Config.nodeCap ∧
    ((∃ root,
      (∀ t, RecordsAlike s t → run t = .next
        (({ t with arena := write t.arena, nalloc := nalloc, root := root, walkStack := [], inPos := k } : State).setPhase
          phaseDecode)) ∧
      ∀ a b, FramesAlike a b s.walkStack → SameTree (write a) (write b) root) ∨
    ∃ frames e, ∀ t, RecordsAlike s t → run t = .next
      (({ t with arena := write t.arena, nalloc := nalloc, walkStack := frames, inPos := k } : State).raise e))

/-- A pass that reaches u, writing `first` into the arena, before a run from u that ends. -/
theorem RecordsEnd.after_pass {run run' : State → Host.Outcome State Fault Refusal} {s u : State} {first : Arena → Arena}
    (ends : RecordsEnd run u) (input : u.input = s.input)
    (frames : ∀ a b, FramesAlike a b s.walkStack → FramesAlike (first a) (first b) u.walkStack)
    (pass : ∀ t, RecordsAlike s t → run' t =
      run { t with arena := first t.arena, nalloc := u.nalloc, walkStack := u.walkStack, inPos := u.inPos }) :
    RecordsEnd run' s := by
  have reached : ∀ t, RecordsAlike s t → RecordsAlike u
      { t with arena := first t.arena, nalloc := u.nalloc, walkStack := u.walkStack, inPos := u.inPos } :=
    fun t alike => ⟨⟨alike.input.input.trans input.symm, rfl⟩, rfl, rfl⟩
  obtain ⟨write, n, k, hk, hn, ⟨root, ok, same⟩ | ⟨fs, e, error⟩⟩ := ends
  · exact ⟨write ∘ first, n, k, input ▸ hk, hn, Or.inl ⟨root,
      fun t alike => by rw [pass t alike, ok _ (reached t alike)]; rfl, fun a b alike => same _ _ (frames a b alike)⟩⟩
  · exact ⟨write ∘ first, n, k, input ▸ hk, hn, Or.inr ⟨fs, e,
      fun t alike => by rw [pass t alike, error _ (reached t alike)]; rfl⟩⟩

/-- The part of a pass after a LEAF record's flag. -/
def leafPass (bound : Nat) (s : State) : Host.Outcome State Fault Refusal :=
  match s.readBits Config.valueBits with
  | (none, s) => .next (s.allocate.raise .malformedHeader)
  | (some v, s) =>
    let t := s.placeLeaf (BitVec.ofNat Config.valueBits v)
    if t.walkStack.isEmpty then .next t else recordLoop bound t

/-- A pass whose flag is read, as its branches. -/
theorem recordLoop_flag {bound flag k : Nat} {t : State} (read : t.readBits 1 = (some flag, { t with inPos := k })) :
    recordLoop (bound + 1) t =
      if ({ t with inPos := k } : State).arenaFull then .next (({ t with inPos := k } : State).raise .nodeCapacity)
      else if flag = 0 then recordLoop bound ({ t with inPos := k } : State).openInternal
      else leafPass bound { t with inPos := k } := by
  rw [recordLoop, read]
  rfl

/-- A LEAF record whose value is read is placed. -/
theorem leafPass_value {bound v k : Nat} {t u : State} (read : t.readBits Config.valueBits = (some v, { t with inPos := k }))
    (place : ({ t with inPos := k } : State).placeLeaf (BitVec.ofNat Config.valueBits v) = u) :
    leafPass bound t = if u.walkStack.isEmpty then .next u else recordLoop bound u := by
  rw [leafPass, read, ← place]

/-- A LEAF record's pass ends, when the passes after it do. -/
theorem leafPass_ends {bound : Nat} {s : State} (room : ¬ s.arenaFull = true) (enough : s.rest.length < bound)
    (later : ∀ u : State, u.rest.length < bound → u.nalloc.toNat ≤ Config.nodeCap → RecordsEnd (recordLoop bound) u) :
    RecordsEnd (leafPass bound) s := by
  have cap := State.allocate_nalloc_le room
  obtain ⟨answer, k, hk, shorter, read⟩ := s.readBits_alike Config.valueBits
  cases answer with
  | none =>
    refine ⟨id, s.allocate.nalloc, k, hk, cap, Or.inr ⟨s.walkStack, .malformedHeader, fun t alike => ?_⟩⟩
    rw [leafPass, read t alike.input, ← alike.walkStack, State.allocate_nalloc, ← alike.nalloc]
    rfl
  | some v =>
    have shorter := Nat.lt_trans (shorter (by decide) (Option.some_ne_none v)) enough
    obtain ⟨write, ⟨f, rest, place, frames⟩ | ⟨root, place, same⟩⟩ :=
      placeLeaf_alike (BitVec.ofNat Config.valueBits v) { s with inPos := k }
    · refine (later { s.allocate with inPos := k, walkStack := f :: rest } shorter cap).after_pass (first := write) rfl
        frames fun t alike => ?_
      rw [leafPass_value (read t alike.input) (place { t with inPos := k } alike.nalloc alike.walkStack)]
      simp only [State.allocate, alike.nalloc]
      rfl
    · refine ⟨write, s.allocate.nalloc, k, hk, cap, Or.inl ⟨root, fun t alike => ?_, same⟩⟩
      rw [leafPass_value (read t alike.input) (place { t with inPos := k } alike.nalloc alike.walkStack)]
      simp only [State.allocate, alike.nalloc]
      rfl

/-- DESERIALIZE's loop ends. -/
theorem recordLoop_ends {bound : Nat} {s : State} (enough : s.rest.length < bound)
    (cap : s.nalloc.toNat ≤ Config.nodeCap) : RecordsEnd (recordLoop bound) s := by
  induction bound generalizing s with
  | zero => exact absurd enough (Nat.not_lt_zero _)
  | succ bound ih =>
    obtain ⟨answer, k, hk, shorter, read⟩ := s.readBits_alike 1
    cases answer with
    | none =>
      refine ⟨id, s.nalloc, k, hk, cap, Or.inr ⟨s.walkStack, .malformedHeader, fun t alike => ?_⟩⟩
      rw [recordLoop, read t alike.input, ← alike.nalloc, ← alike.walkStack]
      rfl
    | some flag =>
      have shorter := Nat.lt_of_lt_of_le (shorter (by decide) (Option.some_ne_none flag)) (Nat.le_of_lt_succ enough)
      have pass := fun t (alike : RecordsAlike s t) => recordLoop_flag (bound := bound) (read t alike.input)
      have sameRoom : ∀ t, RecordsAlike s t → ({ t with inPos := k } : State).arenaFull = s.arenaFull := by
        intro t alike
        simp only [State.arenaFull, alike.nalloc]
      by_cases full : s.arenaFull = true
      · refine ⟨id, s.nalloc, k, hk, cap, Or.inr ⟨s.walkStack, .nodeCapacity, fun t alike => ?_⟩⟩
        rw [pass t alike, sameRoom t alike, if_pos full, ← alike.nalloc, ← alike.walkStack]
        rfl
      · by_cases inner : flag = 0
        · refine (ih (s := ({ s with inPos := k } : State).openInternal) shorter
            (State.allocate_nalloc_le full)).after_pass (first := id) rfl (fun a b alike f hf l hl => ?_) fun t alike => ?_
          · obtain rfl | hf := List.mem_cons.mp hf
            · cases hl
            · exact alike f hf l hl
          · rw [pass t alike, sameRoom t alike, if_neg full, if_pos inner]
            simp only [State.openInternal, State.allocate, State.nextHandle, alike.nalloc, alike.walkStack, id]
        · refine (leafPass_ends (s := { s with inPos := k }) full shorter fun u => ih).after_pass (first := id) rfl
            (fun _ _ alike => alike) fun t alike => ?_
          rw [pass t alike, sameRoom t alike, if_neg full, if_neg inner]
          simp only [alike.nalloc, alike.walkStack, id]

end Sys2Proof.Machine
end

section
/-! PROOFS. BUILD: what it leaves is a full tree at handle 512, and the same one in every state with the same counts. -/

namespace Sys2Proof.Machine

variable {before firstLeft : Key → Key → Bool}

/-- The handle of a symbol's leaf (42_tree_builder.md R150). -/
def symbolHandle (x : Symbol) : Handle := BitVec.ofNat 10 x.val

@[simp] theorem symbolHandle_toNat (x : Symbol) : (symbolHandle x).toNat = x.val := by
  have := symbol_lt x
  simp [symbolHandle]
  omega

theorem symbolHandle_injective : Function.Injective symbolHandle := fun x y h =>
  Fin.ext (by rw [← symbolHandle_toNat x, h, symbolHandle_toNat])

/-- The handles below 257 are those of the symbols. -/
theorem exists_symbolHandle {h : Handle} (lt : h.toNat < 257) : ∃ x : Symbol, h = symbolHandle x :=
  ⟨⟨h.toNat, lt⟩, BitVec.eq_of_toNat_eq (symbolHandle_toNat ⟨h.toNat, lt⟩).symm⟩

/-- The key of a symbol's leaf. -/
def State.symbolKey (s : State) (x : Symbol) : Key := { weight := s.count x, handle := symbolHandle x }

/-- The first loop puts every symbol's key into the queue and its leaf into the arena. -/
theorem foldl_placeSymbol (symbols : List Symbol) (s : State) :
    let t := symbols.foldl (placeSymbol before) s
    t.pq.Perm (symbols.map s.symbolKey ++ s.pq) ∧
      ∀ x, t.node (symbolHandle x) = if x ∈ symbols then s.symbolLeaf x else s.node (symbolHandle x) := by
  induction symbols generalizing s with
  | nil => exact ⟨.refl _, fun x => by simp⟩
  | cons y symbols ih =>
    obtain ⟨perm, nodes⟩ := ih (placeSymbol before s y)
    refine ⟨perm.trans ?_, fun x => ?_⟩
    · exact ((insertKey_perm before (s.symbolKey y) s.pq).append_left _).trans List.perm_middle
    · refine (nodes x).trans ?_
      by_cases hx : x ∈ symbols
      · simp only [hx, List.mem_cons, or_true, if_true]
        rfl
      · by_cases hy : x = y
        · subst hy
          simp only [hx, List.mem_cons, true_or, if_true, if_false]
          exact State.node_setNode_self s _ _
        · simp only [hx, hy, List.mem_cons, or_self, if_false]
          exact State.node_setNode_ne (fun e => hy (symbolHandle_injective e))

theorem placeSymbols_pq (s : State) :
    (placeSymbols before s).pq.Perm ((List.finRange Config.symbolCount).map s.symbolKey) := by
  have := (foldl_placeSymbol (before := before) (List.finRange Config.symbolCount) { s with pq := [] }).1
  rw [List.append_nil] at this
  exact this

theorem placeSymbols_node (s : State) (x : Symbol) : (placeSymbols before s).node (symbolHandle x) = s.symbolLeaf x := by
  have := (foldl_placeSymbol (before := before) (List.finRange Config.symbolCount) { s with pq := [] }).2 x
  rw [if_pos (List.mem_finRange x)] at this
  exact this

/-- BUILD after k merges: the queue holds the roots of a forest whose leaves are all the symbols, once each, and the
handles below 257 + k hold the leaves and the nodes merged so far. -/
structure Merging (k : Nat) (s : State) : Prop where
  length : s.pq.length + k = 257
  taken : ∀ x ∈ s.pq, x.handle.toNat < 257 + k
  last : ∀ x, s.pq = [x] → x.handle.toNat = 512
  nodes : ∀ h : Handle,
    (h.toNat < 257 → (s.node h).leaf = true ∧ (s.node h).value.toNat = h.toNat) ∧
    (257 ≤ h.toNat → h.toNat < 257 + k →
      (s.node h).leaf = false ∧ (s.node h).left.toNat < h.toNat ∧ (s.node h).right.toNat < h.toNat)
  forest : ∃ tree : Handle → CodeTree, (∀ x ∈ s.pq, HoldsTree s.arena (tree x.handle) x.handle) ∧
    (s.pq.flatMap fun x => (tree x.handle).values).Perm symbolValues

theorem placeSymbols_merging (s : State) : Merging 0 (placeSymbols before s) := by
  have perm := placeSymbols_pq (before := before) s
  have members : ∀ k ∈ (placeSymbols before s).pq, ∃ x, k = s.symbolKey x := fun k hk => by
    obtain ⟨x, -, rfl⟩ := List.mem_map.mp (perm.mem_iff.mp hk)
    exact ⟨x, rfl⟩
  have length : (placeSymbols before s).pq.length = 257 := by simpa using perm.length_eq
  refine ⟨by rw [length], fun k hk => ?_, fun k hk => ?_, fun h => ⟨fun lt => ?_, fun ge lt => ?_⟩, ?_⟩
  · obtain ⟨x, rfl⟩ := members k hk
    simp only [State.symbolKey, symbolHandle_toNat]
    exact symbol_lt x
  · rw [hk] at length
    cases length
  · obtain ⟨x, rfl⟩ := exists_symbolHandle lt
    rw [placeSymbols_node, symbolHandle_toNat]
    exact ⟨rfl, valueOfSymbol_toNat x⟩
  · omega
  · refine ⟨fun h => .leaf (BitVec.ofNat Config.valueBits h.toNat), fun k hk => ?_, ?_⟩
    · obtain ⟨x, rfl⟩ := members k hk
      have node := placeSymbols_node (before := before) s x
      refine ⟨by rw [← State.node, State.symbolKey, node]; rfl, ?_⟩
      rw [← State.node, State.symbolKey, node, symbolHandle_toNat]
      rfl
    · refine (perm.flatMap_right _).trans (.of_eq ?_)
      rw [List.flatMap_map, symbolValues, ← List.flatMap_singleton' (List.map _ _), List.flatMap_map]
      simp only [State.symbolKey, symbolHandle_toNat]
      rfl

/-- The handle of the k-th merge (42_tree_builder.md R154). -/
def mergeHandle (k : Nat) : Handle := BitVec.ofNat 10 (257 + k)

theorem mergeHandle_toNat {k : Nat} (h : k ≤ 255) : (mergeHandle k).toNat = 257 + k := by
  simp [mergeHandle]
  omega

/-- The key of the k-th merge. -/
def mergeKey (firstLeft : Key → Key → Bool) (k : Nat) (a b : Key) (s : State) : Key :=
  { weight := (mergeNode firstLeft s a b).weight, handle := mergeHandle k }

/-- A merged node is an inner node over the two keys' nodes. -/
theorem mergeNode_children (s : State) (a b : Key) :
    let n := mergeNode firstLeft s a b
    n.leaf = false ∧ (n.left = a.handle ∧ n.right = b.handle ∨ n.left = b.handle ∧ n.right = a.handle) := by
  by_cases order : firstLeft a b = true
  · exact ⟨rfl, Or.inl ⟨by simp [mergeNode, order], by simp [mergeNode, order]⟩⟩
  · exact ⟨rfl, Or.inr ⟨by simp [mergeNode, order], by simp [mergeNode, order]⟩⟩

section

variable {k : Nat} {s : State} {a b : Key} {rest : List Key}

theorem mergeStep_pq :
    (mergeStep before firstLeft k a b rest s).pq = insertKey before (mergeKey firstLeft k a b s) rest := rfl

theorem mergeStep_node_self :
    (mergeStep before firstLeft k a b rest s).node (mergeHandle k) = mergeNode firstLeft s a b :=
  State.node_setNode_self s _ _

variable (m : Merging k s) (hq : s.pq = a :: b :: rest)

include m hq

theorem Merging.rest_length : rest.length + 2 + k = 257 := by
  have := m.length
  rwa [hq] at this

theorem Merging.handle_toNat : (mergeHandle k).toNat = 257 + k :=
  mergeHandle_toNat (by have := m.rest_length hq; omega)

theorem Merging.ne_handle {g : Handle} (lt : g.toNat < 257 + k) : g ≠ mergeHandle k := by
  rintro rfl
  rw [m.handle_toNat hq] at lt
  exact Nat.lt_irrefl _ lt

/-- The two keys' handles are below the merge's. -/
theorem Merging.children_lt :
    (mergeNode firstLeft s a b).left.toNat < 257 + k ∧ (mergeNode firstLeft s a b).right.toNat < 257 + k := by
  have ha : a.handle.toNat < 257 + k := m.taken a (by simp [hq])
  have hb : b.handle.toNat < 257 + k := m.taken b (by simp [hq])
  obtain ⟨-, ⟨hl, hr⟩ | ⟨hl, hr⟩⟩ := mergeNode_children (firstLeft := firstLeft) s a b <;> rw [hl, hr]
  · exact ⟨ha, hb⟩
  · exact ⟨hb, ha⟩

theorem Merging.node_old {g : Handle} (lt : g.toNat < 257 + k) :
    (mergeStep before firstLeft k a b rest s).node g = s.node g :=
  State.node_setNode_ne (m.ne_handle hq lt)

/-- A merge writes at a fresh handle, so it keeps the forest's trees. -/
theorem Merging.holdsTree_old {T : CodeTree} {g : Handle} (lt : g.toNat < 257 + k) (held : HoldsTree s.arena T g) :
    HoldsTree (mergeStep before firstLeft k a b rest s).arena T g := by
  refine held.mono (P := fun g => g.toNat < 257 + k) (fun _ lt => m.node_old hq lt) (fun g lt inner => ?_) lt
  obtain ⟨leaf, node⟩ := m.nodes g
  by_cases sym : g.toNat < 257
  · rw [(leaf sym).1] at inner; cases inner
  · obtain ⟨-, hl, hr⟩ := node (Nat.le_of_not_lt sym) lt
    exact ⟨Nat.lt_trans hl lt, Nat.lt_trans hr lt⟩

theorem Merging.step_nodes (g : Handle) :
    let t := mergeStep before firstLeft k a b rest s
    (g.toNat < 257 → (t.node g).leaf = true ∧ (t.node g).value.toNat = g.toNat) ∧
    (257 ≤ g.toNat → g.toNat < 257 + (k + 1) →
      (t.node g).leaf = false ∧ (t.node g).left.toNat < g.toNat ∧ (t.node g).right.toNat < g.toNat) := by
  intro t
  obtain ⟨leaf, node⟩ := m.nodes g
  refine ⟨fun lt => ?_, fun ge lt => ?_⟩
  · rw [m.node_old hq (by omega)]
    exact leaf lt
  · by_cases hg : g = mergeHandle k
    · subst hg
      rw [mergeStep_node_self, m.handle_toNat hq]
      exact ⟨(mergeNode_children s a b).1, m.children_lt hq⟩
    · have lt' : g.toNat < 257 + k := by
        have : g.toNat ≠ (mergeHandle k).toNat := fun e => hg (BitVec.eq_of_toNat_eq e)
        rw [m.handle_toNat hq] at this
        omega
      rw [m.node_old hq lt']
      exact node ge lt'

/-- A merge takes two trees of the forest and puts the one over both in their place. -/
theorem Merging.step_forest :
    let t := mergeStep before firstLeft k a b rest s
    ∃ tree : Handle → CodeTree, (∀ x ∈ t.pq, HoldsTree t.arena (tree x.handle) x.handle) ∧
      (t.pq.flatMap fun x => (tree x.handle).values).Perm symbolValues := by
  intro t
  obtain ⟨tree, holds, perm⟩ := m.forest
  have taken := m.taken
  simp only [hq, List.mem_cons, forall_eq_or_imp, List.flatMap_cons] at taken holds perm
  obtain ⟨ta, tb, trest⟩ := taken
  obtain ⟨ha, hb, hrest⟩ := holds
  let n := mergeNode firstLeft s a b
  let merged : CodeTree := .node (tree n.left) (tree n.right)
  obtain ⟨inner, children⟩ := mergeNode_children (firstLeft := firstLeft) s a b
  have heldMerged : HoldsTree t.arena merged (mergeHandle k) := by
    have node : nodeAt t.arena (mergeHandle k) = n := mergeStep_node_self
    simp only [merged, HoldsTree, node]
    refine ⟨inner, ?_⟩
    obtain ⟨hl, hr⟩ | ⟨hl, hr⟩ := children <;> simp only [n, hl, hr]
    · exact ⟨m.holdsTree_old hq ta ha, m.holdsTree_old hq tb hb⟩
    · exact ⟨m.holdsTree_old hq tb hb, m.holdsTree_old hq ta ha⟩
  have others : ∀ x ∈ rest, Function.update tree (mergeHandle k) merged x.handle = tree x.handle :=
    fun x hx => Function.update_of_ne (m.ne_handle hq (trest x hx)) ..
  refine ⟨Function.update tree (mergeHandle k) merged, fun x hx => ?_, ?_⟩
  · obtain rfl | hx := mem_insertKey.mp hx
    · exact (Function.update_self (mergeHandle k) merged tree).symm ▸ heldMerged
    · rw [others x hx]
      exact m.holdsTree_old hq (trest x hx) (hrest x hx)
  · refine ((insertKey_perm before (mergeKey firstLeft k a b s) rest).flatMap_right _).trans (.trans ?_ perm)
    rw [List.flatMap_cons, List.flatMap_congr fun x hx => by rw [others x hx]]
    simp only [mergeKey, Function.update_self, merged, CodeTree.values_node, ← List.append_assoc]
    refine .append_right _ ?_
    obtain ⟨hl, hr⟩ | ⟨hl, hr⟩ := children <;> simp only [n, hl, hr]
    · exact .refl _
    · exact List.perm_append_comm

theorem Merging.step : Merging (k + 1) (mergeStep before firstLeft k a b rest s) := by
  have length := m.rest_length hq
  refine ⟨?_, fun x hx => ?_, fun x hx => ?_, m.step_nodes hq, m.step_forest hq⟩
  · rw [mergeStep_pq, length_insertKey]
    omega
  · obtain rfl | hx := mem_insertKey.mp hx
    · exact (m.handle_toNat hq).trans_lt (Nat.lt_succ_self _)
    · exact Nat.lt_succ_of_lt (m.taken x (by simp [hq, hx]))
  · rw [mergeStep_pq] at hx
    have one := length_insertKey before (mergeKey firstLeft k a b s) rest
    rw [hx, List.length_singleton] at one
    obtain rfl : rest = [] := List.length_eq_zero_iff.mp (by omega)
    cases hx
    exact (m.handle_toNat hq).trans (by rw [List.length_nil] at length; omega)

end

/-- What BUILD leaves: NODE_CAP's first 513 nodes, the full tree at the last of them. -/
structure Built (t : State) : Prop where
  arena : BuiltArena t.arena
  root : t.root = BitVec.ofNat 10 (builtNodes - 1)
  nalloc : t.nalloc = BitVec.ofNat 11 builtNodes
  tree : ∃ T, HoldsTree t.arena T t.root ∧ T.IsFull

theorem finishBuild_cons {k : Nat} {s : State} {x : Key} {q : List Key} (hq : s.pq = x :: q) :
    finishBuild k s =
      { s with root := x.handle, nalloc := BitVec.ofNat 11 (257 + k), pq := [], phase := phaseGencodes } := by
  simp only [finishBuild, hq, extractMin]

/-- One key is left: the loop ends. -/
theorem mergeLoop_singleton {bound k : Nat} {s : State} {x : Key} (hq : s.pq = [x]) :
    mergeLoop before firstLeft bound k s = finishBuild k s := by
  cases bound with
  | zero => rfl
  | succ bound => simp only [mergeLoop, hq, extractMin]

theorem mergeLoop_cons_cons {bound k : Nat} {s : State} {a b : Key} {rest : List Key} (hq : s.pq = a :: b :: rest) :
    mergeLoop before firstLeft (bound + 1) k s =
      mergeLoop before firstLeft bound (k + 1) (mergeStep before firstLeft k a b rest s) := by
  simp only [mergeLoop, hq, extractMin]

theorem mergeLoop_built {bound k : Nat} {s : State} (m : Merging k s) (notOver : k ≤ 256) (enough : s.pq.length ≤ bound) :
    Built (mergeLoop before firstLeft bound k s) := by
  induction bound generalizing k s with
  | zero => have := m.length; omega
  | succ bound ih =>
    have length := m.length
    match hq : s.pq with
    | [] => rw [hq, List.length_nil] at length; omega
    | [x] =>
      rw [hq, List.length_singleton] at length
      obtain rfl : k = 256 := by omega
      have last : x.handle = BitVec.ofNat 10 512 := BitVec.eq_of_toNat_eq (m.last x hq)
      obtain ⟨tree, holds, perm⟩ := m.forest
      rw [hq] at holds perm
      rw [mergeLoop_singleton hq, finishBuild_cons hq]
      refine ⟨m.nodes, last, rfl, tree x.handle, holds x (List.mem_singleton_self x), ?_⟩
      simpa [CodeTree.IsFull] using perm
    | a :: b :: rest =>
      have next := m.step (before := before) (firstLeft := firstLeft) hq
      have length' := next.length
      rw [hq, List.length_cons, List.length_cons] at length enough
      rw [mergeLoop_cons_cons hq]
      exact ih next (by omega) (by omega)

theorem buildWith_built (s : State) : Built (buildWith before firstLeft s) :=
  mergeLoop_built (placeSymbols_merging s) (Nat.zero_le _) (Nat.le_refl _)

/-- The queue's nodes are held alike. -/
def QueueAlike (a b : Arena) (q : List Key) : Prop := ∀ x ∈ q, SameTree a b x.handle

/-- The first loop reads the counts alone, and writes every leaf alike. -/
theorem foldl_placeSymbol_alike (symbols : List Symbol) (s : State) :
    ∃ (write : Arena → Arena) (q : List Key),
      (∀ t, t.counts = s.counts → t.pq = s.pq →
        symbols.foldl (placeSymbol before) t = { t with arena := write t.arena, pq := q }) ∧
      ∀ a b, QueueAlike a b s.pq → QueueAlike (write a) (write b) q := by
  induction symbols generalizing s with
  | nil => exact ⟨id, s.pq, fun t _ hq => by rw [← hq]; rfl, fun _ _ same => same⟩
  | cons x symbols ih =>
    obtain ⟨write, q, run, alike⟩ := ih (placeSymbol before s x)
    let leaf := s.symbolLeaf x
    refine ⟨fun a => write (a.set (symbolHandle x).toNat leaf (symbolHandle x).isLt), q,
      fun t hc hq => ?_, fun a b same => ?_⟩
    · have hx : t.count x = s.count x := by simp only [State.count, hc]
      have hl : t.symbolLeaf x = leaf := by simp only [leaf, State.symbolLeaf, hx]
      rw [List.foldl_cons, run (placeSymbol before t x) hc (by simp only [placeSymbol, hx, hq])]
      simp only [placeSymbol, hl, State.setNode]
      rfl
    · refine alike _ _ fun y hy => ?_
      obtain rfl | hy := mem_insertKey.mp hy
      · exact SameTree.set (Or.inl rfl) (Or.inl rfl)
      · exact SameTree.set (Or.inl rfl) (Or.inr (same y hy))

/-- What the merges write: the same entries into every arena, with the tree at ROOT held alike. -/
def MergesAlike (run : State → State) (s : State) : Prop :=
  ∃ (write : Arena → Arena) (nalloc : BitVec 11) (root : Handle),
    ∀ t, t.pq = s.pq → QueueAlike s.arena t.arena s.pq →
      run t = { t with arena := write t.arena, nalloc := nalloc, root := root, pq := [], phase := phaseGencodes } ∧
        SameTree (write s.arena) (write t.arena) root

/-- A merge reads the two keys' nodes. -/
theorem mergeStep_alike {k : Nat} {s t : State} {a b : Key} {rest : List Key}
    (alike : QueueAlike s.arena t.arena (a :: b :: rest)) :
    mergeNode firstLeft t a b = mergeNode firstLeft s a b ∧
      QueueAlike (mergeStep before firstLeft k a b rest s).arena (mergeStep before firstLeft k a b rest t).arena
        (mergeStep before firstLeft k a b rest s).pq := by
  have ha := alike a (List.mem_cons_self ..)
  have hb := alike b (List.mem_cons_of_mem _ (List.mem_cons_self ..))
  have node : mergeNode firstLeft t a b = mergeNode firstLeft s a b := by
    simp only [mergeNode, State.node, ha.node_eq, hb.node_eq]
  have both : SameTree s.arena t.arena (mergeNode firstLeft s a b).left ∧
      SameTree s.arena t.arena (mergeNode firstLeft s a b).right := by
    obtain ⟨-, ⟨hl, hr⟩ | ⟨hl, hr⟩⟩ := mergeNode_children (firstLeft := firstLeft) s a b <;> rw [hl, hr]
    · exact ⟨ha, hb⟩
    · exact ⟨hb, ha⟩
  refine ⟨node, fun x hx => ?_⟩
  simp only [mergeStep, State.setNode, node] at hx ⊢
  obtain rfl | hx := mem_insertKey.mp hx
  · exact SameTree.set (Or.inr both) (Or.inl rfl)
  · exact SameTree.set (Or.inr both) (Or.inr (alike x (List.mem_cons_of_mem _ (List.mem_cons_of_mem _ hx))))

/-- The merges read the queue and its nodes. -/
theorem mergeLoop_alike {bound k : Nat} {s : State} (nonempty : s.pq ≠ []) (enough : s.pq.length ≤ bound) :
    MergesAlike (mergeLoop before firstLeft bound k) s := by
  induction bound generalizing k s with
  | zero => exact absurd (List.length_eq_zero_iff.mp (Nat.le_zero.mp enough)) nonempty
  | succ bound ih =>
    match hs : s.pq with
    | [] => exact absurd hs nonempty
    | [x] =>
      refine ⟨id, BitVec.ofNat 11 (257 + k), x.handle, fun t hq alike => ?_⟩
      rw [hs] at hq alike
      rw [mergeLoop_singleton hq, finishBuild_cons hq]
      exact ⟨rfl, alike x (List.mem_singleton_self x)⟩
    | a :: b :: rest =>
      have length : (mergeStep before firstLeft k a b rest s).pq.length = rest.length + 1 := length_insertKey ..
      rw [hs] at enough
      obtain ⟨write, nalloc, root, run⟩ := ih (k := k + 1) (s := mergeStep before firstLeft k a b rest s)
        (List.ne_nil_of_length_eq_add_one length) (by rw [length]; exact Nat.le_of_succ_le_succ enough)
      let n := mergeNode firstLeft s a b
      refine ⟨fun a => write (a.set (mergeHandle k).toNat n (mergeHandle k).isLt), nalloc, root, fun t hq alike => ?_⟩
      rw [hs] at hq alike
      obtain ⟨node, alike'⟩ := mergeStep_alike (before := before) (firstLeft := firstLeft) (k := k) alike
      obtain ⟨result, same⟩ := run (mergeStep before firstLeft k a b rest t) (by simp only [mergeStep, node]) alike'
      rw [mergeLoop_cons_cons hq, result]
      simp only [mergeStep, State.setNode, node] at same ⊢
      exact ⟨rfl, same⟩

/-- BUILD reads the counts. -/
theorem buildWith_alike (s : State) :
    ∃ (write : Arena → Arena) (nalloc : BitVec 11) (root : Handle),
      ∀ t, t.counts = s.counts →
        buildWith before firstLeft t =
            { t with arena := write t.arena, nalloc := nalloc, root := root, pq := [], phase := phaseGencodes } ∧
          SameTree (write s.arena) (write t.arena) root := by
  obtain ⟨place, q, placed, alike⟩ :=
    foldl_placeSymbol_alike (before := before) (List.finRange Config.symbolCount) { s with pq := [] }
  have placed : ∀ t, t.counts = s.counts → placeSymbols before t = { t with arena := place t.arena, pq := q } :=
    fun t hc => placed { t with pq := [] } hc rfl
  have length : q.length = 257 := by
    have := (placeSymbols_merging (before := before) s).length
    rwa [placed s rfl] at this
  obtain ⟨write, nalloc, root, run⟩ :=
    mergeLoop_alike (before := before) (firstLeft := firstLeft) (bound := q.length) (k := 0)
    (s := placeSymbols before s) (by rw [placed s rfl]; exact List.ne_nil_of_length_eq_add_one length)
    (by rw [placed s rfl])
  refine ⟨fun a => write (place a), nalloc, root, fun t hc => ?_⟩
  rw [placed s rfl] at run
  have := run { t with arena := place t.arena, pq := q } rfl (alike _ _ fun x hx => absurd hx List.not_mem_nil)
  rw [buildWith, placed t hc]
  exact this

end Sys2Proof.Machine
end

section
/-! PROOFS. GENCODES and WRITE_HEADER: their walks end where ROOT holds a tree, and read that tree alone. -/

namespace Sys2Proof

open Machine

/-- What GENCODES writes for a tree whose root is at depth d with the path p (43_code_table.md R170). -/
def CodeTree.recordCodes : CodeTree → Nat → Nat → CodeTable → Except Fault CodeTable
  | .leaf v, d, p, code =>
    if h : v.toNat < Config.symbolCount then .ok (code.set v.toNat (mkCode d p) h) else .error .noCodeEntry
  | .node l r, d, p, code =>
    match l.recordCodes (d + 1) (2 * p + 0) code with
    | .error r => .error r
    | .ok code => r.recordCodes (d + 1) (2 * p + 1) code

theorem CodeTree.recordCodes_ne_phaseNeverEnds (T : CodeTree) (d p : Nat) (code : CodeTable) :
    T.recordCodes d p code ≠ .error .phaseNeverEnds := by
  induction T generalizing d p code with
  | leaf v =>
    rw [recordCodes]
    split <;> simp
  | node l r ihl ihr =>
    rw [recordCodes]
    split
    · next e he =>
      intro h
      exact ihl _ _ _ (he.trans h)
    · exact ihr _ _ _

/-- Every leaf with an entry gets one, whatever the table held; the entries of other symbols stay. -/
theorem CodeTree.recordCodes_alike {T : CodeTree} (symbols : ∀ v ∈ T.values, v.toNat < 257) (d p : Nat)
    (code code' : CodeTable) :
    ∃ new new', T.recordCodes d p code = .ok new ∧ T.recordCodes d p code' = .ok new' ∧
      ∀ x : Symbol, valueOfSymbol x ∈ T.values ∨ code[x] = code'[x] → new[x] = new'[x] := by
  induction T generalizing d p code code' with
  | leaf v =>
    have lt := symbols v (List.mem_singleton_self v)
    refine ⟨_, _, dif_pos lt, dif_pos lt, fun x hx => ?_⟩
    by_cases e : v.toNat = x.val
    · simp [e]
    · have other : valueOfSymbol x ≠ v := fun h => e (by rw [← h, valueOfSymbol_toNat])
      have := hx.resolve_left (by simpa using other)
      simpa [Vector.getElem_set_ne, e] using this
  | node l r ihl ihr =>
    rw [values_node] at symbols
    obtain ⟨m, m', hm, hm', left⟩ := ihl (fun v hv => symbols v (List.mem_append_left _ hv)) (d + 1) (2 * p + 0) code code'
    obtain ⟨n, n', hn, hn', right⟩ := ihr (fun v hv => symbols v (List.mem_append_right _ hv)) (d + 1) (2 * p + 1) m m'
    refine ⟨n, n', by simp only [recordCodes, hm, hn], by simp only [recordCodes, hm', hn'], fun x hx => right x ?_⟩
    rw [values_node, List.mem_append] at hx
    obtain (hl | hr) | old := hx
    · exact Or.inr (left x (Or.inl hl))
    · exact Or.inl hr
    · exact Or.inr (left x (Or.inr old))

namespace Machine

/-- `walk` over a tree that its handle holds reads the tree and the code table. -/
theorem walk_holdsTree {T : CodeTree} {bound : Nat} {h : Handle} {s : State} (held : HoldsTree s.arena T h)
    (enough : T.levels ≤ bound) (d p : Nat) :
    walk bound h d p s = (T.recordCodes d p s.code).map fun code => { s with code := code } := by
  induction T generalizing bound h s d p with
  | leaf v =>
    obtain ⟨leaf, value⟩ := held
    cases bound with
    | zero => exact absurd enough (by simp [CodeTree.levels])
    | succ bound =>
      rw [walk, if_pos leaf, State.node, value, setCodeOfLeaf, CodeTree.recordCodes]
      split <;> rfl
  | node l r ihl ihr =>
    obtain ⟨inner, hl, hr⟩ := held
    cases bound with
    | zero => exact absurd enough (by simp [CodeTree.levels])
    | succ bound =>
      simp only [CodeTree.levels] at enough
      rw [walk, if_neg (by simp [inner]), ihl hl (by omega), CodeTree.recordCodes]
      cases l.recordCodes (d + 1) (2 * p + 0) s.code with
      | error e => rfl
      | ok code => exact ihr (s := { s with code := code }) hr (by omega) _ _

/-- A walk that ends has walked a tree. -/
theorem exists_tree_of_walk {bound : Nat} {h : Handle} {d p : Nat} {s t : State} (ok : walk bound h d p s = .ok t) :
    ∃ T, HoldsTree s.arena T h := by
  induction bound generalizing h d p s t with
  | zero => cases ok
  | succ bound ih =>
    rw [walk] at ok
    split at ok
    · next leaf => exact ⟨.leaf _, leaf, rfl⟩
    · next inner =>
      split at ok
      · cases ok
      · next u hu =>
        obtain ⟨l, hl⟩ := ih hu
        obtain ⟨code, rfl⟩ := walk_frame hu
        obtain ⟨r, hr⟩ := ih ok
        exact ⟨.node l r, by simpa using inner, hl, hr⟩

/-- `ser` answers a state or the bound's fault; a state only where it has walked a tree. -/
theorem ser_cases (bound : Nat) (h : Handle) (s : State) :
    ser bound h s = .error .phaseNeverEnds ∨ (∃ t, ser bound h s = .ok t) ∧ ∃ T, HoldsTree s.arena T h := by
  induction bound generalizing h s with
  | zero => exact Or.inl rfl
  | succ bound ih =>
    rw [ser]
    split
    · next leaf => exact Or.inr ⟨⟨_, rfl⟩, .leaf _, leaf, rfl⟩
    · next inner =>
      obtain e | ⟨⟨t, e⟩, l, hl⟩ := ih (s.node h).left (s.writeBits 1 0)
      · exact Or.inl (by rw [e])
      · obtain ⟨output, rfl⟩ := ser_frame e
        rw [e]
        obtain e' | ⟨⟨u, e'⟩, r, hr⟩ := ih (s.node h).right { s.writeBits 1 0 with output := output }
        · exact Or.inl e'
        · exact Or.inr ⟨⟨u, e'⟩, .node l r, by simpa using inner, hl, hr⟩

/-- WRITE_HEADER where ROOT holds a tree. -/
theorem execWriteHeader_holdsTree {s : State} {T : CodeTree} (held : HoldsTree s.arena T s.root) :
    exec .writeHeader s =
      .next { s with output := s.output ++ (bitsN Config.magicBits Config.magic ++ T.records), phase := phaseRewind } := by
  have := ser_holdsTree (s := s.writeBits Config.magicBits Config.magic) held held.levels_le
  rw [exec, execWriteHeader, this, ← List.append_assoc]
  rfl

/-- GENCODES where ROOT holds a tree. -/
theorem execGencodes_holdsTree {s : State} {T : CodeTree} (held : HoldsTree s.arena T s.root) :
    exec .gencodes s =
      ofWalk ((T.recordCodes 0 0 s.code).map fun code => { s with code := code, phase := phaseWriteHeader }) := by
  rw [exec, execGencodes, walk_holdsTree held held.levels_le]
  cases T.recordCodes 0 0 s.code <;> rfl

theorem execWriteHeader_no_tree {s : State} (none : ¬ ∃ T, HoldsTree s.arena T s.root) :
    exec .writeHeader s = .fault .phaseNeverEnds := by
  have := (ser_cases Config.nodeCap s.root (s.writeBits Config.magicBits Config.magic)).resolve_right fun h => none h.2
  rw [exec, execWriteHeader, this]
  rfl

theorem exists_tree_of_writeHeader {s t : State} (h : exec .writeHeader s = .next t) : ∃ T, HoldsTree s.arena T s.root := by
  by_contra none
  rw [execWriteHeader_no_tree none] at h
  cases h

theorem exists_tree_of_gencodes {s t : State} (h : exec .gencodes s = .next t) : ∃ T, HoldsTree s.arena T s.root := by
  rw [exec, execGencodes] at h
  cases e : walk Config.nodeCap s.root 0 0 s with
  | error r => rw [e] at h; cases h
  | ok u => exact exists_tree_of_walk e

/-- Settles O31: `ser` ends exactly on a tree, and on a tree `walk` stops only for want of an entry. -/
theorem walksStopOnlyOnCycles : Obligations.WalksStopOnlyOnCycles := by
  refine fun s => ⟨⟨fun fault => ?_, execWriteHeader_no_tree⟩, fun fault => ?_⟩
  · rintro ⟨T, held⟩
    rw [execWriteHeader_holdsTree held] at fault
    cases fault
  · rintro ⟨T, held⟩
    rw [execGencodes_holdsTree held] at fault
    have other := T.recordCodes_ne_phaseNeverEnds 0 0 s.code
    cases e : T.recordCodes 0 0 s.code with
    | error r => rw [e] at fault other; cases fault; exact other rfl
    | ok code => rw [e] at fault; cases fault

end Machine

/-- A built arena holds a tree over the symbols at every handle that BUILD writes. -/
theorem BuiltArena.holdsTree {arena : Arena} (b : BuiltArena arena) {h : Handle} (lt : h.toNat < 513) :
    ∃ T, HoldsTree arena T h ∧ ∀ v ∈ T.values, v.toNat < 257 := by
  induction n : h.toNat using Nat.strong_induction_on generalizing h with
  | _ n ih =>
    subst n
    obtain ⟨low, high⟩ := b.at_handle h
    by_cases sym : h.toNat < 257
    · obtain ⟨leaf, value⟩ := low sym
      refine ⟨.leaf _, ⟨leaf, rfl⟩, fun v hv => ?_⟩
      rw [List.mem_singleton.mp hv, value]
      exact sym
    · obtain ⟨inner, hl, hr⟩ := high (Nat.le_of_not_lt sym) lt
      obtain ⟨l, heldl, symbolsl⟩ := ih _ hl (by omega) rfl
      obtain ⟨r, heldr, symbolsr⟩ := ih _ hr (by omega) rfl
      refine ⟨.node l r, ⟨inner, heldl, heldr⟩, fun v hv => ?_⟩
      rw [CodeTree.values_node, List.mem_append] at hv
      exact hv.elim (symbolsl v) (symbolsr v)

end Sys2Proof
end

section
/-! PROOFS. What the instructions that read the input, or build, answer in every state that agrees on the fields they
read. -/

namespace Sys2Proof.Machine

theorem SameInput.rest_length {s t : State} (same : SameInput s t) : t.rest.length = s.rest.length := by
  rw [State.rest_congr same.input same.inPos]

/-- COUNT reads the input. -/
theorem execCount_ends (s : State) :
    ∃ counts total k finish, k ≤ s.input.length ∧
      (finish = State.setPhase phaseBuild ∨ finish = State.raise .inputTooLong) ∧
      ∀ t, SameInput s t → exec .count t = .next (finish { t with counts := counts, total := total, inPos := k }) := by
  obtain ⟨counts, total, k, finish, hk, hf, run⟩ := countLoop_ends (s := s.clearCounts) (Nat.lt_succ_self _)
  refine ⟨counts, total, k, finish, hk, hf, fun t same => ?_⟩
  rw [exec, execCount, same.rest_length]
  exact run t.clearCounts ⟨same.input, same.inPos⟩ rfl rfl

/-- BUILD reads the counts. -/
theorem execBuild_ends (s : State) :
    ∃ (write : Arena → Arena) (nalloc : BitVec 11) (root : Handle),
      ∀ t, t.counts = s.counts →
        exec .build t = .next
            { t with arena := write t.arena, nalloc := nalloc, root := root, pq := [], phase := phaseGencodes } ∧
          SameTree (write s.arena) (write t.arena) root := by
  obtain ⟨write, nalloc, root, run⟩ := buildWith_alike (before := tieBefore) (firstLeft := firstIsLeft) s
  refine ⟨write, nalloc, root, fun t counts => ?_⟩
  obtain ⟨result, same⟩ := run t counts
  exact ⟨by rw [exec, execBuild, result], same⟩

/-- BUILD leaves the full tree. -/
theorem execBuild_built {s t : State} (h : exec .build s = .next t) : Built t := by
  rw [exec, execBuild, Host.Outcome.next.injEq] at h
  exact h ▸ buildWith_built s

/-- ENCODE reads the input and the code table. -/
theorem execEncode_ends (s : State) :
    ∃ bits k, k ≤ s.input.length ∧ ∀ t, SameInput s t → t.code = s.code →
      exec .encode t = .next (({ t with output := t.output ++ bits, inPos := k } : State).setPhase phaseCloseC) := by
  obtain ⟨bits, k, hk, run⟩ := encodeLoop_ends (s := s) (Nat.lt_succ_self _)
  refine ⟨bits, k, hk, fun t same code => ?_⟩
  rw [exec, execEncode, same.rest_length]
  exact run t same code

/-- READ_MAGIC reads the input. -/
theorem execReadMagic_ends (s : State) :
    ∃ k finish, k ≤ s.input.length ∧
      (finish = State.setPhase phaseDeserialize ∨ finish = State.raise .invalidMagicNumber) ∧
      ∀ t, SameInput s t → exec .readMagic t = .next (finish { t with inPos := k }) := by
  obtain ⟨answer, k, hk, -, read⟩ := s.readBits_alike Config.magicBits
  by_cases magic : answer = some Config.magic
  · exact ⟨k, _, hk, Or.inl rfl, fun t same => by rw [exec, execReadMagic, read t same, magic]; rfl⟩
  · refine ⟨k, _, hk, Or.inr rfl, fun t same => ?_⟩
    rw [exec, execReadMagic, read t same]
    cases answer with
    | none => rfl
    | some v => exact if_neg (fun e => magic (congrArg some e))

/-- DESERIALIZE reads the input. -/
theorem execDeserialize_ends (s : State) :
    ∃ (write : Arena → Arena) (nalloc : BitVec 11) (k : Nat), k ≤ s.input.length ∧ nalloc.toNat ≤ Config.nodeCap ∧
      ((∃ root,
        (∀ t, SameInput s t → exec .deserialize t = .next
          (({ t with arena := write t.arena, nalloc := nalloc, root := root, walkStack := [], inPos := k } : State).setPhase
            phaseDecode)) ∧
        ∀ a b, SameTree (write a) (write b) root) ∨
      ∃ frames e, ∀ t, SameInput s t → exec .deserialize t = .next
        (({ t with arena := write t.arena, nalloc := nalloc, walkStack := frames, inPos := k } : State).raise e)) := by
  have reset : ∀ t, SameInput s t →
      exec .deserialize t = recordLoop (s.rest.length + 1) { t with nalloc := 0, walkStack := [] } ∧
        RecordsAlike { s with nalloc := 0, walkStack := [] } { t with nalloc := 0, walkStack := [] } := fun t same =>
    ⟨by rw [exec, execDeserialize, same.rest_length], ⟨same.input, same.inPos⟩, rfl, rfl⟩
  obtain ⟨write, nalloc, k, hk, hn, ⟨root, run, alike⟩ | ⟨frames, e, run⟩⟩ :=
    recordLoop_ends (s := { s with nalloc := 0, walkStack := [] }) (Nat.lt_succ_self _) (Nat.zero_le _)
  · refine ⟨write, nalloc, k, hk, hn, Or.inl ⟨root, fun t same => ?_, fun a b => alike a b ?_⟩⟩
    · obtain ⟨start, same⟩ := reset t same
      exact start.trans (run _ same)
    · exact fun f hf => absurd hf List.not_mem_nil
  · refine ⟨write, nalloc, k, hk, hn, Or.inr ⟨frames, e, fun t same => ?_⟩⟩
    obtain ⟨start, same⟩ := reset t same
    exact start.trans (run _ same)

/-- DECODE reads the input and the tree at ROOT. -/
theorem execDecode_ends (s : State) :
    (∀ t : State, t.root = s.root → SameTree s.arena t.arena s.root →
      exec .decode t = .next (t.raise .degenerateTree)) ∨
    ∃ cur bits k finish, k ≤ s.input.length ∧
      (finish = State.setPhase phaseCloseD ∨ finish = State.raise .badInput) ∧
      ∀ t, SameInput s t → t.root = s.root → SameTree s.arena t.arena s.root →
        exec .decode t = .next (finish { t with cur := cur, output := t.output ++ bits, inPos := k }) := by
  by_cases leaf : (s.node s.root).leaf = true
  · refine Or.inl fun t root same => ?_
    have leaf' : (t.node t.root).leaf = true := by rw [State.node, root, same.node_eq]; exact leaf
    exact if_pos leaf'
  · have inner : (s.node s.root).leaf = false := by simpa using leaf
    obtain ⟨cur, bits, k, finish, hk, hf, run⟩ :=
      decodeLoop_ends (s := { s with cur := s.root }) (Nat.lt_succ_self _) inner inner
    refine Or.inr ⟨cur, bits, k, finish, hk, hf, fun t same root tree => ?_⟩
    have inner' : ¬ (t.node t.root).leaf = true := by rw [State.node, root, tree.node_eq]; exact leaf
    refine (if_neg inner').trans ?_
    rw [same.rest_length]
    exact run { t with cur := t.root } ⟨same.input, same.inPos⟩ root root tree tree

/-- s with another host side: the pending moves, the last read data, the bytes taken. -/
def State.withHostSide (host : List HostAction) (readData : Word) (taken : List Byte) (s : State) : State :=
  { s with host := host, readData := readData, taken := taken }

theorem exec_of_run {i : Instr} {s s' t u : State} {change : State → State} (h : exec i s = .next t)
    (run : exec i s = .next u) (run' : exec i s' = .next (change u)) : exec i s' = .next (change t) := by
  rw [run] at h
  cases h
  exact run'

/-- Settles O48: each instruction's meaning, said over every state that agrees on what it reads, is taken at the two
states. -/
theorem instructionsIgnoreTheHostSide : Obligations.InstructionsIgnoreTheHostSide := by
  intro i s t host readData taken h
  let change := State.withHostSide host readData taken
  have input : SameInput s (change s) := ⟨rfl, rfl⟩
  show exec i (change s) = .next (change t)
  cases i with
  | compress | decompress =>
    by_cases busy : s.busy = true
    · exact exec_of_run h (if_pos busy) (if_pos busy)
    · exact exec_of_run h (if_neg busy) (if_neg busy)
  | idle | closeC | closeD => exact exec_of_run h rfl rfl
  | count =>
    obtain ⟨_, _, _, _, -, rfl | rfl, run⟩ := execCount_ends s
    all_goals exact exec_of_run h (run s (.refl s)) (run (change s) input)
  | build =>
    obtain ⟨_, _, _, run⟩ := execBuild_ends s
    exact exec_of_run h (run s rfl).1 (run (change s) rfl).1
  | gencodes =>
    obtain ⟨T, held⟩ := exists_tree_of_gencodes h
    have run := execGencodes_holdsTree held
    have run' := execGencodes_holdsTree (s := change s) held
    cases e : T.recordCodes 0 0 s.code with
    | error r => rw [run, e] at h; cases h
    | ok code =>
      have e' : T.recordCodes 0 0 (change s).code = .ok code := e
      exact exec_of_run h (run.trans (by rw [e]; rfl)) (run'.trans (by rw [e']; rfl))
  | writeHeader =>
    obtain ⟨T, held⟩ := exists_tree_of_writeHeader h
    exact exec_of_run h (execWriteHeader_holdsTree held) (execWriteHeader_holdsTree (s := change s) held)
  | rewind =>
    obtain ⟨rewindable, -⟩ := exec_shape h
    exact exec_of_run h (if_pos rewindable) (if_pos rewindable)
  | encode =>
    obtain ⟨_, _, -, run⟩ := execEncode_ends s
    exact exec_of_run h (run s (.refl s) rfl) (run (change s) input rfl)
  | readMagic =>
    obtain ⟨_, _, -, rfl | rfl, run⟩ := execReadMagic_ends s
    all_goals exact exec_of_run h (run s (.refl s)) (run (change s) input)
  | deserialize =>
    obtain ⟨_, _, _, -, -, ⟨_, run, -⟩ | ⟨_, _, run⟩⟩ := execDeserialize_ends s
    all_goals exact exec_of_run h (run s (.refl s)) (run (change s) input)
  | decode =>
    obtain run | ⟨_, _, _, _, -, rfl | rfl, run⟩ := execDecode_ends s
    · exact exec_of_run h (run s rfl (.refl ..)) (run (change s) rfl (.refl ..))
    all_goals exact exec_of_run h (run s (.refl s) rfl (.refl ..)) (run (change s) input rfl (.refl ..))
  | internal =>
    by_cases full : s.arenaFull = true
    · exact exec_of_run h (if_pos full) (if_pos full)
    · exact exec_of_run h (if_neg full) (if_neg full)
  | leaf v =>
    by_cases full : s.arenaFull = true
    · exact exec_of_run h (if_pos full) (if_pos full)
    · obtain ⟨_, ⟨_, _, run, -⟩ | ⟨_, run, -⟩⟩ := placeLeaf_alike v s
      all_goals
        exact exec_of_run h ((if_neg full).trans (congrArg _ (run s rfl rfl)))
          ((if_neg full).trans (congrArg _ (run (change s) rfl rfl)))

end Sys2Proof.Machine
end

section
/-! PROOFS. The invariant: the forms in which a phase ends keep it, every phase ends in one of them, and so does every
move of the host. -/

namespace Sys2Proof

namespace Machine

/-- PHASE names an instruction where it holds 0 to 11, the one whose word it is (30_encoding.md R104). -/
theorem decodePhase_of_legal {p : PhaseCode} (legal : p.toNat ≤ 11) :
    ∃ i, decodePhase p = .ok i ∧ encode i = .phase p := by
  have table : ∀ p : PhaseCode, p.toNat ≤ 11 → (decodePhase p).toOption.map encode = some (.phase p) := by decide
  have entry := table p legal
  cases h : decodePhase p with
  | error r => rw [h] at entry; cases entry
  | ok i => rw [h] at entry; exact ⟨i, rfl, Option.some.inj entry⟩

/-- A word written to CMD names one of the two commands (30_encoding.md R105). -/
theorem decodeCommand_cases {w : Word} {i : Instr} (h : decodeCommand w = .ok i) : i = .compress ∨ i = .decompress := by
  unfold decodeCommand at h
  split at h
  · cases h; exact Or.inl rfl
  · split at h
    all_goals cases h
    exact Or.inr rfl

theorem Error.code_le (e : Error) : e.code.toNat ≤ 7 := by
  cases e <;> decide

end Machine

open Machine

/-- Two states hold the same STATUS, PHASE and OP. -/
def SameStatus (s t : State) : Prop :=
  (t.busy, t.done, t.err, t.errCode, t.phase, t.op) = (s.busy, s.done, s.err, s.errCode, s.phase, s.op)

/-- An error keeps the invariant: it clears BUSY and DONE. -/
theorem Inv.raise {s u : State} {e : Error} (inv : Inv s) (same : SameStatus s u) (memories : MemoriesLegal u) :
    Inv (u.raise e) := by
  obtain ⟨⟨-, -, -, -, -, phase⟩, ⟨op, -, -⟩, -, -⟩ := inv
  simp only [SameStatus, Prod.mk.injEq] at same
  obtain ⟨-, -, -, -, hphase, hop⟩ := same
  have status : StatusLegal (u.raise e) := ⟨rfl, rfl, rfl, e.code_le, nofun, hphase ▸ phase⟩
  exact ⟨status, ⟨hop ▸ op, nofun, nofun⟩, memories, nofun⟩

/-- IllegalCommand keeps the invariant: it leaves IDLE in PHASE. -/
theorem Inv.illegal {s : State} (inv : Inv s) : Inv s.illegal := by
  obtain ⟨-, ⟨op, -, -⟩, memories, -⟩ := inv
  have status : StatusLegal s.illegal := ⟨rfl, rfl, rfl, Nat.le_refl 7, nofun, Nat.zero_le _⟩
  exact ⟨status, ⟨op, nofun, fun _ _ => rfl⟩, memories, nofun⟩

/-- Completion keeps the invariant. -/
theorem Inv.complete {s u : State} (inv : Inv s) (same : SameStatus s u) (memories : MemoriesLegal u) : Inv u.complete := by
  obtain ⟨-, ⟨op, -, -⟩, -, -⟩ := inv
  simp only [SameStatus, Prod.mk.injEq] at same
  obtain ⟨-, -, -, -, -, hop⟩ := same
  have status : StatusLegal u.complete := ⟨rfl, rfl, rfl, Nat.zero_le _, fun _ => rfl, Nat.zero_le _⟩
  exact ⟨status, ⟨hop ▸ op, nofun, fun _ _ => rfl⟩, memories, nofun⟩

/-- A phase handing over to its successor keeps the invariant, when it leaves a built tree to the phases that walk one. -/
theorem Inv.handOver {s u : State} {p q : PhaseCode} (inv : Inv s) (busy : s.busy = true) (phase : s.phase = p)
    (follows : q.toNat = p.toNat + 1 ∧ p.toNat ≠ 7 ∧ p.toNat ≠ 11) (same : SameStatus s u) (memories : MemoriesLegal u)
    (tree : q = phaseGencodes ∨ q = phaseWriteHeader → BuiltArena u.arena ∧ u.root = BitVec.ofNat 10 (builtNodes - 1)) :
    Inv (u.setPhase q) := by
  subst phase
  obtain ⟨⟨hbd, hbe, hde, code, noErr, -⟩, ⟨op, running, -⟩, -, -⟩ := inv
  simp only [SameStatus, Prod.mk.injEq] at same
  obtain ⟨hbusy, hdone, herr, hcode, -, hop⟩ := same
  have legal : u.op = 1 ∧ 1 ≤ q.toNat ∧ q.toNat ≤ 7 ∨ u.op = 2 ∧ 8 ≤ q.toNat ∧ q.toNat ≤ 11 := by
    rw [hop]
    exact (running busy).imp (fun ⟨h, _⟩ => ⟨h, by omega⟩) (fun ⟨h, _⟩ => ⟨h, by omega⟩)
  have status : StatusLegal (u.setPhase q) := by
    refine ⟨?_, ?_, ?_, ?_, ?_, show q.toNat ≤ 11 by omega⟩
    all_goals simp only [State.setPhase_busy, State.setPhase_done, State.setPhase_err, State.setPhase_errCode, hbusy, hdone,
      herr, hcode]
    all_goals assumption
  have notIdle : u.busy ≠ false := by rw [hbusy, busy]; exact nofun
  exact ⟨status, ⟨hop ▸ op, fun _ => legal, fun idle => absurd idle notIdle⟩, memories, fun _ => tree⟩

/-- Acceptance keeps the invariant: it starts a command at a phase of it that walks no tree. -/
theorem Inv.accept {s : State} {op : BitVec 2} {first : PhaseCode} (inv : Inv s)
    (start : op = 1 ∧ 1 ≤ first.toNat ∧ first.toNat ≤ 7 ∨ op = 2 ∧ 8 ≤ first.toNat ∧ first.toNat ≤ 11)
    (noWalk : ¬ (first = phaseGencodes ∨ first = phaseWriteHeader)) : Inv (s.accept op first) := by
  obtain ⟨-, -, memories, -⟩ := inv
  have phase : first.toNat ≤ 11 := by omega
  have command : op.toNat ≤ 2 := by
    obtain ⟨rfl, -⟩ | ⟨rfl, -⟩ := start <;> decide
  have status : StatusLegal (s.accept op first) := ⟨rfl, rfl, rfl, Nat.zero_le _, fun _ => rfl, phase⟩
  exact ⟨status, ⟨command, fun _ => start, nofun⟩, memories, fun _ walk => absurd walk noWalk⟩

/-- The commands keep the invariant, while idle and while busy. -/
theorem Inv.command {i : Instr} {s t : State} (inv : Inv s) (command : i = .compress ∨ i = .decompress)
    (h : exec i s = .next t) : Inv t := by
  obtain rfl | rfl := command
  all_goals obtain ⟨-, rfl⟩ | ⟨-, rfl⟩ := exec_shape h
  · exact inv
  · exact inv.accept (by decide) (by decide)
  · exact inv
  · exact inv.accept (by decide) (by decide)

/-- Every phase that PHASE names keeps the invariant. -/
theorem Inv.phase {i : Instr} {s t : State} (inv : Inv s) (busy : s.busy = true) (named : encode i = .phase s.phase)
    (h : exec i s = .next t) : Inv t := by
  have ⟨_, _, memories, ready⟩ := inv
  have ⟨cursor, bytes, pq, nalloc⟩ := memories
  cases i with
  | compress | decompress | internal | leaf v => cases named
  | idle => obtain rfl := exec_shape h; exact inv
  | count =>
    have phase : s.phase = phaseCount := (CodeWord.phase.inj named).symm
    obtain ⟨_, _, k, _, hk, hf, run⟩ := execCount_ends s
    rw [run s (.refl s), Host.Outcome.next.injEq] at h
    subst h
    obtain rfl | rfl := hf
    · exact inv.handOver busy phase (by decide) rfl ⟨hk, bytes, pq, nalloc⟩ fun walk => absurd walk (by decide)
    · exact inv.raise rfl ⟨hk, bytes, pq, nalloc⟩
  | build =>
    have phase : s.phase = phaseBuild := (CodeWord.phase.inj named).symm
    have ⟨arena, root, count, _⟩ := execBuild_built h
    obtain ⟨a, n, r, rfl⟩ := exec_shape h
    have room : n.toNat ≤ Config.nodeCap := by
      rw [show n = BitVec.ofNat 11 builtNodes from count]
      decide
    exact inv.handOver (u := { s with arena := a, nalloc := n, root := r, pq := [] }) busy phase (by decide) rfl
      ⟨cursor, bytes, rfl, room⟩ fun _ => ⟨arena, root⟩
  | gencodes =>
    have phase : s.phase = phaseGencodes := (CodeWord.phase.inj named).symm
    obtain ⟨c, rfl⟩ := exec_shape h
    exact inv.handOver (u := { s with code := c }) busy phase (by decide) rfl memories fun _ => ready busy (Or.inl phase)
  | writeHeader =>
    have phase : s.phase = phaseWriteHeader := (CodeWord.phase.inj named).symm
    obtain ⟨o, rfl⟩ := exec_shape h
    exact inv.handOver (u := { s with output := o }) busy phase (by decide) rfl memories fun walk => absurd walk (by decide)
  | rewind =>
    have phase : s.phase = phaseRewind := (CodeWord.phase.inj named).symm
    obtain ⟨-, rfl⟩ := exec_shape h
    exact inv.handOver (u := s.rewindInput) busy phase (by decide) rfl ⟨Nat.zero_le _, bytes, pq, nalloc⟩
      fun walk => absurd walk (by decide)
  | encode =>
    have phase : s.phase = phaseEncode := (CodeWord.phase.inj named).symm
    obtain ⟨_, k, hk, run⟩ := execEncode_ends s
    rw [run s (.refl s) rfl, Host.Outcome.next.injEq] at h
    subst h
    exact inv.handOver busy phase (by decide) rfl ⟨hk, bytes, pq, nalloc⟩ fun walk => absurd walk (by decide)
  | closeC | closeD =>
    obtain rfl := exec_shape h
    exact inv.complete rfl memories
  | readMagic =>
    have phase : s.phase = phaseReadMagic := (CodeWord.phase.inj named).symm
    obtain ⟨k, _, hk, hf, run⟩ := execReadMagic_ends s
    rw [run s (.refl s), Host.Outcome.next.injEq] at h
    subst h
    obtain rfl | rfl := hf
    · exact inv.handOver busy phase (by decide) rfl ⟨hk, bytes, pq, nalloc⟩ fun walk => absurd walk (by decide)
    · exact inv.raise rfl ⟨hk, bytes, pq, nalloc⟩
  | deserialize =>
    have phase : s.phase = phaseDeserialize := (CodeWord.phase.inj named).symm
    obtain ⟨_, n, k, hk, hn, ⟨_, run, -⟩ | ⟨_, _, run⟩⟩ := execDeserialize_ends s
    all_goals
      rw [run s (.refl s), Host.Outcome.next.injEq] at h
      subst h
    · exact inv.handOver busy phase (by decide) rfl ⟨hk, bytes, pq, hn⟩ fun walk => absurd walk (by decide)
    · exact inv.raise rfl ⟨hk, bytes, pq, hn⟩
  | decode =>
    have phase : s.phase = phaseDecode := (CodeWord.phase.inj named).symm
    obtain run | ⟨_, _, k, _, hk, hf, run⟩ := execDecode_ends s
    · rw [run s rfl (.refl ..), Host.Outcome.next.injEq] at h
      subst h
      exact inv.raise rfl memories
    · rw [run s (.refl s) rfl (.refl ..), Host.Outcome.next.injEq] at h
      subst h
      obtain rfl | rfl := hf
      · exact inv.handOver busy phase (by decide) rfl ⟨hk, bytes, pq, nalloc⟩ fun walk => absurd walk (by decide)
      · exact inv.raise rfl ⟨hk, bytes, pq, nalloc⟩

/-- Whatever phase the invariant admits ends; REWIND alone may be refused instead. -/
theorem Inv.phase_answers {i : Instr} {s : State} (inv : Inv s) (busy : s.busy = true) (named : encode i = .phase s.phase) :
    (∃ t, exec i s = .next t) ∨ exec i s = .refused .inputNotRewindable ∧ s.rewindable = false := by
  obtain ⟨-, -, -, ready⟩ := inv
  have tree : i = .gencodes ∨ i = .writeHeader →
      ∃ T, HoldsTree s.arena T s.root ∧ ∀ v ∈ T.values, v.toNat < 257 := by
    intro walk
    have phase : s.phase = phaseGencodes ∨ s.phase = phaseWriteHeader := by
      obtain rfl | rfl := walk <;> simp [← CodeWord.phase.inj named]
    obtain ⟨built, root⟩ := ready busy phase
    exact built.holdsTree (by rw [root]; decide)
  cases i with
  | compress | decompress | internal | leaf v => cases named
  | idle | build | closeC | closeD => exact Or.inl ⟨_, rfl⟩
  | count =>
    obtain ⟨_, _, _, _, -, -, run⟩ := execCount_ends s
    exact Or.inl ⟨_, run s (.refl s)⟩
  | gencodes =>
    obtain ⟨T, held, symbols⟩ := tree (Or.inl rfl)
    obtain ⟨code, -, ok, -⟩ := CodeTree.recordCodes_alike symbols 0 0 s.code s.code
    exact Or.inl ⟨_, (execGencodes_holdsTree held).trans (by rw [ok]; rfl)⟩
  | writeHeader =>
    obtain ⟨T, held, -⟩ := tree (Or.inr rfl)
    exact Or.inl ⟨_, execWriteHeader_holdsTree held⟩
  | rewind =>
    cases rewindable : s.rewindable with
    | true => exact Or.inl ⟨_, if_pos rewindable⟩
    | false => exact Or.inr ⟨if_neg (by simp [rewindable]), rfl⟩
  | encode =>
    obtain ⟨_, _, -, run⟩ := execEncode_ends s
    exact Or.inl ⟨_, run s (.refl s) rfl⟩
  | readMagic =>
    obtain ⟨_, _, -, -, run⟩ := execReadMagic_ends s
    exact Or.inl ⟨_, run s (.refl s)⟩
  | deserialize =>
    obtain ⟨_, _, _, -, -, ⟨_, run, -⟩ | ⟨_, _, run⟩⟩ := execDeserialize_ends s
    all_goals exact Or.inl ⟨_, run s (.refl s)⟩
  | decode =>
    obtain run | ⟨_, _, _, _, -, -, run⟩ := execDecode_ends s
    · exact Or.inl ⟨_, run s rfl (.refl ..)⟩
    · exact Or.inl ⟨_, run s (.refl s) rfl (.refl ..)⟩

/-- The codec's step under the invariant: it keeps it, or REWIND is refused. -/
theorem Inv.codecMove {s : State} (inv : Inv s) :
    (∃ t, codecMove s = .next t ∧ Inv t) ∨ codecMove s = .refused .inputNotRewindable ∧ s.rewindable = false := by
  have ⟨⟨_, _, _, _, _, legal⟩, _⟩ := inv
  by_cases busy : s.busy = true
  · obtain ⟨i, decoded, named⟩ := decodePhase_of_legal legal
    have move : Machine.codecMove s = exec i s := by rw [Machine.codecMove, if_pos busy, decoded]
    rw [move]
    exact (inv.phase_answers busy named).imp_left fun ⟨t, h⟩ => ⟨t, h, inv.phase busy named h⟩
  · exact Or.inl ⟨s, if_neg busy, inv⟩

/-- The refusals that the invariant leaves: each is the host's breach of a duty. -/
def BreachOfDuty (r : Refusal) (s : State) : Prop :=
  (r = .streamAccessWhileBusy ∧ s.busy = true) ∨ (r = .inputNotRewindable ∧ s.rewindable = false) ∨ r = .hostAccessSize

/-- A step that keeps the invariant, or is refused for a breach of the host's duties in s. -/
def KeepsInv (s : State) (answer : Host.Outcome State Fault Refusal) : Prop :=
  (∃ t, answer = .next t ∧ Inv t) ∨ ∃ r, answer = .refused r ∧ BreachOfDuty r s

theorem KeepsInv.codecMove {s : State} (inv : Inv s) : KeepsInv s (codecMove s) := by
  obtain ok | ⟨refused, rewindable⟩ := inv.codecMove
  · exact Or.inl ok
  · exact Or.inr ⟨_, refused, Or.inr (Or.inl ⟨rfl, rewindable⟩)⟩

theorem KeepsInv.next {s t : State} (inv : Inv t) : KeepsInv s (.next t) := Or.inl ⟨t, rfl, inv⟩

/-- A stream move is refused while BUSY. -/
theorem KeepsInv.streamMove {s t : State} (inv : s.busy = false → Inv t) : KeepsInv s (streamMove t s) := by
  unfold Machine.streamMove
  split
  · next busy => exact Or.inr ⟨_, rfl, Or.inl ⟨rfl, busy⟩⟩
  · next idle => exact .next (inv (by simpa using idle))

/-- A register access is refused where it is not one aligned word. -/
theorem KeepsInv.access {s : State} {legal : Bool} {answer : Host.Outcome State Fault Refusal} (keeps : KeepsInv s answer) :
    KeepsInv s (if legal then answer else .refused .hostAccessSize) := by
  split
  · exact keeps
  · exact Or.inr ⟨_, rfl, Or.inr (Or.inr rfl)⟩

/-- A write to CMD accepts a command, raises IllegalCommand, or is ignored. -/
theorem KeepsInv.writeCommand {s : State} (inv : Inv s) (w : Word) : KeepsInv s (writeCommand w s) := by
  unfold Machine.writeCommand
  split
  · next i decoded =>
    have command := decodeCommand_cases decoded
    have answers : ∃ t, exec i s = .next t := by
      by_cases busy : s.busy = true
      · obtain rfl | rfl := command <;> exact ⟨_, if_pos busy⟩
      · obtain rfl | rfl := command <;> exact ⟨_, if_neg busy⟩
    obtain ⟨t, h⟩ := answers
    exact Or.inl ⟨t, h, inv.command command h⟩
  · split
    · exact .next inv
    · exact .next inv.illegal

/-- Every move of the host keeps the invariant, or is a breach of its duties. -/
theorem KeepsInv.hostMove {s : State} (inv : Inv s) (a : HostAction) : KeepsInv s (hostMove a s) := by
  have ⟨status, sequencer, ⟨cursor, bytes, pq, nalloc⟩, _⟩ := inv
  cases a with
  | attachIn input rewindable =>
    have whole : (bitsOfBytes input).length % 8 = 0 := by rw [length_bitsOfBytes, Nat.mul_mod_right]
    exact .streamMove fun idle => ⟨status, sequencer, ⟨Nat.zero_le _, whole, pq, nalloc⟩,
      fun busy => absurd (idle.symm.trans busy) nofun⟩
  | attachOut => exact .streamMove fun _ => inv
  | takeOut => exact .streamMove fun _ => inv
  | writeReg offset size w =>
    refine .access ?_
    split
    · exact .writeCommand inv w
    · exact .next inv
  | readReg offset size => exact .access (.next inv)
  | wait =>
    simp only [Machine.hostMove]
    split
    · exact .codecMove (s := { s with host := .wait :: s.host, readData := s.register offsetStatus }) inv
    · exact .next inv
  | codecTurn => exact .codecMove inv
  | reset =>
    obtain ⟨status, sequencer, ⟨-, -, pq, nalloc⟩, ready⟩ := invariantHoldsAtReset
    exact .next ⟨status, sequencer, ⟨cursor, bytes, pq, nalloc⟩, ready⟩

/-- Every step keeps the invariant, or is refused for a breach of the host's duties. -/
theorem KeepsInv.step {s : State} (inv : Inv s) : KeepsInv s (step s) := by
  unfold Machine.step advance
  split
  · next a rest _ => exact .hostMove (s := { s with host := rest }) inv a
  · exact .codecMove inv

/-- Settles O53, by `KeepsInv.step`. -/
theorem everyStepKeepsTheInvariant : Obligations.EveryStepKeepsTheInvariant := by
  intro s t inv h
  obtain ⟨u, next, keeps⟩ | ⟨r, refused, -⟩ := KeepsInv.step inv
  · rw [h] at next
    cases next
    exact keeps
  · rw [h] at refused
    cases refused

/-- Settles O54, by `KeepsInv.step`. -/
theorem invariantStatesNeverFault : Obligations.InvariantStatesNeverFault := by
  intro s inv
  obtain ⟨t, next, -⟩ | ⟨r, refused, breach⟩ := KeepsInv.step inv
  · rw [next]
    exact ⟨nofun, nofun⟩
  · rw [refused]
    exact ⟨nofun, fun r' h => by cases h; exact breach⟩

end Sys2Proof
end

section
/-! PROOFS. A command on two machines side by side: they agree on STATUS, OP and the streams from acceptance on, and each
phase reads of the memories only what the phases before it have written alike. -/

namespace Sys2Proof.Machine

/-- s with the internal memories of m, and what the host got back before. -/
def State.withMemories (s m : State) : State :=
  { s with
    counts := m.counts, total := m.total, arena := m.arena, nalloc := m.nalloc, root := m.root, code := m.code,
    cur := m.cur, pq := m.pq, walkStack := m.walkStack, readData := m.readData, taken := m.taken }

/-- Runs of n steps from two states end with the same STATUS, OP and streams, and the same bytes taken. -/
def EndsAlike (n : Nat) (s s' : State) : Prop :=
  ∃ t t' : State, Host.Core.run Sys2Proof.core n s = .next t ∧ Host.Core.run Sys2Proof.core n s' = .next t' ∧
    t.statusWord = t'.statusWord ∧ t.inPos = t'.inPos ∧ t.output = t'.output ∧ t.outClosed = t'.outClosed ∧
    t.taken = t'.taken ∧ t.op = t'.op

/-- A run of the machine begins with its first step. -/
theorem run_step {n : Nat} {s t : State} (h : step s = .next t) :
    Host.Core.run Sys2Proof.core (n + 1) s = Host.Core.run Sys2Proof.core n t :=
  run_next (M := Sys2Proof.core) h

theorem EndsAlike.of_step {n : Nat} {s s' u u' : State} (h : step s = .next u) (h' : step s' = .next u')
    (later : EndsAlike n u u') : EndsAlike (n + 1) s s' := by
  obtain ⟨t, t', run, run', same⟩ := later
  exact ⟨t, t', (run_step h).trans run, (run_step h').trans run', same⟩

/-- An idle machine without pending moves stays as it is. -/
theorem run_idle {s : State} (idle : s.busy = false) (done : s.host = []) (n : Nat) :
    Host.Core.run Sys2Proof.core n s = .next s := by
  have stays : step s = .next s := by
    rw [step, advance, done]
    exact if_neg (by simp [idle])
  induction n with
  | zero => rfl
  | succ n ih => exact (run_step stays).trans ih

/-- A wait on an idle codec ends. -/
theorem step_wait_idle {s : State} {later : List HostAction} (pending : s.host = .wait :: later) (idle : s.busy = false) :
    step s = .next { s with host := later, readData := s.statusWord } := by
  rw [step, advance, pending]
  exact if_neg (by simp [idle])

/-- A wait on a running codec lets it run its phase. -/
theorem step_wait_busy {s : State} {later : List HostAction} {i : Instr} (pending : s.host = .wait :: later)
    (busy : s.busy = true) (named : decodePhase s.phase = .ok i) : step s = exec i { s with readData := s.statusWord } := by
  rw [step, advance, pending]
  refine (if_pos busy).trans ((if_pos busy).trans ?_)
  simp only [named]
  rfl

/-- The host waits for the codec, which runs the phase p, and will take the output. -/
structure Running (p : PhaseCode) (s : State) : Prop where
  pending : s.host = [.wait, .takeOut]
  busy : s.busy = true
  phase : s.phase = p

/-- Taking the output of an idle codec is the script's last move. -/
theorem run_takeOut {s : State} (pending : s.host = [.takeOut]) (idle : s.busy = false) (n : Nat) :
    Host.Core.run Sys2Proof.core (n + 1) s = .next { s with host := [], taken := bytesOf s.output } := by
  have take : step s = .next { s with host := [], taken := bytesOf s.output } := by
    rw [step, advance, pending]
    exact if_neg (by simp [idle])
  exact (run_step take).trans (run_idle (s := { s with host := [], taken := bytesOf s.output }) idle rfl n)

/-- A command that has ended: the host's wait ends, and it takes the output. -/
theorem run_ended {s : State} (pending : s.host = [.wait, .takeOut]) (idle : s.busy = false) (n : Nat) :
    Host.Core.run Sys2Proof.core (n + 2) s =
      .next { s with host := [], readData := s.statusWord, taken := bytesOf s.output } :=
  (run_step (step_wait_idle pending idle)).trans
    (run_takeOut (s := { s with host := [.takeOut], readData := s.statusWord }) rfl idle n)

theorem EndsAlike.of_idle {n : Nat} {s m : State} (pending : s.host = [.wait, .takeOut]) (idle : s.busy = false) :
    EndsAlike (n + 2) s (s.withMemories m) :=
  ⟨_, _, run_ended pending idle n, run_ended (s := s.withMemories m) pending idle n, rfl, rfl, rfl, rfl, rfl, rfl⟩

/-- s once the host's wait has read STATUS. -/
def State.statusRead (s : State) : State := { s with readData := s.statusWord }

/-- A phase that both machines run. -/
theorem EndsAlike.of_phase {n : Nat} {p : PhaseCode} {s m u m' : State} {i : Instr} (running : Running p s)
    (named : decodePhase p = .ok i) (h : exec i s.statusRead = .next u)
    (h' : exec i (s.withMemories m).statusRead = .next (u.withMemories m')) (later : EndsAlike n u (u.withMemories m')) :
    EndsAlike (n + 1) s (s.withMemories m) := by
  obtain ⟨pending, busy, rfl⟩ := running
  exact .of_step ((step_wait_busy pending busy named).trans h)
    ((step_wait_busy (s := s.withMemories m) pending busy named).trans h') later

variable {n : Nat} {s m : State}

theorem endsAlike_closeC (running : Running phaseCloseC s) : EndsAlike (n + 3) s (s.withMemories m) :=
  .of_phase (m' := (s.withMemories m).statusRead) running rfl rfl rfl (.of_idle running.pending rfl)

theorem endsAlike_closeD (running : Running phaseCloseD s) : EndsAlike (n + 3) s (s.withMemories m) :=
  .of_phase (m' := (s.withMemories m).statusRead) running rfl rfl rfl (.of_idle running.pending rfl)

/-- ENCODE reads the codes. -/
theorem endsAlike_encode (running : Running phaseEncode s) (code : m.code = s.code) :
    EndsAlike (n + 4) s (s.withMemories m) := by
  obtain ⟨_, _, -, run⟩ := execEncode_ends s.statusRead
  exact .of_phase (m' := (s.withMemories m).statusRead) running rfl (run _ (.refl _) rfl)
    (run (s.withMemories m).statusRead ⟨rfl, rfl⟩ code)
    (endsAlike_closeC ⟨running.pending, running.busy, rfl⟩)

theorem endsAlike_rewind (running : Running phaseRewind s) (rewindable : s.rewindable = true) (code : m.code = s.code) :
    EndsAlike (n + 5) s (s.withMemories m) :=
  .of_phase (m' := (s.withMemories m).statusRead) running rfl (if_pos rewindable) (if_pos rewindable)
    (endsAlike_encode ⟨running.pending, running.busy, rfl⟩ code)

/-- WRITE_HEADER reads the tree. -/
theorem endsAlike_writeHeader {T : CodeTree} (running : Running phaseWriteHeader s) (rewindable : s.rewindable = true)
    (code : m.code = s.code) (held : HoldsTree s.arena T s.root) (held' : HoldsTree m.arena T m.root) :
    EndsAlike (n + 6) s (s.withMemories m) :=
  .of_phase (m' := (s.withMemories m).statusRead) running rfl (execWriteHeader_holdsTree held)
    (execWriteHeader_holdsTree (s := (s.withMemories m).statusRead) held')
    (endsAlike_rewind ⟨running.pending, running.busy, rfl⟩ rewindable code)

/-- GENCODES reads the tree, and a full one gives every symbol its entry. -/
theorem endsAlike_gencodes {T : CodeTree} (running : Running phaseGencodes s) (rewindable : s.rewindable = true)
    (full : T.IsFull) (held : HoldsTree s.arena T s.root) (held' : HoldsTree m.arena T m.root) :
    EndsAlike (n + 7) s (s.withMemories m) := by
  have symbols : ∀ v ∈ T.values, v.toNat < 257 := fun v hv => mem_symbolValues.mp (full.mem_iff.mp hv)
  obtain ⟨new, new', ok, ok', alike⟩ := CodeTree.recordCodes_alike symbols 0 0 s.code m.code
  have same : new' = new := Vector.ext fun x hx => by
    have value : valueOfSymbol ⟨x, hx⟩ ∈ T.values :=
      full.mem_iff.mpr (mem_symbolValues.mpr (by rw [valueOfSymbol_toNat]; exact hx))
    exact (alike ⟨x, hx⟩ (Or.inl value)).symm
  subst same
  refine .of_phase (u := { s.statusRead with code := new', phase := phaseWriteHeader })
    (m' := { (s.withMemories m).statusRead with code := new' }) running rfl
    ((execGencodes_holdsTree (s := s.statusRead) held).trans ?_)
    ((execGencodes_holdsTree (s := (s.withMemories m).statusRead) held').trans ?_)
    (endsAlike_writeHeader ⟨running.pending, running.busy, rfl⟩ rewindable rfl held held')
  · rw [show s.statusRead.code = s.code from rfl, ok]; rfl
  · rw [show (s.withMemories m).statusRead.code = m.code from rfl, ok']; rfl

/-- BUILD reads the counts, and leaves a full tree. -/
theorem endsAlike_build (running : Running phaseBuild s) (rewindable : s.rewindable = true) (counts : m.counts = s.counts) :
    EndsAlike (n + 8) s (s.withMemories m) := by
  obtain ⟨write, nalloc, root, run⟩ := execBuild_ends s.statusRead
  obtain ⟨h, -⟩ := run s.statusRead rfl
  obtain ⟨h', same⟩ := run (s.withMemories m).statusRead counts
  obtain ⟨T, held, full⟩ := (execBuild_built h).tree
  exact .of_phase
    (m' := { (s.withMemories m).statusRead with arena := write m.arena, nalloc := nalloc, root := root, pq := [] })
    running rfl h h' (endsAlike_gencodes ⟨running.pending, running.busy, rfl⟩ rewindable full held (same.holdsTree held))

/-- COUNT reads the input. -/
theorem endsAlike_count (running : Running phaseCount s) (rewindable : s.rewindable = true) :
    EndsAlike (n + 9) s (s.withMemories m) := by
  obtain ⟨counts, total, _, _, -, hf, run⟩ := execCount_ends s.statusRead
  let m' := { (s.withMemories m).statusRead with counts := counts, total := total }
  have h := run _ (.refl _)
  have h' := run (s.withMemories m).statusRead ⟨rfl, rfl⟩
  obtain rfl | rfl := hf
  · exact .of_phase (m' := m') running rfl h h' (endsAlike_build ⟨running.pending, running.busy, rfl⟩ rewindable rfl)
  · exact .of_phase (m' := m') running rfl h h' (.of_idle running.pending rfl)

/-- DECODE reads the tree. -/
theorem endsAlike_decode (running : Running phaseDecode s) (root : m.root = s.root) (same : SameTree s.arena m.arena s.root) :
    EndsAlike (n + 4) s (s.withMemories m) := by
  obtain run | ⟨cur, _, _, _, -, hf, run⟩ := execDecode_ends s.statusRead
  · exact .of_phase (m' := (s.withMemories m).statusRead) running rfl (run _ rfl (.refl ..))
      (run (s.withMemories m).statusRead root same) (.of_idle running.pending rfl)
  · let m' := { (s.withMemories m).statusRead with cur := cur }
    have h := run _ (.refl _) rfl (.refl ..)
    have h' := run (s.withMemories m).statusRead ⟨rfl, rfl⟩ root same
    obtain rfl | rfl := hf
    · exact .of_phase (m' := m') running rfl h h' (endsAlike_closeD ⟨running.pending, running.busy, rfl⟩)
    · exact .of_phase (m' := m') running rfl h h' (.of_idle running.pending rfl)

/-- DESERIALIZE reads the input, and writes every node that DECODE reads. -/
theorem endsAlike_deserialize (running : Running phaseDeserialize s) : EndsAlike (n + 5) s (s.withMemories m) := by
  obtain ⟨write, nalloc, _, -, -, ⟨root, run, same⟩ | ⟨frames, _, run⟩⟩ := execDeserialize_ends s.statusRead
  · exact .of_phase
      (m' := { (s.withMemories m).statusRead with arena := write m.arena, nalloc := nalloc, root := root, walkStack := [] })
      running rfl (run _ (.refl _)) (run (s.withMemories m).statusRead ⟨rfl, rfl⟩)
      (endsAlike_decode ⟨running.pending, running.busy, rfl⟩ rfl (same _ _))
  · exact .of_phase
      (m' := { (s.withMemories m).statusRead with arena := write m.arena, nalloc := nalloc, walkStack := frames })
      running rfl (run _ (.refl _)) (run (s.withMemories m).statusRead ⟨rfl, rfl⟩) (.of_idle running.pending rfl)

theorem endsAlike_readMagic (running : Running phaseReadMagic s) : EndsAlike (n + 6) s (s.withMemories m) := by
  obtain ⟨_, _, -, hf, run⟩ := execReadMagic_ends s.statusRead
  have h := run _ (.refl _)
  have h' := run (s.withMemories m).statusRead ⟨rfl, rfl⟩
  obtain rfl | rfl := hf
  · exact .of_phase (m' := (s.withMemories m).statusRead) running rfl h h'
      (endsAlike_deserialize ⟨running.pending, running.busy, rfl⟩)
  · exact .of_phase (m' := (s.withMemories m).statusRead) running rfl h h' (.of_idle running.pending rfl)

/-- s with a command accepted, its streams attached, and the host waiting for its end. -/
def State.started (op : BitVec 2) (first : PhaseCode) (bytes : List Byte) (s : State) : State :=
  { s.accept op first with
    input := bitsOfBytes bytes, inPos := 0, rewindable := true, output := [], outClosed := false,
    host := [.wait, .takeOut] }

/-- The script's first three moves start its command. -/
theorem run_commandScript {command : Word} {op : BitVec 2} {first : PhaseCode}
    (accepts : ∀ s : State, s.busy = false → writeCommand command s = .next (s.accept op first)) (bytes : List Byte)
    {s : State} (idle : s.busy = false) (n : Nat) :
    Host.Core.run Sys2Proof.core (n + 3) (withScript (commandScript command bytes true) s) =
      Host.Core.run Sys2Proof.core n (s.started op first bytes) := by
  let attached : State := { s with input := bitsOfBytes bytes, inPos := 0, rewindable := true }
  let ready : State := { attached with output := [], outClosed := false, host := [.wait, .takeOut] }
  have notBusy : ¬ s.busy = true := by simp [idle]
  have attachIn : step (withScript (commandScript command bytes true) s) =
    .next { attached with host := [.attachOut, .writeReg offsetCmd 4 command, .wait, .takeOut] } := if_neg notBusy
  have attachOut : step { attached with host := [.attachOut, .writeReg offsetCmd 4 command, .wait, .takeOut] } =
    .next { ready with host := [.writeReg offsetCmd 4 command, .wait, .takeOut] } := if_neg notBusy
  have write : step { ready with host := [.writeReg offsetCmd 4 command, .wait, .takeOut] } =
    .next (s.started op first bytes) := accepts ready idle
  exact (run_step attachIn).trans
    ((run_step attachOut).trans (run_step write))

theorem writeCommand_compress {s : State} (idle : s.busy = false) :
    writeCommand 1 s = .next (s.accept 1 phaseCount) := if_neg (by simp [idle])

theorem writeCommand_decompress {s : State} (idle : s.busy = false) :
    writeCommand 2 s = .next (s.accept 2 phaseReadMagic) := if_neg (by simp [idle])

/-- Settles O59: acceptance leaves two machines that differ in their memories alone, and the phases keep them so in all
that the statement speaks of. -/
theorem commandsIgnoreOldMemories : Obligations.CommandsIgnoreOldMemories := by
  intro command bytes s s' hc idle idle'
  show EndsAlike 12 (withScript (commandScript command bytes true) s) (withScript (commandScript command bytes true) s')
  unfold EndsAlike
  obtain rfl | rfl := hc
  · rw [run_commandScript (fun _ => writeCommand_compress) bytes idle 9,
      run_commandScript (fun _ => writeCommand_compress) bytes idle' 9]
    exact endsAlike_count (n := 0) (s := s.started 1 phaseCount bytes) (m := s') ⟨rfl, rfl, rfl⟩ rfl
  · rw [run_commandScript (fun _ => writeCommand_decompress) bytes idle 9,
      run_commandScript (fun _ => writeCommand_decompress) bytes idle' 9]
    exact endsAlike_readMagic (n := 3) (s := s.started 2 phaseReadMagic bytes) (m := s') ⟨rfl, rfl, rfl⟩

end Sys2Proof.Machine
end

section
/-! PROOFS. The stream primitives, the host's moves on the streams, and the rewinding of the input. -/

namespace Sys2Proof.Machine

/-- Settles O5: `State.readBits_of_le` and `State.readBits_of_gt` are the two cases, and `bitsN_num` reads the field
back from its number. -/
theorem readBitsGivesTheNextField : Obligations.ReadBitsGivesTheNextField := by
  refine fun n s => ⟨fun enough => ?_, State.readBits_of_gt⟩
  have length : (s.rest.take n).length = n := by
    rw [List.length_take, State.rest_length]
    omega
  have bound := num_lt (s.rest.take n)
  have field := bitsN_num (s.rest.take n)
  rw [length] at bound field
  exact ⟨_, State.readBits_of_le enough, bound, field⟩

/-- Bit i of `bits_N(v)` is bit N-1-i of v (00_scope.md R18). -/
theorem getElem?_bitsN {n i : Nat} (v : Nat) (lt : i < n) : (bitsN n v)[i]? = some (v.testBit (n - 1 - i)) := by
  induction n generalizing i with
  | zero => cases lt
  | succ n ih =>
    cases i with
    | zero => rfl
    | succ i =>
      have index : n + 1 - 1 - (i + 1) = n - 1 - i := by omega
      rw [bitsN, List.getElem?_cons_succ, ih (Nat.lt_of_succ_lt_succ lt), index]

/-- Settles O6: the appended bits are `bitsN n v`, and close appends `padding` many zeros. -/
theorem writesAppendAndClosePads : Obligations.WritesAppendAndClosePads := by
  refine ⟨fun n v s => ⟨bitsN n v, rfl, length_bitsN n v, fun _ lt => getElem?_bitsN v lt⟩, fun s => ?_⟩
  obtain ⟨few, boundary⟩ := padding_spec s.output.length
  refine ⟨padding s.output.length, few, rfl, ?_, padding_eq_zero⟩
  rw [State.close_output, List.length_append, List.length_replicate]
  exact boundary

/-- Settles O32: REWIND asks whether the input can be rewound, and does nothing else. -/
theorem rewindReturnsToTheStart : Obligations.RewindReturnsToTheStart :=
  fun _ => ⟨fun rewindable => if_pos rewindable, fun fixed => if_neg (by simp [fixed])⟩

/-- A stream move of an idle codec happens. -/
theorem streamMove_idle {move s : State} (idle : s.busy = false) : streamMove move s = .next move :=
  if_neg (by simp [idle])

/-- A stream move of a running codec is refused (20_memory.md R87; log 15). -/
theorem streamMove_busy {move s : State} (busy : s.busy = true) :
    streamMove move s = .refused .streamAccessWhileBusy :=
  if_pos busy

/-- Settles O51: the step is the move at the head of `host`, and BUSY decides whether a stream move happens. -/
theorem hostOwnsTheStreamsWhileIdle : Obligations.HostOwnsTheStreamsWhileIdle := by
  refine fun s later bytes rewindable => ⟨fun idle => ?_, fun busy => ?_⟩
  · exact ⟨streamMove_idle idle, streamMove_idle idle, streamMove_idle idle⟩
  · exact ⟨streamMove_busy busy, streamMove_busy busy, streamMove_busy busy⟩

end Sys2Proof.Machine
end

section
/-! PROOFS. The header of a built tree: its length, and the bytes it begins with. -/

namespace Sys2Proof

open Machine

/-- A record is one bit for its node, and the value's bits at a leaf (30_encoding.md R114, R115). -/
theorem CodeTree.records_length (T : CodeTree) : T.records.length = T.size + Config.valueBits * T.values.length := by
  induction T with
  | leaf v =>
    rw [records, List.length_cons, length_bitsN, values_leaf, List.length_singleton, size]
    omega
  | node l r ihl ihr =>
    rw [records, List.length_cons, List.length_append, ihl, ihr, values_node, List.length_append, size, Nat.mul_add]
    omega

/-- The leaves of a full tree name symbols alone. -/
theorem CodeTree.IsFull.symbols {T : CodeTree} (full : T.IsFull) : ∀ v ∈ T.values, v.toNat < 257 :=
  fun _ hv => mem_symbolValues.mp (full.mem_iff.mp hv)

/-- A full tree has 257 leaves. -/
theorem CodeTree.IsFull.values_length {T : CodeTree} (full : T.IsFull) : T.values.length = 257 :=
  full.length_eq.trans symbolValues_length

/-- A full tree has 513 nodes (42_tree_builder.md R157). -/
theorem CodeTree.IsFull.size_eq {T : CodeTree} (full : T.IsFull) : T.size = 513 := by
  have leaves := full.values_length
  rw [values, List.length_map] at leaves
  have := T.size_eq
  omega

/-- The records of a full tree take 513 + 9 * 257 bits (30_encoding.md R121). -/
theorem CodeTree.IsFull.records_length {T : CodeTree} (full : T.IsFull) : T.records.length = 2826 := by
  rw [T.records_length, full.size_eq, full.values_length, Config.valueBits_eq]

namespace Machine

/-- GENCODES where ROOT holds a full tree: every leaf has an entry, so the phase ends. -/
theorem execGencodes_full {s : State} {T : CodeTree} (held : HoldsTree s.arena T s.root) (full : T.IsFull) :
    ∃ code, exec .gencodes s = .next { s with code := code, phase := phaseWriteHeader } := by
  obtain ⟨code, -, ok, -⟩ := T.recordCodes_alike full.symbols 0 0 s.code s.code
  exact ⟨code, (execGencodes_holdsTree held).trans (by rw [ok]; rfl)⟩

/-- The magic number's bytes, packed most significant bit first (20_memory.md R79, R80). -/
theorem bytesOf_magic : bytesOf (bitsN Config.magicBits Config.magic) = [0xFA, 0xCE, 0x82, 0x01] := by decide

/-- Settles O30: BUILD leaves a full tree at ROOT, GENCODES keeps it there, and WRITE_HEADER appends the magic number
and the tree's records. -/
theorem builtHeaderHas2858Bits : Obligations.BuiltHeaderHas2858Bits := by
  intro s t empty build
  have output : t.output = [] := by
    obtain ⟨_, _, _, rfl⟩ := exec_shape build
    exact empty
  obtain ⟨T, held, full⟩ := (execBuild_built build).tree
  obtain ⟨code, gencodes⟩ := execGencodes_full held full
  let u : State := { t with code := code, phase := phaseWriteHeader }
  refine ⟨u, _, gencodes, execWriteHeader_holdsTree (s := u) held, ?_, ?_⟩
  · simp only [u, output, List.nil_append, List.length_append, length_bitsN, full.records_length]
  · simp only [u, output, List.nil_append]
    rw [bytesOf_append (by rw [length_bitsN, Config.magicBits_eq]), bytesOf_magic]
    rfl

end Machine

end Sys2Proof
end

section
/-! PROOFS. The three encoding spaces: the decoder and the encoder are inverse to each other, and a tree record ends
where its bits say. -/

namespace Sys2Proof

open Machine

/-- Every instruction's word decodes to it: all are closed words but LEAF, whose record the decoder reads back. -/
theorem decode_encode (i : Instr) : decode (encode i) = .ok i := by
  cases i with
  | leaf v =>
    have read := decodeRecord_leaf v []
    rw [List.append_nil] at read
    rw [encode, decode, read]
  | _ => rfl

/-- A command word that decodes is its instruction's. -/
theorem encode_of_decodeCommand {w : Word} {i : Instr} (h : decodeCommand w = .ok i) : encode i = .command w := by
  unfold decodeCommand at h
  split at h
  · next word => cases h; rw [word, encode]
  · split at h
    · next word => cases h; rw [word, encode]
    · cases h

/-- The phase codes 12 to 15 name no instruction (30_encoding.md R104). -/
theorem decodePhase_of_reserved {p : PhaseCode} (reserved : ¬ p.toNat ≤ 11) :
    decodePhase p = .error (.reservedPhase p) := by
  have table : ∀ p : PhaseCode, ¬ p.toNat ≤ 11 → decodePhase p = .error (.reservedPhase p) := by decide
  exact table p reserved

/-- A phase code that decodes is its instruction's. -/
theorem encode_of_decodePhase {p : PhaseCode} {i : Instr} (h : decodePhase p = .ok i) : encode i = .phase p := by
  by_cases legal : p.toNat ≤ 11
  · obtain ⟨j, decoded, named⟩ := decodePhase_of_legal legal
    rw [decoded] at h
    cases h
    exact named
  · rw [decodePhase_of_reserved legal] at h
    cases h

/-- A whole word that decodes as a record is one that is read with nothing left. -/
theorem decodeRecord_of_decode {bits : List Bool} {i : Instr} (h : decode (.record bits) = .ok i) :
    decodeRecord bits = .ok (i, []) := by
  simp only [decode] at h
  split at h
  · cases h
  · next read => cases h; exact read
  · cases h

/-- A record that is read is its instruction's, and the bits after it are left. -/
theorem encode_of_decodeRecord {bits more : List Bool} {i : Instr} (h : decodeRecord bits = .ok (i, more)) :
    ∃ record, encode i = .record record ∧ bits = record ++ more := by
  obtain ⟨rfl, rfl⟩ | ⟨v, rfl, rfl⟩ := decodeRecord_cases h
  · exact ⟨[false], rfl, rfl⟩
  · exact ⟨_, rfl, rfl⟩

/-- A word that decodes is its instruction's, in each of the three spaces. -/
theorem encode_of_decode {c : CodeWord} {i : Instr} (h : decode c = .ok i) : encode i = c := by
  cases c with
  | command w => exact encode_of_decodeCommand h
  | phase p => exact encode_of_decodePhase h
  | record bits =>
    obtain ⟨record, word, rfl⟩ := encode_of_decodeRecord (decodeRecord_of_decode h)
    rw [word, List.append_nil]

/-- Settles O1, by `decode_encode` and `encode_of_decode`. -/
theorem encodeAndDecodeAgree : Obligations.EncodeAndDecodeAgree :=
  ⟨decode_encode, fun _ _ => encode_of_decode⟩

/-- Every instruction's word is well formed. -/
theorem encode_wf (i : Instr) : (encode i).wf = true := by
  cases i with
  | leaf v => exact Laws.EncodeWf.leaf v
  | _ => rfl

/-- Every well-formed word is an instruction's. -/
theorem exists_encode_of_wf {c : CodeWord} (wf : c.wf = true) : ∃ i, encode i = c := by
  match c, wf with
  | .command w, wf =>
    have word : w = 1 ∨ w = 2 := by simpa [CodeWord.wf] using wf
    obtain rfl | rfl := word
    · exact ⟨.compress, rfl⟩
    · exact ⟨.decompress, rfl⟩
  | .phase p, wf =>
    have legal : p.toNat ≤ 11 := by simpa [CodeWord.wf] using wf
    obtain ⟨i, -, named⟩ := decodePhase_of_legal legal
    exact ⟨i, named⟩
  | .record (false :: rest), wf =>
    obtain rfl : rest = [] := by simpa [CodeWord.wf] using wf
    exact ⟨.internal, rfl⟩
  | .record (true :: rest), wf =>
    have nine : rest.length = Config.valueBits := by simpa [CodeWord.wf] using wf
    have lt := num_lt rest
    have bits := bitsN_num rest
    rw [nine] at lt bits
    refine ⟨.leaf (BitVec.ofNat _ (num rest)), ?_⟩
    rw [encode, BitVec.toNat_ofNat, Nat.mod_eq_of_lt lt, bits]

/-- Settles O2: the well-formed words are the instructions' (`exists_encode_of_wf`, `encode_wf`), and so are those that
decode. -/
theorem decodableWordsAreTheAdmittedOnes : Obligations.DecodableWordsAreTheAdmittedOnes := by
  refine fun c => ⟨fun wf => ?_, fun ⟨i, decoded⟩ => ?_⟩
  · obtain ⟨i, rfl⟩ := exists_encode_of_wf wf
    exact ⟨i, decode_encode i⟩
  · exact encode_of_decode decoded ▸ encode_wf i

/-- The instructions whose word is a record, with its bits (30_encoding.md R114, R115). -/
theorem record_cases {i : Instr} {bits : List Bool} (h : encode i = .record bits) :
    i = .internal ∧ bits = [false] ∨ ∃ v, i = .leaf v ∧ bits = true :: bitsN Config.valueBits v.toNat := by
  cases i with
  | internal => exact .inl ⟨rfl, (CodeWord.record.inj h).symm⟩
  | leaf v => exact .inr ⟨v, rfl, (CodeWord.record.inj h).symm⟩
  | _ => cases h

/-- Settles O3: a record cut short is empty, or has its flag 1 and fewer than nine value bits. -/
theorem recordsAreSelfDelimiting : Obligations.RecordsAreSelfDelimiting := by
  intro i bits h
  obtain ⟨rfl, rfl⟩ | ⟨v, rfl, rfl⟩ := record_cases h
  · refine ⟨fun _ => rfl, fun q cut proper => ?_⟩
    obtain rfl | rfl : q = [] ∨ q = [false] := by simpa [List.prefix_cons_iff] using cut
    · rfl
    · exact absurd rfl proper
  · refine ⟨decodeRecord_leaf v, fun q cut proper => ?_⟩
    obtain rfl | ⟨value, rfl, inner⟩ := List.prefix_cons_iff.mp cut
    · rfl
    · have short : value.length < Config.valueBits := by
        refine lt_of_le_of_ne (inner.length_le.trans_eq (length_bitsN ..)) fun whole => proper ?_
        rw [inner.eq_of_length (whole.trans (length_bitsN ..).symm)]
      exact decodeRecord_short short

/-- Settles O4: the words are closed. -/
theorem specWordsDecode : Obligations.SpecWordsDecode := by
  unfold Obligations.SpecWordsDecode
  decide

end Sys2Proof
end

section
/-! PROOFS. The tree records as instructions: what INTERNAL and LEAF do to the arena and the walk stack, and that a pass
of DESERIALIZE runs the record at the cursor. -/

namespace Sys2Proof.Machine

theorem State.arenaFull_iff {s : State} : s.arenaFull = true ↔ 1024 ≤ s.nalloc.toNat := by
  simp [State.arenaFull]

/-- NALLOC with one more handle taken, as a number. -/
theorem State.nalloc_succ (s : State) : s.nalloc + 1 = BitVec.ofNat 11 (s.nalloc.toNat + 1) :=
  BitVec.eq_of_toNat_eq (by simp)

/-- With NODE_CAP nodes allocated either record is NodeCapacity (45_tree_deserializer.md R193). -/
theorem exec_record_full {i : Instr} {s : State} (record : i = .internal ∨ ∃ v, i = .leaf v)
    (full : 1024 ≤ s.nalloc.toNat) : exec i s = .next (s.raise .nodeCapacity) := by
  obtain rfl | ⟨v, rfl⟩ := record <;> exact if_pos (State.arenaFull_iff.mpr full)

theorem execInternal_free {s : State} (free : s.nalloc.toNat < 1024) : exec .internal s = .next s.openInternal :=
  if_neg (mt State.arenaFull_iff.mp (Nat.not_le.mpr free))

theorem execLeaf_free {v : LeafValue} {s : State} (free : s.nalloc.toNat < 1024) :
    exec (.leaf v) s = .next (s.placeLeaf v) :=
  if_neg (mt State.arenaFull_iff.mp (Nat.not_le.mpr free))

/-- Settles O40, by `execInternal_free` and `exec_record_full`. -/
theorem internalRecordOpensANode : Obligations.InternalRecordOpensANode := by
  refine fun s => ⟨fun free => ?_, exec_record_full (.inl rfl)⟩
  rw [execInternal_free free, ← s.nalloc_succ, ← s.nextHandle_eq]
  rfl

/-- A pass of DESERIALIZE over an INTERNAL record. -/
theorem recordLoop_internal {s : State} {more : List Bool} (bits : s.rest = false :: more)
    (free : s.nalloc.toNat < 1024) (bound : Nat) :
    recordLoop (bound + 1) s = recordLoop bound ({ s with inPos := s.inPos + 1 } : State).openInternal := by
  obtain ⟨flag, -⟩ := State.readBit_cons bits
  have room : ¬ ({ s with inPos := s.inPos + 1 } : State).arenaFull = true :=
    mt State.arenaFull_iff.mp (Nat.not_le.mpr free)
  rw [recordLoop_flag flag, if_neg room]
  exact if_pos rfl

/-- A pass of DESERIALIZE over a LEAF record. -/
theorem recordLoop_leaf {s : State} {v : LeafValue} {more : List Bool}
    (bits : s.rest = true :: (bitsN Config.valueBits v.toNat ++ more)) (free : s.nalloc.toNat < 1024) (bound : Nat) :
    let t := ({ s with inPos := s.inPos + (1 + Config.valueBits) } : State).placeLeaf v
    recordLoop (bound + 1) s = if t.walkStack.isEmpty then .next t else recordLoop bound t := by
  obtain ⟨flag, rest⟩ := State.readBit_cons bits
  have room : ¬ ({ s with inPos := s.inPos + 1 } : State).arenaFull = true :=
    mt State.arenaFull_iff.mp (Nat.not_le.mpr free)
  have value := State.readBits_field rest (List.ne_nil_of_length_eq_add_one (length_bitsN ..))
  rw [length_bitsN, num_bitsN_of_lt v.isLt] at value
  rw [recordLoop_flag flag, if_neg room, if_neg (by decide)]
  refine leafPass_value value ?_
  rw [BitVec.ofNat_toNat, BitVec.setWidth_eq]
  rfl

/-- Settles O39: the record is INTERNAL's or LEAF's, and the pass takes its bits, one or ten. -/
theorem deserializeRunsDecodedRecords : Obligations.DeserializeRunsDecodedRecords := by
  intro s bound i more read free
  obtain ⟨rfl, bits⟩ | ⟨v, rfl, bits⟩ := decodeRecord_cases read
  · have one : s.rest.length - more.length = 1 := by simp [bits]
    rw [one]
    refine ⟨_, execInternal_free (s := { s with inPos := s.inPos + 1 }) free, ?_⟩
    rw [recordLoop_internal bits free]
    exact (if_neg (List.cons_ne_nil _ _)).symm
  · have ten : s.rest.length - more.length = 1 + Config.valueBits := by
      rw [bits, List.length_cons, List.length_append, length_bitsN]
      omega
    rw [ten]
    refine ⟨_, execLeaf_free (s := { s with inPos := s.inPos + (1 + Config.valueBits) }) free, ?_⟩
    rw [recordLoop_leaf bits free]
    simp only [List.isEmpty_iff]

/-- The leaf that a LEAF record of value v writes. -/
def leafNode (v : LeafValue) : Node := { leaf := true, value := v, weight := 0, left := 0, right := 0 }

/-- The node over two children that DESERIALIZE writes. -/
def innerNode (l r : Handle) : Node := { leaf := false, value := 0, weight := 0, left := l, right := r }

section

variable {s : State} {v : LeafValue} {n l : Handle} {later : List Frame}

/-- s with a LEAF record's node written. -/
def State.leafWritten (v : LeafValue) (s : State) : State := s.allocate.setNode s.nextHandle (leafNode v)

/-- A LEAF record whose open node awaits its left child. -/
theorem placeLeaf_left (h : s.walkStack = { node := n, left := none } :: later) :
    s.placeLeaf v = { s.leafWritten v with walkStack := { node := n, left := some s.nextHandle } :: later } := by
  rw [State.placeLeaf, h]
  rfl

/-- A LEAF record whose open node awaits its right child: the open node is written, and returned in turn. -/
theorem placeLeaf_right (h : s.walkStack = { node := n, left := some l } :: later) :
    s.placeLeaf v = returnNode n later ((s.leafWritten v).setNode n (innerNode l s.nextHandle)) := by
  rw [State.placeLeaf, h]
  rfl

theorem placeLeaf_nalloc : (s.placeLeaf v).nalloc = BitVec.ofNat 11 (s.nalloc.toNat + 1) := by
  rw [← s.nalloc_succ]
  exact returnNode_nalloc ..

/-- A LEAF record writes its node at the next handle. -/
theorem leafWritten_node :
    (s.leafWritten v).node s.nextHandle = leafNode v ∧
      ∀ g, g ≠ s.nextHandle → (s.leafWritten v).node g = s.node g :=
  ⟨State.node_setNode_self .., fun _ other => State.node_setNode_ne other⟩

end

/-- Settles O41: `placeLeaf` by the open node at the top of the walk stack. -/
theorem leafRecordReturnsANode : Obligations.LeafRecordReturnsANode := by
  intro s v
  have ⟨written, kept⟩ := leafWritten_node (s := s) (v := v)
  rw [← s.nextHandle_eq]
  refine ⟨exec_record_full (.inr ⟨v, rfl⟩), fun free => ⟨_, execLeaf_free free, placeLeaf_nalloc,
    fun last => ?_, fun n later left => ?_, fun n l later right taken below => ?_⟩⟩
  · rw [State.placeLeaf, last]
    exact ⟨rfl, rfl, rfl, written, kept⟩
  · rw [placeLeaf_left left]
    exact ⟨rfl, rfl, rfl, written, kept⟩
  · have handle : s.nextHandle.toNat = s.nalloc.toNat := by
      rw [s.nextHandle_eq]
      exact Nat.mod_eq_of_lt free
    have apart : s.nextHandle ≠ n := fun e => by rw [← e, handle] at taken; exact Nat.lt_irrefl _ taken
    let u := (s.leafWritten v).setNode n (innerNode l s.nextHandle)
    have inner : u.node n = innerNode l s.nextHandle := State.node_setNode_self ..
    have others : ∀ g, g ≠ n → u.node g = (s.leafWritten v).node g := fun g hg => State.node_setNode_ne hg
    have notBelow : ∀ g : Handle, n.toNat ≤ g.toNat → (returnNode n later u).node g = u.node g := fun g above =>
      returnNode_node_of_ne (fun f hf e => by have := below f hf; rw [e] at this; omega) ..
    have frame : ∀ g, g ≠ s.nextHandle → g ≠ n → u.node g = s.node g :=
      fun g hh hn => (others g hn).trans (kept g hh)
    rw [placeLeaf_right right]
    refine ⟨?_, (notBelow n (Nat.le_refl _)).trans inner, fun last => ?_, fun m rest hm => ?_⟩
    · rw [notBelow _ (by omega), others _ apart, written]
      rfl
    · subst last
      exact ⟨rfl, rfl, rfl, frame⟩
    · subst hm
      exact ⟨rfl, rfl, frame⟩

end Sys2Proof.Machine
end

section
/-! PROOFS. The command port and the wait of an idle codec. -/

namespace Sys2Proof.Machine

/-- While idle a word other than 1 and 2 is IllegalCommand (48_commands.md R255). -/
theorem writeCommand_illegal {w : Word} {s : State} (other : w ≠ 1 ∧ w ≠ 2) (idle : s.busy = false) :
    writeCommand w s = .next s.illegal := by
  obtain ⟨h1, h2⟩ := other
  have reject : decodeCommand w = .error (.illegalCommand w) := (if_neg h1).trans (if_neg h2)
  rw [writeCommand, reject]
  exact if_neg (by simp [idle])

/-- Settles O10: the word is 1, 2, or another. -/
theorem idleCommandWrites : Obligations.IdleCommandWrites := by
  intro s later w idle
  show writeCommand w { s with host := later } = _
  by_cases h1 : w = 1
  · subst h1
    exact writeCommand_compress idle
  · rw [if_neg h1]
    by_cases h2 : w = 2
    · subst h2
      exact writeCommand_decompress idle
    · rw [if_neg h2]
      exact writeCommand_illegal ⟨h1, h2⟩ idle

/-- Settles O15: an idle codec's move is the wait of IDLE. -/
theorem waitEndsWhenIdle : Obligations.WaitEndsWhenIdle :=
  fun s later idle => ⟨step_wait_idle (s := { s with host := .wait :: later }) rfl idle, if_neg (by simp [idle])⟩

end Sys2Proof.Machine
end

section
/-! PROOFS. The phases that read the input in bytes: what COUNT and ENCODE answer on the bytes that are left. -/

namespace Sys2Proof.Machine

/-- A read of a byte when no whole byte is left: EOD, which takes the bits that are left. -/
theorem readByte_nil {s : State} (atEnd : bytesOf s.rest = []) :
    s.readBits Config.unitBits = (none, { s with inPos := s.input.length }) := by
  have length := length_bytesOf s.rest
  rw [atEnd, List.length_nil] at length
  exact State.readBits_short (by rw [Config.unitBits_eq]; omega)

/-- A read of a byte when one is left. -/
theorem readByte_cons {s : State} {b : Byte} {bytes : List Byte} (left : bytesOf s.rest = b :: bytes) :
    s.readBits Config.unitBits = (some b.toNat, { s with inPos := s.inPos + Config.unitBits }) ∧
      bytesOf ({ s with inPos := s.inPos + Config.unitBits } : State).rest = bytes := by
  have length := length_bytesOf s.rest
  rw [left, List.length_cons] at length
  have long : 8 ≤ s.rest.length := by omega
  have lt := num_lt (s.rest.take 8)
  rw [List.length_take_of_le long] at lt
  rw [bytesOf_of_long long] at left
  obtain ⟨rfl, rfl⟩ := List.cons.inj left
  rw [State.rest_length] at long
  refine ⟨?_, by rw [State.rest_withInPos]⟩
  rw [State.readBits_of_le (by rw [Config.unitBits_eq]; omega), BitVec.toNat_ofNat, Nat.mod_eq_of_lt lt]

/-- The frequency table with one more occurrence of a byte (41_frequency_counter.md R140). -/
def countByte (table : Counts) (b : Byte) : Counts :=
  table.set (symbolOfByte b).val (table[(symbolOfByte b).val] + 1)

/-- The frequency table of an input: the sentinel's count is 1 (41_frequency_counter.md R141). -/
def frequencies (bytes : List Byte) : Counts :=
  bytes.foldl countByte ((Vector.replicate Config.symbolCount 0).set sentinel.val 1)

/-- COUNT's loop counts every byte that is left, where TOTAL has room for them. -/
theorem countLoop_bytes {bytes : List Byte} {bound : Nat} {s : State} (left : bytesOf s.rest = bytes)
    (enough : bytes.length < bound) (room : s.total.toNat + bytes.length ≤ 2 ^ 32 - 1) :
    countLoop bound s = .next
      { s with
        counts := bytes.foldl countByte s.counts, total := s.total + BitVec.ofNat 32 bytes.length
        inPos := s.input.length, phase := phaseBuild } := by
  induction bytes generalizing bound s with
  | nil =>
    obtain ⟨bound, rfl⟩ := Nat.exists_eq_add_one.mpr enough
    rw [countLoop, readByte_nil left, List.length_nil, BitVec.ofNat_eq_ofNat, BitVec.add_zero]
    rfl
  | cons b bytes ih =>
    obtain ⟨bound, rfl⟩ := Nat.exists_eq_add_one.mpr (Nat.zero_lt_of_lt enough)
    obtain ⟨read, later⟩ := readByte_cons left
    rw [List.length_cons] at enough room
    have notFull : s.total.toNat ≠ 2 ^ 32 - 1 := by omega
    let u : State :=
      { s with counts := countByte s.counts b, total := s.total + 1, inPos := s.inPos + Config.unitBits }
    have counted : countLoop (bound + 1) s = countLoop bound u := by
      rw [countLoop, read]
      refine (if_neg notFull).trans ?_
      rw [BitVec.ofNat_toNat, BitVec.setWidth_eq]
      rfl
    have total : u.total.toNat = s.total.toNat + 1 := by simp only [u]; bv_omega
    have sum : u.total + BitVec.ofNat 32 bytes.length = s.total + BitVec.ofNat 32 (bytes.length + 1) := by
      simp only [u]; bv_omega
    rw [counted, ih (s := u) later (by omega) (by omega), sum]
    rfl

/-- COUNT on an input within the counting range: the table is the input's, and the next phase is BUILD. -/
theorem execCount_bytes {s : State} (short : (bytesOf s.rest).length ≤ 2 ^ 32 - 2) :
    exec .count s = .next
      { s with
        counts := frequencies (bytesOf s.rest), total := 1 + BitVec.ofNat 32 (bytesOf s.rest).length
        inPos := s.input.length, phase := phaseBuild } := by
  have enough : (bytesOf s.rest).length < s.rest.length + 1 := by rw [length_bytesOf]; omega
  have one : s.clearCounts.total.toNat = 1 := rfl
  exact countLoop_bytes (s := s.clearCounts) rfl enough (by rw [one]; omega)

/-- ENCODE's loop writes the code of every byte that is left, then the sentinel's. -/
theorem encodeLoop_bytes {bytes : List Byte} {bound : Nat} {s : State} (left : bytesOf s.rest = bytes)
    (enough : bytes.length < bound) :
    encodeLoop bound s = .next
      { s with
        inPos := s.input.length
        output := s.output ++ (bytes.flatMap (fun b => s.codeBits (symbolOfByte b)) ++ s.codeBits sentinel)
        phase := phaseCloseC } := by
  induction bytes generalizing bound s with
  | nil =>
    obtain ⟨bound, rfl⟩ := Nat.exists_eq_add_one.mpr enough
    rw [encodeLoop, readByte_nil left]
    rfl
  | cons b bytes ih =>
    obtain ⟨bound, rfl⟩ := Nat.exists_eq_add_one.mpr (Nat.zero_lt_of_lt enough)
    obtain ⟨read, later⟩ := readByte_cons left
    let u : State := { s with output := s.output ++ s.codeBits (symbolOfByte b), inPos := s.inPos + Config.unitBits }
    have written : encodeLoop (bound + 1) s = encodeLoop bound u := by
      rw [encodeLoop, read]
      simp only [BitVec.ofNat_toNat, BitVec.setWidth_eq]
      rfl
    rw [written, ih (s := u) later (Nat.lt_of_succ_lt_succ enough)]
    simp only [List.flatMap_cons, ← List.append_assoc]
    rfl

/-- ENCODE writes the payload. -/
theorem execEncode_bytes (s : State) :
    exec .encode s = .next
      { s with
        inPos := s.input.length
        output :=
          s.output ++ ((bytesOf s.rest).flatMap (fun b => s.codeBits (symbolOfByte b)) ++ s.codeBits sentinel)
        phase := phaseCloseC } :=
  encodeLoop_bytes rfl (by rw [length_bytesOf]; omega)

end Sys2Proof.Machine
end

section
/-! PROOFS. The codes that GENCODES records are the paths of the tree. -/

namespace Sys2Proof

open Machine

theorem CodeTree.mem_values_of_mem_paths {T : CodeTree} {v : LeafValue} {path : List Bool} (h : (v, path) ∈ T.paths) :
    v ∈ T.values :=
  List.mem_map_of_mem (f := Prod.fst) h

/-- A leaf's path is the one that `pathOf` finds. -/
theorem CodeTree.pathOf_mem {T : CodeTree} {v : LeafValue} (h : v ∈ T.values) : (v, T.pathOf v) ∈ T.paths := by
  obtain ⟨⟨w, path⟩, mem, rfl⟩ := List.mem_map.mp h
  have found : (T.paths.lookup w).isSome := List.lookup_isSome_iff.mpr ⟨(w, path), mem, BEq.rfl⟩
  obtain ⟨first, h⟩ := Option.isSome_iff_exists.mp found
  obtain ⟨before, after, split, -⟩ := List.lookup_eq_some_iff.mp h
  have path : T.pathOf w = first := by rw [pathOf, h, Option.getD_some]
  rw [path, split]
  exact List.mem_append_right _ (List.mem_cons_self ..)

/-- Over distinct symbols, every leaf's entry is its path, below a root at depth d with the path p; the other entries
stay. -/
theorem CodeTree.recordCodes_paths {T : CodeTree} (symbols : ∀ v ∈ T.values, v.toNat < 257) (once : T.values.Nodup)
    (d p : Nat) (code : CodeTable) :
    ∃ new, T.recordCodes d p code = .ok new ∧
      (∀ (x : Symbol) path, (valueOfSymbol x, path) ∈ T.paths →
        new[x] = mkCode (d + path.length) (p * 2 ^ path.length + num path)) ∧
      ∀ x : Symbol, valueOfSymbol x ∉ T.values → new[x] = code[x] := by
  induction T generalizing d p code with
  | leaf v =>
    refine ⟨_, dif_pos (symbols v (List.mem_singleton_self v)), fun x path h => ?_, fun x h => ?_⟩
    · obtain ⟨rfl, rfl⟩ := Prod.mk.inj (List.mem_singleton.mp h)
      simp
    · have other : v.toNat ≠ x.val := fun e => h (by
        rw [values_leaf, List.mem_singleton]
        exact BitVec.eq_of_toNat_eq ((valueOfSymbol_toNat x).trans e.symm))
      simp [Vector.getElem_set_ne, other]
  | node l r ihl ihr =>
    rw [values_node] at symbols once
    obtain ⟨oncel, oncer, apart⟩ := List.nodup_append.mp once
    obtain ⟨m, hm, pathsl, keptl⟩ :=
      ihl (fun v hv => symbols v (List.mem_append_left _ hv)) oncel (d + 1) (2 * p + 0) code
    obtain ⟨n, hn, pathsr, keptr⟩ :=
      ihr (fun v hv => symbols v (List.mem_append_right _ hv)) oncer (d + 1) (2 * p + 1) m
    refine ⟨n, by simp only [recordCodes, hm, hn], fun x path h => ?_, fun x h => ?_⟩
    · simp only [paths, List.mem_append, List.mem_map, Prod.mk.injEq, Prod.exists] at h
      obtain ⟨_, path, mem, rfl, rfl⟩ | ⟨_, path, mem, rfl, rfl⟩ := h
      · have notRight : valueOfSymbol x ∉ r.values := fun h => apart _ (mem_values_of_mem_paths mem) _ h rfl
        rw [keptr x notRight, pathsl x path mem, num_cons, List.length_cons, pow_succ]
        congr 1
        · omega
        · simp only [Bool.toNat_false]; ring
      · rw [pathsr x path mem, num_cons, List.length_cons, pow_succ]
        congr 1
        · omega
        · simp only [Bool.toNat_true]; ring
    · rw [values_node, List.mem_append, not_or] at h
      rw [keptr x h.2, keptl x h.1]

/-- The code table of s holds the tree's paths. -/
def CodeTree.Recorded (T : CodeTree) (s : State) : Prop := ∀ x : Symbol, s.codeBits x = T.pathOf (valueOfSymbol x)

/-- The leaves of a full tree are distinct. -/
theorem CodeTree.IsFull.values_nodup {T : CodeTree} (full : T.IsFull) : T.values.Nodup :=
  full.nodup_iff.mpr symbolValues_nodup

/-- A full tree has a leaf of every symbol, on a path of at most 256 edges (00_scope.md R14). -/
theorem CodeTree.IsFull.pathOf_mem {T : CodeTree} (full : T.IsFull) (x : Symbol) :
    (valueOfSymbol x, T.pathOf (valueOfSymbol x)) ∈ T.paths ∧ (T.pathOf (valueOfSymbol x)).length ≤ 256 := by
  have mem := T.pathOf_mem (full.mem_iff.mpr (List.mem_map_of_mem (List.mem_finRange x)))
  have leaves := full.values_length
  rw [values, List.length_map] at leaves
  have short : (T.pathOf (valueOfSymbol x)).length + 1 ≤ T.paths.length := path_length_lt mem
  exact ⟨mem, by omega⟩

namespace Machine

/-- An entry that holds a path reads back as it. -/
theorem State.codeBits_of_entry {s : State} {x : Symbol} {path : List Bool}
    (entry : s.codeOf x = mkCode path.length (num path)) (short : path.length ≤ 256) : s.codeBits x = path := by
  obtain ⟨code, bits⟩ := mkCode_path short
  rw [State.codeBits, entry, code]
  exact bits

/-- GENCODES where ROOT holds a full tree records its paths. -/
theorem execGencodes_recorded {s : State} {T : CodeTree} (held : HoldsTree s.arena T s.root) (full : T.IsFull) :
    ∃ code, exec .gencodes s = .next { s with code := code, phase := phaseWriteHeader } ∧
      T.Recorded { s with code := code } := by
  obtain ⟨code, ok, entries, -⟩ := T.recordCodes_paths full.symbols full.values_nodup 0 0 s.code
  refine ⟨code, (execGencodes_holdsTree held).trans (by rw [ok]; rfl), fun x => ?_⟩
  obtain ⟨mem, short⟩ := full.pathOf_mem x
  have entry := entries x _ mem
  rw [Nat.zero_add, Nat.zero_mul, Nat.zero_add] at entry
  exact State.codeBits_of_entry (s := { s with code := code }) entry short

end Machine

end Sys2Proof
end

section
/-! PROOFS. COMPRESS writes the file format: one phase after the other, from the last to the first. -/

namespace Sys2Proof

open Machine

/-- The header of a file: the magic number and the tree field (30_encoding.md R110, R111). -/
def CodeTree.header (T : CodeTree) : List Bool := bitsN Config.magicBits Config.magic ++ T.records

/-- The payload of a file: the codes of the input's bytes, then the sentinel's (30_encoding.md R112). -/
def CodeTree.payload (T : CodeTree) (bytes : List Byte) : List Bool :=
  bytes.flatMap (fun b => T.pathOf (valueOfSymbol (symbolOfByte b))) ++ T.pathOf sentinelValue

/-- Every BUILD over these counts leaves the full tree T at ROOT. -/
structure BuildsTree (counts : Counts) (T : CodeTree) : Prop where
  full : T.IsFull
  build : ∀ s : State, s.counts = counts →
    ∃ arena nalloc root,
      exec .build s = .next
        { s with arena := arena, nalloc := nalloc, root := root, pq := [], phase := phaseGencodes } ∧
      HoldsTree arena T root

/-- The tree is a function of the counts (42_tree_builder.md R161): any state that holds them shows it. -/
theorem exists_buildsTree (counts : Counts) : ∃ T, BuildsTree counts T := by
  let s : State := { State.reset with counts := counts }
  obtain ⟨write, nalloc, root, run⟩ := execBuild_ends s
  obtain ⟨build, -⟩ := run s rfl
  obtain ⟨T, held, full⟩ := (execBuild_built build).tree
  refine ⟨T, full, fun t same => ?_⟩
  obtain ⟨build', alike⟩ := run t same
  exact ⟨_, _, _, build', alike.holdsTree held⟩

namespace Machine

/-- A run of n steps from s completes, with T at ROOT, and the host has taken `out` padded to whole bytes. -/
def EndsWithFile (n : Nat) (s : State) (T : CodeTree) (out : List Bool) : Prop :=
  ∃ t : State, Host.Core.run Sys2Proof.core n s = .next t ∧ t.statusWord = 2 ∧ t.outClosed = true ∧
    HoldsTree t.arena T t.root ∧ t.output = out ++ List.replicate (padding out.length) false ∧
    t.taken = bytesOf t.output

variable {n : Nat} {s u : State} {T : CodeTree} {out : List Bool} {bytes : List Byte}

theorem run_phase {p : PhaseCode} {i : Instr} (running : Running p s) (named : decodePhase p = .ok i)
    (h : exec i s.statusRead = .next u) :
    Host.Core.run Sys2Proof.core (n + 1) s = Host.Core.run Sys2Proof.core n u := by
  obtain ⟨pending, busy, rfl⟩ := running
  exact run_step ((step_wait_busy pending busy named).trans h)

theorem EndsWithFile.of_phase {p : PhaseCode} {i : Instr} (running : Running p s) (named : decodePhase p = .ok i)
    (h : exec i s.statusRead = .next u) (later : EndsWithFile n u T out) : EndsWithFile (n + 1) s T out := by
  obtain ⟨t, run, file⟩ := later
  exact ⟨t, (run_phase running named h).trans run, file⟩

/-- Completion leaves DONE alone in STATUS, with PHASE IDLE. -/
theorem State.complete_statusWord (s : State) : s.complete.statusWord = 2 := by
  rw [State.statusWord, State.complete_busy, State.complete_done, State.complete_err, State.complete_errCode,
    State.complete_phase]
  decide

/-- CLOSE_C pads the output and completes; the host then takes the bytes (46_encoder.md R212). -/
theorem endsWithFile_closeC (running : Running phaseCloseC s) (held : HoldsTree s.arena T s.root) :
    EndsWithFile (n + 3) s T s.output :=
  ⟨_, (run_phase running rfl rfl).trans (run_ended (s := s.statusRead.close.complete) running.pending rfl n),
    s.statusRead.close.complete_statusWord, rfl, held, rfl, rfl⟩

/-- ENCODE appends the payload, in the codes of the tree at ROOT (46_encoder.md R211). -/
theorem endsWithFile_encode (running : Running phaseEncode s) (held : HoldsTree s.arena T s.root)
    (recorded : T.Recorded s) (left : bytesOf s.rest = bytes) :
    EndsWithFile (n + 4) s T (s.output ++ T.payload bytes) := by
  have encode := execEncode_bytes s.statusRead
  have codes : s.statusRead.codeBits = fun x => T.pathOf (valueOfSymbol x) := funext recorded
  rw [codes, show bytesOf s.statusRead.rest = bytes from left] at encode
  exact .of_phase running rfl encode (endsWithFile_closeC ⟨running.pending, running.busy, rfl⟩ held)

theorem endsWithFile_rewind (running : Running phaseRewind s) (held : HoldsTree s.arena T s.root)
    (recorded : T.Recorded s) (rewindable : s.rewindable = true) (input : s.input = bitsOfBytes bytes) :
    EndsWithFile (n + 5) s T (s.output ++ T.payload bytes) := by
  have left : bytesOf s.rewindInput.rest = bytes := by
    rw [State.rest, State.rewindInput_inPos, List.drop_zero, State.rewindInput_input, input, bytesOf_bitsOfBytes]
  exact .of_phase running rfl (if_pos rewindable)
    (endsWithFile_encode ⟨running.pending, running.busy, rfl⟩ held recorded left)

/-- WRITE_HEADER appends the header (44_tree_serializer.md R180). -/
theorem endsWithFile_writeHeader (running : Running phaseWriteHeader s) (held : HoldsTree s.arena T s.root)
    (recorded : T.Recorded s) (rewindable : s.rewindable = true) (input : s.input = bitsOfBytes bytes) :
    EndsWithFile (n + 6) s T (s.output ++ T.header ++ T.payload bytes) :=
  .of_phase running rfl (execWriteHeader_holdsTree held)
    (endsWithFile_rewind ⟨running.pending, running.busy, rfl⟩ held recorded rewindable input)

theorem endsWithFile_gencodes (running : Running phaseGencodes s) (held : HoldsTree s.arena T s.root) (full : T.IsFull)
    (rewindable : s.rewindable = true) (input : s.input = bitsOfBytes bytes) :
    EndsWithFile (n + 7) s T (s.output ++ T.header ++ T.payload bytes) := by
  obtain ⟨code, gencodes, recorded⟩ := execGencodes_recorded (s := s.statusRead) held full
  exact .of_phase running rfl gencodes
    (endsWithFile_writeHeader ⟨running.pending, running.busy, rfl⟩ held recorded rewindable input)

theorem endsWithFile_build (running : Running phaseBuild s) (builds : BuildsTree s.counts T)
    (rewindable : s.rewindable = true) (input : s.input = bitsOfBytes bytes) :
    EndsWithFile (n + 8) s T (s.output ++ T.header ++ T.payload bytes) := by
  obtain ⟨arena, nalloc, root, build, held⟩ := builds.build s.statusRead rfl
  exact .of_phase running rfl build
    (endsWithFile_gencodes ⟨running.pending, running.busy, rfl⟩ held builds.full rewindable input)

theorem endsWithFile_count (running : Running phaseCount s) (builds : BuildsTree (frequencies bytes) T)
    (short : bytes.length ≤ 2 ^ 32 - 2) (rewindable : s.rewindable = true) (input : s.input = bitsOfBytes bytes)
    (start : s.inPos = 0) : EndsWithFile (n + 9) s T (s.output ++ T.header ++ T.payload bytes) := by
  have left : bytesOf s.statusRead.rest = bytes := by
    rw [State.rest, State.statusRead, start, List.drop_zero, input, bytesOf_bitsOfBytes]
  have count := execCount_bytes (s := s.statusRead) (by rw [left]; exact short)
  rw [left] at count
  exact .of_phase running rfl count
    (endsWithFile_build ⟨running.pending, running.busy, rfl⟩ builds rewindable input)

end Machine

/-- Settles O56: the tree is the one that BUILD leaves over the input's frequencies, and the script's three first moves
leave COUNT running on the attached input with an empty output. -/
theorem compressWritesTheFileFormat : Obligations.CompressWritesTheFileFormat := by
  intro bytes short
  obtain ⟨T, builds⟩ := exists_buildsTree (frequencies bytes)
  refine ⟨T, builds.full, fun s idle => ?_⟩
  have file := endsWithFile_count (n := 0) (s := s.started 1 phaseCount bytes) ⟨rfl, rfl, rfl⟩ builds short rfl rfl rfl
  rw [run_commandScript (fun _ => writeCommand_compress) bytes idle]
  rw [CodeTree.payload, ← List.append_assoc] at file
  exact file

end Sys2Proof
end

section
/-! PROOFS. What COUNT answers: the frequency table of an input within the counting range, and InputTooLong past it. -/

namespace Sys2Proof.Machine

theorem symbolOfByte_injective : Function.Injective symbolOfByte :=
  fun _ _ same => BitVec.eq_of_toNat_eq (Fin.mk.inj same)

/-- No byte names the sentinel (00_scope.md R8). -/
theorem symbolOfByte_ne_sentinel (b : Byte) : symbolOfByte b ≠ sentinel :=
  fun same => absurd (congrArg Fin.val same) (Nat.ne_of_lt b.isLt)

/-- Counting a byte adds 1 to its own entry alone. -/
theorem getElem_countByte (table : Counts) (b : Byte) (x : Symbol) :
    (countByte table b)[x] = table[x] + if symbolOfByte b = x then 1 else 0 := by
  by_cases own : symbolOfByte b = x
  · subst own
    simp [countByte]
  · have apart : (symbolOfByte b).val ≠ x.val := fun same => own (Fin.ext same)
    rw [if_neg own, add_zero]
    exact Vector.getElem_set_ne _ _ apart

/-- Counting a list of bytes adds to each entry the number of times its symbol occurs. -/
theorem getElem_foldl_countByte (bytes : List Byte) (table : Counts) (x : Symbol) :
    (bytes.foldl countByte table)[x] = table[x] + BitVec.ofNat 32 ((bytes.map symbolOfByte).count x) := by
  induction bytes generalizing table with
  | nil => simp
  | cons b bytes ih =>
    rw [List.foldl_cons, ih, getElem_countByte, List.map_cons, List.count_cons, BitVec.add_assoc]
    by_cases own : symbolOfByte b = x
    · simp [own, BitVec.ofNat_add, BitVec.add_comm]
    · simp [own]

/-- A byte's frequency is its number of occurrences, modulo the width of a count. -/
theorem frequencies_byte (bytes : List Byte) (b : Byte) :
    (frequencies bytes)[symbolOfByte b] = BitVec.ofNat 32 (bytes.count b) := by
  have apart : sentinel.val ≠ (symbolOfByte b).val := fun same => symbolOfByte_ne_sentinel b (Fin.ext same.symm)
  rw [frequencies, getElem_foldl_countByte, List.count_map_of_injective _ _ symbolOfByte_injective, Fin.getElem_fin,
    Vector.getElem_set_ne _ _ apart, Vector.getElem_replicate, zero_add]

/-- The sentinel's frequency is 1 (41_frequency_counter.md R141). -/
theorem frequencies_sentinel (bytes : List Byte) : (frequencies bytes)[sentinel] = 1 := by
  have absent : sentinel ∉ bytes.map symbolOfByte := fun mem => by
    obtain ⟨b, -, same⟩ := List.mem_map.mp mem
    exact symbolOfByte_ne_sentinel b same
  rw [frequencies, getElem_foldl_countByte, List.count_eq_zero_of_not_mem absent]
  simp

/-- Settles O19: COUNT leaves `frequencies` of the bytes (`execCount_bytes`), and no number of occurrences passes the
input's length, which fits a count. -/
theorem countGivesTheFrequencyTable : Obligations.CountGivesTheFrequencyTable := by
  intro s short
  refine ⟨_, execCount_bytes short, ?_, fun b => ?_, frequencies_sentinel _⟩
  · rw [Nat.add_comm, BitVec.ofNat_add]
    rfl
  · have most : (bytesOf s.rest).count b ≤ (bytesOf s.rest).length := List.count_le_length
    calc (frequencies (bytesOf s.rest))[symbolOfByte b].toNat
        = (bytesOf s.rest).count b % 2 ^ 32 := by rw [frequencies_byte, BitVec.toNat_ofNat]
      _ = (bytesOf s.rest).count b := Nat.mod_eq_of_lt (by omega)

/-- s with the byte b consumed and counted. -/
def State.byteCounted (b : Byte) (s : State) : State :=
  { s with counts := countByte s.counts b, total := s.total + 1, inPos := s.inPos + Config.unitBits }

section

variable {bytes : List Byte} {b : Byte} {bound : Nat} {s : State}

/-- A pass of COUNT over a byte that TOTAL has room for. -/
theorem countLoop_byte (left : bytesOf s.rest = b :: bytes) (free : s.total.toNat ≠ 2 ^ 32 - 1) :
    countLoop (bound + 1) s = countLoop bound (s.byteCounted b) := by
  rw [countLoop, (readByte_cons left).1]
  refine (if_neg free).trans ?_
  rw [BitVec.ofNat_toNat, BitVec.setWidth_eq]
  rfl

/-- A pass of COUNT over a byte with TOTAL at its largest (41_frequency_counter.md R142). -/
theorem countLoop_full (left : bytesOf s.rest = b :: bytes) (full : s.total.toNat = 2 ^ 32 - 1) :
    countLoop (bound + 1) s =
      .next (({ s with inPos := s.inPos + Config.unitBits } : State).raise .inputTooLong) := by
  rw [countLoop, (readByte_cons left).1]
  exact if_pos full

/-- COUNT's loop where TOTAL has no room for all the bytes that are left: it counts until TOTAL is 2^32 - 1, and raises
InputTooLong on the byte after. -/
theorem countLoop_overflow (left : bytesOf s.rest = bytes) (enough : bytes.length < bound)
    (excess : 2 ^ 32 ≤ s.total.toNat + bytes.length) :
    ∃ table, countLoop bound s = .next
      (({ s with
          counts := table, total := BitVec.ofNat 32 (2 ^ 32 - 1)
          inPos := s.inPos + 8 * (2 ^ 32 - s.total.toNat) } : State).raise .inputTooLong) := by
  induction bytes generalizing bound s with
  | nil => exact absurd excess (Nat.not_le.mpr s.total.isLt)
  | cons b bytes ih =>
    obtain ⟨bound, rfl⟩ := Nat.exists_eq_add_one.mpr (Nat.zero_lt_of_lt enough)
    rw [List.length_cons] at enough excess
    by_cases full : s.total.toNat = 2 ^ 32 - 1
    · have total : s.total = BitVec.ofNat 32 (2 ^ 32 - 1) := BitVec.eq_of_toNat_eq full
      refine ⟨s.counts, (countLoop_full left full).trans ?_⟩
      rw [full, ← total]
      rfl
    · have total : (s.byteCounted b).total.toNat = s.total.toNat + 1 := by
        simp only [State.byteCounted]
        bv_omega
      have cursor : s.inPos + Config.unitBits + 8 * (2 ^ 32 - (s.total.toNat + 1)) =
          s.inPos + 8 * (2 ^ 32 - s.total.toNat) := by
        rw [Config.unitBits_eq]
        omega
      obtain ⟨table, run⟩ := ih (bound := bound) (s := s.byteCounted b) (readByte_cons left).2 (by omega) (by omega)
      rw [total, show (s.byteCounted b).inPos = s.inPos + Config.unitBits from rfl, cursor] at run
      exact ⟨table, (countLoop_byte left full).trans run⟩

end

/-- Settles O20: with the sentinel counted first, 2^32 - 2 bytes fill TOTAL (`countLoop_overflow`). -/
theorem countRefusesLongInput : Obligations.CountRefusesLongInput := by
  intro s long
  have one : s.clearCounts.total.toNat = 1 := rfl
  have enough : (bytesOf s.rest).length < s.rest.length + 1 := by rw [length_bytesOf]; omega
  exact countLoop_overflow (bytes := bytesOf s.rest) (s := s.clearCounts) rfl enough (by rw [one]; omega)

end Sys2Proof.Machine
end

section
/-! PROOFS. BUILD's queue: the default order is a TIE_ORDER, and insertion under one keeps the order of extraction. -/

namespace Sys2Proof.Machine

/-- The order of R151, on numbers: the smaller weight first, of equal weights the smaller handle. -/
theorem tieBefore_iff {x y : Key} :
    tieBefore x y = true ↔ x.weight.toNat < y.weight.toNat ∨
      x.weight.toNat = y.weight.toNat ∧ x.handle.toNat < y.handle.toNat := by
  simp [tieBefore]

theorem Key.eq_of_toNat_eq {x y : Key} (weight : x.weight.toNat = y.weight.toNat)
    (handle : x.handle.toNat = y.handle.toNat) : x = y :=
  congrArg₂ Key.mk (BitVec.eq_of_toNat_eq weight) (BitVec.eq_of_toNat_eq handle)

/-- Settles O25: the order of R151 is the lexicographic one on the two numbers of a key. -/
theorem defaultOrderIsATieOrder : Obligations.DefaultOrderIsATieOrder where
  irrefl x := by
    rw [Bool.eq_false_iff, ne_eq, tieBefore_iff]
    omega
  trans x y z := by
    simp only [tieBefore_iff]
    omega
  total x y apart := by
    have : ¬(x.weight.toNat = y.weight.toNat ∧ x.handle.toNat = y.handle.toNat) :=
      fun ⟨weight, handle⟩ => apart (Key.eq_of_toNat_eq weight handle)
    simp only [tieBefore_iff]
    omega
  weight x y less := tieBefore_iff.mpr (Or.inl less)

/-- Inserting a new key under a TIE_ORDER keeps the queue in the order of extraction (42_tree_builder.md R152). -/
theorem insertKey_pairwise {before : Key → Key → Bool} (order : IsTieOrder before) {k : Key} {q : List Key}
    (sorted : q.Pairwise fun x y => before x y = true) (new : k ∉ q) :
    (insertKey before k q).Pairwise fun x y => before x y = true := by
  induction q with
  | nil => exact List.pairwise_singleton ..
  | cons x q ih =>
    obtain ⟨first, later⟩ := List.pairwise_cons.mp sorted
    rw [List.mem_cons, not_or] at new
    obtain ⟨other, new⟩ := new
    by_cases less : before x k = true
    · rw [insertKey, if_pos less]
      refine List.pairwise_cons.mpr ⟨fun y hy => ?_, ih later new⟩
      obtain rfl | hy := mem_insertKey.mp hy
      · exact less
      · exact first y hy
    · have greater : before k x = true := (order.total k x other).resolve_right less
      rw [insertKey, if_neg less]
      refine List.pairwise_cons.mpr ⟨fun y hy => ?_, sorted⟩
      obtain rfl | hy := List.mem_cons.mp hy
      · exact greater
      · exact order.trans k x y greater (first y hy)

/-- Settles O26: insertion is `insertKey_perm` and `insertKey_pairwise`, and the least key of a queue in order is its
head. -/
theorem queueExtractsTheLeastKey : Obligations.QueueExtractsTheLeastKey := by
  intro k q sorted new
  have perm := insertKey_perm tieBefore k q
  have inOrder : InOrder (insertKey tieBefore k q) := insertKey_pairwise defaultOrderIsATieOrder sorted new
  obtain ⟨m, rest, queue⟩ := List.exists_cons_of_length_eq_add_one (length_insertKey tieBefore k q)
  refine ⟨inOrder, perm, m, rest, by rw [queue, extractMin], queue ▸ perm, ?_⟩
  rw [queue] at inOrder
  exact (List.pairwise_cons.mp inOrder).symm

end Sys2Proof.Machine
end

section
/-! PROOFS. The merges of BUILD one by one: the states that the second loop passes through, what all of them keep, and
what the arena at the end shows of each. -/

namespace Sys2Proof

open Machine

/-- The root of a full tree is internal (42_tree_builder.md R157). -/
theorem CodeTree.IsFull.exists_node {T : CodeTree} (full : T.IsFull) : ∃ l r, T = .node l r := by
  cases T with
  | leaf v => exact absurd full.size_eq (by simp [size])
  | node l r => exact ⟨l, r, rfl⟩

/-- Below an internal root no path is empty. -/
theorem CodeTree.path_length_pos {l r : CodeTree} {e : LeafValue × List Bool} (he : e ∈ (CodeTree.node l r).paths) :
    1 ≤ e.2.length := by
  obtain he | he := List.mem_append.mp he <;>
  · obtain ⟨_, -, rfl⟩ := List.mem_map.mp he
    exact Nat.succ_pos _

/-- A leaf of a full tree is 1 to 256 edges below the root (42_tree_builder.md R157). -/
theorem CodeTree.IsFull.path_length {T : CodeTree} (full : T.IsFull) {e : LeafValue × List Bool} (he : e ∈ T.paths) :
    1 ≤ e.2.length ∧ e.2.length ≤ 256 := by
  constructor
  · obtain ⟨l, r, rfl⟩ := full.exists_node
    exact path_length_pos he
  · have leaves := full.values_length
    rw [values, List.length_map] at leaves
    have := path_length_lt he
    omega

namespace Machine

variable {before firstLeft : Key → Key → Bool}

/-- The states that BUILD of s passes through: after its first loop, and after each merge (42_tree_builder.md R159). -/
inductive Merges (before firstLeft : Key → Key → Bool) (s : State) : Nat → State → Prop
  | start : Merges before firstLeft s 0 (placeSymbols before s)
  | merge {k : Nat} {u : State} {a b : Key} {rest : List Key} :
    Merges before firstLeft s k u → u.pq = a :: b :: rest →
      Merges before firstLeft s (k + 1) (mergeStep before firstLeft k a b rest u)

theorem mergeStep_node_of_ne {k : Nat} {s : State} {a b : Key} {rest : List Key} {g : Handle}
    (other : g ≠ mergeHandle k) :
    (mergeStep before firstLeft k a b rest s).node g = s.node g :=
  State.node_setNode_ne other

theorem eq_mergeHandle_or_lt {k : Nat} (le : k ≤ 255) {g : Handle} (lt : g.toNat < 257 + (k + 1)) :
    g = mergeHandle k ∨ g.toNat < 257 + k := by
  by_cases own : g.toNat = 257 + k
  · exact Or.inl (BitVec.eq_of_toNat_eq (own.trans (mergeHandle_toNat le).symm))
  · exact Or.inr (by omega)

theorem foldl_placeSymbol_node_above {g : Handle} (above : 257 ≤ g.toNat) (symbols : List Symbol) (s : State) :
    (symbols.foldl (placeSymbol before) s).node g = s.node g := by
  induction symbols generalizing s with
  | nil => rfl
  | cons x symbols ih =>
    have other : g ≠ symbolHandle x := by
      rintro rfl
      rw [symbolHandle_toNat] at above
      exact absurd (symbol_lt x) (Nat.not_lt.mpr above)
    exact (ih _).trans (State.node_setNode_ne other)

/-- The first loop writes the leaves' handles alone. -/
theorem placeSymbols_node_above {g : Handle} (above : 257 ≤ g.toNat) (s : State) :
    (placeSymbols before s).node g = s.node g :=
  foldl_placeSymbol_node_above above _ { s with pq := [] }

theorem foldl_placeSymbol_pairwise (order : IsTieOrder before) {symbols : List Symbol} {s : State}
    (once : symbols.Nodup) (new : ∀ x ∈ symbols, ∀ k ∈ s.pq, k.handle ≠ symbolHandle x)
    (sorted : s.pq.Pairwise fun x y => before x y = true) :
    (symbols.foldl (placeSymbol before) s).pq.Pairwise fun x y => before x y = true := by
  induction symbols generalizing s with
  | nil => exact sorted
  | cons x symbols ih =>
    obtain ⟨apart, once⟩ := List.nodup_cons.mp once
    refine ih (s := placeSymbol before s x) once (fun y hy k hk => ?_)
      (insertKey_pairwise order sorted fun mem => new x (List.mem_cons_self ..) _ mem rfl)
    obtain rfl | hk := mem_insertKey.mp hk
    · exact fun same => apart (symbolHandle_injective same ▸ hy)
    · exact new y (List.mem_cons_of_mem _ hy) k hk

/-- The first loop leaves the queue in the order of extraction. -/
theorem placeSymbols_pairwise (order : IsTieOrder before) (s : State) :
    (placeSymbols before s).pq.Pairwise fun x y => before x y = true :=
  foldl_placeSymbol_pairwise order (s := { s with pq := [] }) (List.nodup_finRange _)
    (fun _ _ _ hk => absurd hk List.not_mem_nil) .nil

/-- The first loop's queue is a function of the counts. -/
theorem placeSymbols_pq_congr {s s' : State} (counts : s'.counts = s.counts) :
    (placeSymbols before s').pq = (placeSymbols before s).pq := by
  obtain ⟨_, q, place, -⟩ :=
    foldl_placeSymbol_alike (before := before) (List.finRange Config.symbolCount) { s with pq := [] }
  exact (congrArg State.pq (place { s' with pq := [] } counts rfl)).trans
    (congrArg State.pq (place { s with pq := [] } rfl rfl)).symm

/-- The counts' sum (42_tree_builder.md R157). -/
def State.countSum (s : State) : Nat := ((List.finRange Config.symbolCount).map fun x => (s.count x).toNat).sum

/-- The sum of a queue's weights. -/
def queueWeight (q : List Key) : Nat := (q.map fun x => x.weight.toNat).sum

theorem queueWeight_perm {q q' : List Key} (perm : q.Perm q') : queueWeight q = queueWeight q' :=
  (perm.map _).sum_eq

theorem queueWeight_cons (x : Key) (q : List Key) : queueWeight (x :: q) = x.weight.toNat + queueWeight q :=
  List.sum_cons

/-- The sum of two weights is exact where it fits a word (42_tree_builder.md R155). -/
theorem addWeights_toNat {x y : Word} (fits : x.toNat + y.toNat < 2 ^ 32) :
    (addWeights x y).toNat = x.toNat + y.toNat := by
  rw [addWeights, if_pos fits, BitVec.toNat_add, Nat.mod_eq_of_lt fits]

/-- The j-th merge of an arena took the node at g. -/
def MergedBy (arena : Arena) (j : Nat) (g : Handle) : Prop :=
  g = (nodeAt arena (mergeHandle j)).left ∨ g = (nodeAt arena (mergeHandle j)).right

/-- Two arenas with the same node at the j-th merge show the same children of it. -/
theorem mergedBy_congr {a b : Arena} {j : Nat} (node : nodeAt b (mergeHandle j) = nodeAt a (mergeHandle j))
    {g : Handle} : MergedBy b j g ↔ MergedBy a j g := by
  rw [MergedBy, MergedBy, node]

theorem keyOf_congr {a b : Arena} {h : Handle} (node : nodeAt b h = nodeAt a h) : keyOf b h = keyOf a h := by
  rw [keyOf, keyOf, node]

theorem mergedBy_mergeStep_self {k : Nat} {s : State} {a b : Key} {rest : List Key} {g : Handle} :
    MergedBy (mergeStep before firstLeft k a b rest s).arena k g ↔ g = a.handle ∨ g = b.handle := by
  rw [MergedBy, ← State.node, mergeStep_node_self]
  obtain ⟨-, ⟨hl, hr⟩ | ⟨hl, hr⟩⟩ := mergeNode_children (firstLeft := firstLeft) s a b <;> rw [hl, hr]
  exact or_comm

namespace Merges

variable {s : State} {k : Nat} {u : State}

theorem merging (r : Merges before firstLeft s k u) : Merging k u := by
  induction r with
  | start => exact placeSymbols_merging s
  | merge _ queue ih => exact ih.step queue

/-- Before its 257th pass the loop has two keys to merge. -/
theorem exists_cons_cons (r : Merges before firstLeft s k u) (le : k ≤ 255) :
    ∃ a b rest, u.pq = a :: b :: rest := by
  have length := r.merging.length
  match queue : u.pq with
  | [] => rw [queue, List.length_nil] at length; omega
  | [_] => rw [queue, List.length_singleton] at length; omega
  | a :: b :: rest => exact ⟨a, b, rest, rfl⟩

theorem le_255 {a b : Key} {rest : List Key} (r : Merges before firstLeft s k u) (queue : u.pq = a :: b :: rest) :
    k ≤ 255 := by
  have := r.merging.rest_length queue
  omega

theorem le_256 (r : Merges before firstLeft s k u) : k ≤ 256 := by
  cases r with
  | start => exact Nat.zero_le _
  | merge r queue => exact Nat.succ_le_succ (r.le_255 queue)

/-- The merges write above the symbols' leaves. -/
theorem node_symbol (r : Merges before firstLeft s k u) (x : Symbol) : u.node (symbolHandle x) = s.symbolLeaf x := by
  induction r with
  | start => exact placeSymbols_node s x
  | merge r queue ih =>
    have lt := symbol_lt x
    exact (r.merging.node_old queue (by rw [symbolHandle_toNat]; omega)).trans ih

/-- The merges write below handle 513. -/
theorem node_above (r : Merges before firstLeft s k u) {g : Handle} (above : 513 ≤ g.toNat) :
    u.node g = s.node g := by
  induction r with
  | start => exact placeSymbols_node_above (by omega) s
  | merge r queue ih =>
    have handle := r.merging.handle_toNat queue
    have le := r.le_255 queue
    exact (mergeStep_node_of_ne fun e => by rw [e, handle] at above; omega).trans ih

/-- The queue's keys are those of the arena's nodes (42_tree_builder.md R151). -/
theorem keyOf_mem (r : Merges before firstLeft s k u) {x : Key} (hx : x ∈ u.pq) : keyOf u.arena x.handle = x := by
  induction r with
  | start =>
    obtain ⟨y, -, rfl⟩ := List.mem_map.mp ((placeSymbols_pq s).mem_iff.mp hx)
    exact congrArg₂ Key.mk (congrArg Node.weight (placeSymbols_node s y)) rfl
  | @merge k v a b rest r queue ih =>
    obtain rfl | hx := mem_insertKey.mp hx
    · exact congrArg₂ Key.mk (congrArg Node.weight mergeStep_node_self) rfl
    · have old : x ∈ v.pq := by simp [queue, hx]
      exact (keyOf_congr (r.merging.node_old queue (r.merging.taken x old))).trans (ih old)

theorem weight_mem (r : Merges before firstLeft s k u) {x : Key} (hx : x ∈ u.pq) :
    (u.node x.handle).weight = x.weight :=
  congrArg Key.weight (r.keyOf_mem hx)

/-- The queue holds no handle twice. -/
theorem handles_nodup (r : Merges before firstLeft s k u) : (u.pq.map Key.handle).Nodup := by
  induction r with
  | start =>
    rw [((placeSymbols_pq s).map _).nodup_iff, List.map_map]
    exact (List.nodup_finRange _).map symbolHandle_injective
  | merge r queue ih =>
    rw [queue] at ih
    rw [mergeStep_pq, ((insertKey_perm ..).map _).nodup_iff]
    refine List.nodup_cons.mpr ⟨fun mem => ?_, (List.nodup_cons.mp (List.nodup_cons.mp ih).2).2⟩
    obtain ⟨x, hx, same⟩ := List.mem_map.mp mem
    exact r.merging.ne_handle queue (r.merging.taken x (by rw [queue]; simp [hx])) same

/-- The queue is in the order of extraction. -/
theorem pairwise (order : IsTieOrder before) (r : Merges before firstLeft s k u) :
    u.pq.Pairwise fun x y => before x y = true := by
  induction r with
  | start => exact placeSymbols_pairwise order s
  | merge r queue ih =>
    rw [queue] at ih
    have nodup := (r.merge queue).handles_nodup
    rw [mergeStep_pq, ((insertKey_perm ..).map _).nodup_iff] at nodup
    exact insertKey_pairwise order (List.pairwise_cons.mp (List.pairwise_cons.mp ih).2).2
      fun mem => (List.nodup_cons.mp nodup).1 (List.mem_map_of_mem mem)

theorem mergeHandle_lt (r : Merges before firstLeft s k u) {j : Nat} (lt : j < k) :
    (mergeHandle j).toNat < 257 + k := by
  have le := r.le_256
  rw [mergeHandle_toNat (by omega)]
  omega

/-- A merge's children have handles below its own. -/
theorem lt_of_mergedBy (r : Merges before firstLeft s k u) {j : Nat} (lt : j < k) {g : Handle}
    (merged : MergedBy u.arena j g) : g.toNat < 257 + j := by
  have le := r.le_256
  obtain ⟨-, inner⟩ := r.merging.nodes (mergeHandle j)
  rw [mergeHandle_toNat (by omega)] at inner
  obtain ⟨-, hl, hr⟩ := inner (by omega) (by omega)
  obtain rfl | rfl := merged
  · exact hl
  · exact hr

/-- The queue holds exactly the nodes not yet merged. -/
theorem mem_handles_iff (r : Merges before firstLeft s k u) {g : Handle} (lt : g.toNat < 257 + k) :
    g ∈ u.pq.map Key.handle ↔ ∀ j < k, ¬ MergedBy u.arena j g := by
  induction r with
  | start =>
    obtain ⟨x, rfl⟩ := exists_symbolHandle lt
    rw [((placeSymbols_pq s).map _).mem_iff, List.map_map]
    exact iff_of_true (List.mem_map_of_mem (List.mem_finRange x)) fun j hj => absurd hj (Nat.not_lt_zero j)
  | @merge k v a b rest r queue ih =>
    rw [mergeStep_pq, ((insertKey_perm ..).map _).mem_iff, List.map_cons, List.mem_cons]
    obtain rfl | old := eq_mergeHandle_or_lt (r.le_255 queue) lt
    · refine iff_of_true (Or.inl rfl) fun j hj merged => ?_
      have := (r.merge queue).lt_of_mergedBy hj merged
      rw [r.merging.handle_toNat queue] at this
      omega
    · have nodup := r.handles_nodup
      have kept : ∀ j < k, MergedBy (mergeStep before firstLeft k a b rest v).arena j g ↔ MergedBy v.arena j g :=
        fun j hj => mergedBy_congr (r.merging.node_old queue (r.mergeHandle_lt hj))
      specialize ih old
      rw [queue] at ih nodup
      simp only [List.map_cons, List.mem_cons, List.nodup_cons, not_or] at ih nodup
      obtain ⟨⟨-, notA⟩, notB, -⟩ := nodup
      simp only [Nat.forall_lt_succ_right, mergedBy_mergeStep_self, not_or]
      rw [forall₂_congr fun j hj => not_congr (kept j hj), ← ih]
      have fresh : g ≠ mergeHandle k := r.merging.ne_handle queue old
      constructor
      · rintro (own | mem)
        · exact absurd own fresh
        · exact ⟨Or.inr (Or.inr mem), fun e => notA (e ▸ mem), fun e => notB (e ▸ mem)⟩
      · rintro ⟨rfl | rfl | mem, na, nb⟩
        · exact absurd rfl na
        · exact absurd rfl nb
        · exact Or.inr mem

/-- No merge changes the sum of the queue's weights. -/
theorem queueWeight_eq (r : Merges before firstLeft s k u) (fits : s.countSum < 2 ^ 32) :
    queueWeight u.pq = s.countSum := by
  induction r with
  | start =>
    rw [queueWeight_perm (placeSymbols_pq s), queueWeight, List.map_map]
    rfl
  | @merge k v a b rest r queue ih =>
    have ha := r.weight_mem (x := a) (by simp [queue])
    have hb := r.weight_mem (x := b) (by simp [queue])
    rw [queue, queueWeight_cons, queueWeight_cons] at ih
    have sum : (mergeKey firstLeft k a b v).weight.toNat = a.weight.toNat + b.weight.toNat := by
      rw [← addWeights_toNat (by omega), ← ha, ← hb]
      rfl
    rw [mergeStep_pq, queueWeight_perm (insertKey_perm ..), queueWeight_cons, sum]
    omega

/-- What a later state shows of the j-th merge: its node, and the nodes below it as they were. -/
theorem exists_earlier (r : Merges before firstLeft s k u) {j : Nat} (lt : j < k) :
    ∃ v a b rest, Merges before firstLeft s j v ∧ v.pq = a :: b :: rest ∧
      u.node (mergeHandle j) = mergeNode firstLeft v a b ∧
      ∀ g : Handle, g.toNat < 257 + j → u.node g = v.node g := by
  induction r with
  | start => exact absurd lt (Nat.not_lt_zero j)
  | @merge k v a b rest r queue ih =>
    obtain rfl | lt := Nat.eq_or_lt_of_le (Nat.le_of_lt_succ lt)
    · exact ⟨v, a, b, rest, r, queue, mergeStep_node_self, fun g below => r.merging.node_old queue below⟩
    · obtain ⟨w, c, d, more, earlier, hq, node, kept⟩ := ih lt
      exact ⟨w, c, d, more, earlier, hq, (r.merging.node_old queue (r.mergeHandle_lt lt)).trans node,
        fun g below => (r.merging.node_old queue (by omega)).trans (kept g below)⟩

/-- The two keys of a merge are the least of the nodes not yet merged, in order (42_tree_builder.md R151, R152). -/
theorem least (order : IsTieOrder before) (r : Merges before firstLeft s k u) {a b : Key} {rest : List Key}
    (queue : u.pq = a :: b :: rest) :
    before a b = true ∧ ∀ g : Handle, g.toNat < 257 + k → (∀ j < k, ¬ MergedBy u.arena j g) →
      g ≠ a.handle → g ≠ b.handle → before b (keyOf u.arena g) = true := by
  have sorted := r.pairwise order
  rw [queue] at sorted
  obtain ⟨first, sorted⟩ := List.pairwise_cons.mp sorted
  obtain ⟨second, -⟩ := List.pairwise_cons.mp sorted
  refine ⟨first b (List.mem_cons_self ..), fun g lt free notA notB => ?_⟩
  obtain ⟨x, hx, rfl⟩ := List.mem_map.mp ((r.mem_handles_iff lt).mpr free)
  rw [r.keyOf_mem hx]
  rw [queue] at hx
  obtain rfl | hx := List.mem_cons.mp hx
  · exact absurd rfl notA
  · obtain rfl | hx := List.mem_cons.mp hx
    · exact absurd rfl notB
    · exact second x hx

/-- A node of the queue is not yet merged. -/
theorem not_mergedBy (r : Merges before firstLeft s k u) {x : Key} (hx : x ∈ u.pq) {j : Nat} (lt : j < k) :
    ¬ MergedBy u.arena j x.handle :=
  (r.mem_handles_iff (r.merging.taken x hx)).mp (List.mem_map_of_mem hx) j lt

/-- The merges are the same over the same counts (42_tree_builder.md R161). -/
theorem alike {s' u' : State} (counts : s'.counts = s.counts) (r : Merges before firstLeft s k u)
    (r' : Merges before firstLeft s' k u') :
    u'.pq = u.pq ∧ ∀ g : Handle, g.toNat < 257 + k → u'.node g = u.node g := by
  induction r generalizing u' with
  | start =>
    cases r'
    refine ⟨placeSymbols_pq_congr counts, fun g lt => ?_⟩
    obtain ⟨x, rfl⟩ := exists_symbolHandle lt
    rw [placeSymbols_node, placeSymbols_node, State.symbolLeaf, State.symbolLeaf, State.count, State.count, counts]
  | @merge k v a b rest r queue ih =>
    cases r' with | @merge _ v' _ _ _ r' queue' =>
    obtain ⟨pq, nodes⟩ := ih r'
    rw [queue', queue] at pq
    cases pq
    have node : mergeNode firstLeft v' a b = mergeNode firstLeft v a b := by
      rw [mergeNode, nodes _ (r.merging.taken a (by simp [queue])), nodes _ (r.merging.taken b (by simp [queue]))]
      rfl
    refine ⟨by rw [mergeStep_pq, mergeStep_pq, mergeKey, node]; rfl, fun g lt => ?_⟩
    obtain rfl | old := eq_mergeHandle_or_lt (r.le_255 queue) lt
    · rw [mergeStep_node_self, mergeStep_node_self, node]
    · rw [r'.merging.node_old queue' old, r.merging.node_old queue old, nodes g old]

end Merges

/-- BUILD reaches each of its merges. -/
theorem exists_merges (s : State) {k : Nat} (le : k ≤ 256) :
    ∃ u, Merges before firstLeft s k u ∧
      buildWith before firstLeft s = mergeLoop before firstLeft (257 - k) k u := by
  induction k with
  | zero =>
    have length := (placeSymbols_merging (before := before) s).length
    rw [Nat.add_zero] at length
    exact ⟨_, .start, by rw [buildWith, length]⟩
  | succ k ih =>
    obtain ⟨u, r, run⟩ := ih (by omega)
    obtain ⟨a, b, rest, queue⟩ := r.exists_cons_cons (by omega)
    refine ⟨_, r.merge queue, run.trans ?_⟩
    rw [show 257 - k = 257 - (k + 1) + 1 by omega, mergeLoop_cons_cons queue]

/-- BUILD ends with the arena of its 256th merge, and the one key that is left names the root. -/
theorem exists_last_merge (s : State) :
    ∃ u root, Merges before firstLeft s 256 u ∧ u.pq = [root] ∧
      (buildWith before firstLeft s).arena = u.arena ∧ (buildWith before firstLeft s).root = root.handle := by
  obtain ⟨u, r, run⟩ := exists_merges (before := before) (firstLeft := firstLeft) s (Nat.le_refl 256)
  have length := r.merging.length
  obtain ⟨root, queue⟩ := List.length_eq_one_iff.mp (show u.pq.length = 1 by omega)
  rw [mergeLoop_singleton queue, finishBuild_cons queue] at run
  exact ⟨u, root, r, queue, by rw [run], by rw [run]⟩

/-- BUILD as an instruction, at its 256th merge. -/
theorem execBuild_last_merge {s t : State} (h : exec .build s = .next t) :
    ∃ u root, Merges tieBefore firstIsLeft s 256 u ∧ u.pq = [root] ∧ t.arena = u.arena ∧
      t.root = root.handle := by
  rw [exec, execBuild, Host.Outcome.next.injEq] at h
  exact h ▸ exists_last_merge s

/-- Settles O21: the tree, ROOT and NALLOC are those of `Built`; the leaves stand as the first loop placed them, and no
merge writes above handle 512. -/
theorem buildMakesTheFullTree : Obligations.BuildMakesTheFullTree := by
  intro s
  obtain ⟨arena, nalloc, root, build⟩ := buildWith_shape tieBefore firstIsLeft s
  have run : exec .build s = .next (buildWith tieBefore firstIsLeft s) := rfl
  rw [build] at run
  obtain ⟨builtArena, rfl, rfl, T, held, full⟩ := execBuild_built run
  obtain ⟨u, -, r, -, rfl, -⟩ := execBuild_last_merge run
  exact ⟨u.arena, T, run, r.node_symbol, held, full, full.size_eq, fun _ => full.path_length, builtArena,
    fun _ => r.node_above⟩

/-- Settles O24: the two runs end alike (`Merges.alike`), with the ROOT and NALLOC of every BUILD. -/
theorem buildDependsOnTheCountsAlone : Obligations.BuildDependsOnTheCountsAlone := by
  intro s s' t t' counts h h'
  have counts : s'.counts = s.counts := Vector.ext fun i hi => (counts ⟨i, hi⟩).symm
  obtain ⟨u, -, r, -, arena, -⟩ := execBuild_last_merge h
  obtain ⟨u', -, r', -, arena', -⟩ := execBuild_last_merge h'
  have built := execBuild_built h
  have built' := execBuild_built h'
  obtain ⟨-, nodes⟩ := r.alike counts r'
  refine ⟨built.root.trans built'.root.symm, built.nalloc.trans built'.nalloc.symm, fun g lt => ?_⟩
  rw [State.node_congr arena, State.node_congr arena', nodes g lt]

/-- Settles O23: the queue's weights keep the counts' sum, so no merge's sum passes a word; the last key's is the
root's. -/
theorem buildWeightsAreExactSums : Obligations.BuildWeightsAreExactSums := by
  intro s t fits h
  have fits : s.countSum < 2 ^ 32 := fits
  obtain ⟨u, root, r, queue, arena, ht⟩ := execBuild_last_merge h
  have node : ∀ g, t.node g = u.node g := State.node_congr arena
  refine ⟨fun k lt => ?_, ?_⟩
  · obtain ⟨v, a, b, rest, earlier, hq, merged, kept⟩ := r.exists_earlier lt
    have ha : a ∈ v.pq := by simp [hq]
    have hb : b ∈ v.pq := by simp [hq]
    have sum := earlier.queueWeight_eq fits
    rw [hq, queueWeight_cons, queueWeight_cons] at sum
    have wa := (congrArg Node.weight (kept _ (earlier.merging.taken a ha))).trans (earlier.weight_mem ha)
    have wb := (congrArg Node.weight (kept _ (earlier.merging.taken b hb))).trans (earlier.weight_mem hb)
    show (t.node (mergeHandle k)).weight.toNat =
      (t.node (t.node (mergeHandle k)).left).weight.toNat + (t.node (t.node (mergeHandle k)).right).weight.toNat
    simp only [node, merged]
    show (addWeights (v.node a.handle).weight (v.node b.handle).weight).toNat =
      (u.node a.handle).weight.toNat + (u.node b.handle).weight.toNat
    rw [wa, wb, earlier.weight_mem ha, earlier.weight_mem hb]
    exact addWeights_toNat (by omega)
  · have sum := r.queueWeight_eq fits
    rw [queue, queueWeight, List.map_singleton, List.sum_singleton] at sum
    rw [node, ht, r.weight_mem (by simp [queue])]
    exact sum

/-- Settles O22: the k-th merge takes the least two of the nodes not yet merged (`Merges.least`), and the arena at the
end still shows them as they were. -/
theorem buildMergesTheLeastKeys : Obligations.BuildMergesTheLeastKeys := by
  intro s t h k lt
  obtain ⟨u, -, r, -, arena, -⟩ := execBuild_last_merge h
  obtain ⟨v, a, b, rest, earlier, queue, merged, kept⟩ := r.exists_earlier lt
  have kept : ∀ g : Handle, g.toNat < 257 + k → t.node g = v.node g :=
    fun g lt => (State.node_congr arena g).trans (kept g lt)
  have m := earlier.merging
  have ha : a ∈ v.pq := by simp [queue]
  have hb : b ∈ v.pq := by simp [queue]
  have key : ∀ x ∈ v.pq, keyOf t.arena x.handle = x :=
    fun x hx => (keyOf_congr (kept _ (m.taken x hx))).trans (earlier.keyOf_mem hx)
  have used : ∀ j < k, ∀ g, MergedBy t.arena j g ↔ MergedBy v.arena j g :=
    fun j hj g => mergedBy_congr (kept _ (earlier.mergeHandle_lt hj))
  obtain ⟨first, second⟩ := earlier.least defaultOrderIsATieOrder queue
  have node : t.node (mergeHandle k) = mergeNode firstIsLeft v a b := (State.node_congr arena _).trans merged
  have free : ∀ x ∈ v.pq, ∀ j < k, ¬ MergedBy t.arena j x.handle :=
    fun x hx j hj => mt (used j hj _).mp (earlier.not_mergedBy hx hj)
  intro n _
  rw [show n = mergeNode firstIsLeft v a b from node]
  refine ⟨rfl, rfl, m.taken a ha, m.taken b hb, ?_, fun j hj => ⟨free a ha j hj, free b hb j hj⟩,
    fun g below waiting => ?_⟩
  · show tieBefore (keyOf t.arena a.handle) (keyOf t.arena b.handle) = true
    rw [key a ha, key b hb]
    exact first
  · have waiting : ∀ j ≤ k, ¬ MergedBy t.arena j g := waiting
    have own := waiting k (Nat.le_refl k)
    rw [MergedBy, ← State.node, node, not_or] at own
    show tieBefore (keyOf t.arena b.handle) (keyOf t.arena g) = true
    rw [key b hb, keyOf_congr (kept g below)]
    exact second g below (fun j hj => mt (used j hj g).mpr (waiting j hj.le)) own.1 own.2

end Machine

end Sys2Proof
end

section
/-! PROOFS. DESERIALIZE on the records of a tree: the nodes stand at handles in pre-order. -/

namespace Sys2Proof

open Machine

/-- The arena holds a tree's nodes at the handles from `base` on, in pre-order (45_tree_deserializer.md R194). -/
def StoredAt (arena : Arena) : CodeTree → Nat → Prop
  | .leaf v, base => nodeAt arena (BitVec.ofNat 10 base) = leafNode v
  | .node l r, base =>
    nodeAt arena (BitVec.ofNat 10 base) =
        innerNode (BitVec.ofNat 10 (base + 1)) (BitVec.ofNat 10 (base + 1 + l.size)) ∧
      StoredAt arena l (base + 1) ∧ StoredAt arena r (base + 1 + l.size)

theorem StoredAt.holdsTree {arena : Arena} {T : CodeTree} {base : Nat} (stored : StoredAt arena T base) :
    HoldsTree arena T (BitVec.ofNat 10 base) := by
  induction T generalizing base with
  | leaf v =>
    rw [StoredAt] at stored
    rw [HoldsTree, stored]
    exact ⟨rfl, rfl⟩
  | node l r ihl ihr =>
    obtain ⟨node, hl, hr⟩ := stored
    rw [HoldsTree, node]
    exact ⟨rfl, ihl hl, ihr hr⟩

/-- A tree stays stored in an arena that keeps its handles. -/
theorem StoredAt.congr {a b : Arena} {T : CodeTree} {base : Nat}
    (kept : ∀ i, base ≤ i → i < base + T.size → nodeAt b (BitVec.ofNat 10 i) = nodeAt a (BitVec.ofNat 10 i))
    (stored : StoredAt a T base) : StoredAt b T base := by
  induction T generalizing base with
  | leaf v => exact (kept base (Nat.le_refl _) (Nat.lt_succ_self _)).trans stored
  | node l r ihl ihr =>
    obtain ⟨node, hl, hr⟩ := stored
    rw [CodeTree.size] at kept
    exact ⟨(kept base (by omega) (by omega)).trans node, ihl (fun i _ _ => kept i (by omega) (by omega)) hl,
      ihr (fun i _ _ => kept i (by omega) (by omega)) hr⟩

/-- `b` keeps the entries of `a` outside the handles of a tree from `base` on. -/
def KeptOutside (a b : Arena) (T : CodeTree) (base : Nat) : Prop :=
  ∀ h : Handle, h.toNat < base ∨ base + T.size ≤ h.toNat → nodeAt b h = nodeAt a h

theorem handle_toNat {i : Nat} (lt : i < 1024) : (BitVec.ofNat 10 i).toNat = i := Nat.mod_eq_of_lt lt

/-- A leaf written at a handle is stored there. -/
theorem StoredAt.set_leaf (a : Arena) (v : LeafValue) {base : Nat} (lt : base < 1024) :
    let h : Handle := BitVec.ofNat 10 base
    let b := a.set h.toNat (leafNode v) h.isLt
    StoredAt b (.leaf v) base ∧ KeptOutside a b (.leaf v) base := by
  refine ⟨nodeAt_set_self .., fun g outside => nodeAt_set_ne ?_⟩
  rintro rfl
  rw [handle_toNat lt, CodeTree.size] at outside
  omega

/-- Two trees stored one after the other, and then the node over them at the handle before. -/
theorem StoredAt.set_node {a b c : Arena} {l r : CodeTree} {base : Nat} (fits : base + (1 + l.size + r.size) ≤ 1024)
    (storedl : StoredAt b l (base + 1)) (keptl : KeptOutside a b l (base + 1))
    (storedr : StoredAt c r (base + 1 + l.size)) (keptr : KeptOutside b c r (base + 1 + l.size)) :
    let h : Handle := BitVec.ofNat 10 base
    let d := c.set h.toNat (innerNode (BitVec.ofNat 10 (base + 1)) (BitVec.ofNat 10 (base + 1 + l.size))) h.isLt
    StoredAt d (.node l r) base ∧ KeptOutside a d (.node l r) base := by
  intro h d
  have written : ∀ g : Handle, g.toNat ≠ base → nodeAt d g = nodeAt c g := by
    refine fun g other => nodeAt_set_ne fun same => other ?_
    rw [same, handle_toNat (by omega)]
  refine ⟨⟨nodeAt_set_self .., storedl.congr fun i ge lt => ?_, storedr.congr fun i ge lt => ?_⟩,
    fun g outside => ?_⟩
  · have handle := handle_toNat (i := i) (by omega)
    rw [written _ (by omega), keptr _ (by omega)]
  · exact written _ (by rw [handle_toNat (by omega)]; omega)
  · rw [CodeTree.size] at outside
    rw [written _ (by omega), keptr _ (by omega), keptl _ (by omega)]

namespace Machine

/-- What DESERIALIZE's loop does once a record's node is returned: it ends with the last open node. -/
def afterNode (bound : Nat) (t : State) : Host.Outcome State Fault Refusal :=
  if t.walkStack.isEmpty then .next t else recordLoop bound t

/-- s once the records of a tree are read: the entries written, the handles taken, the bits consumed. -/
def State.treeRead (arena : Arena) (T : CodeTree) (s : State) : State :=
  { s with
    arena := arena, nalloc := BitVec.ofNat 11 (s.nalloc.toNat + T.size), inPos := s.inPos + T.records.length }

/-- s once an INTERNAL record is read. -/
def State.internalRead (s : State) : State := ({ s with inPos := s.inPos + 1 } : State).openInternal

/-- s once an INTERNAL record and the records of its left subtree are read. -/
def State.leftRead (arena : Arena) (l : CodeTree) (s : State) : State :=
  { s.internalRead.treeRead arena l with
    walkStack := { node := s.nextHandle, left := some s.internalRead.nextHandle } :: s.walkStack }

section

variable {s : State} {l r T : CodeTree} {more : List Bool} {arena : Arena}

/-- The bits left after a tree's records. -/
theorem State.rest_treeRead (bits : s.rest = T.records ++ more) : (s.treeRead arena T).rest = more := by
  refine (s.rest_withInPos T.records.length).trans ?_
  rw [bits, List.drop_left]

theorem State.internalRead_nalloc (free : s.nalloc.toNat < 1024) : s.internalRead.nalloc.toNat = s.nalloc.toNat + 1 :=
  State.allocate_nalloc_toNat (s := { s with inPos := s.inPos + 1 }) free

theorem State.leftRead_nalloc (fits : s.nalloc.toNat + 1 + l.size ≤ 1024) :
    (s.leftRead arena l).nalloc.toNat = s.nalloc.toNat + 1 + l.size := by
  show (BitVec.ofNat 11 (s.internalRead.nalloc.toNat + l.size)).toNat = _
  rw [State.internalRead_nalloc (by omega), BitVec.toNat_ofNat, Nat.mod_eq_of_lt (by omega)]

/-- Returning a node reads the open nodes from its argument alone. -/
theorem returnNode_withWalkStack (frames frames' : List Frame) (h : Handle) (s : State) :
    returnNode h frames { s with walkStack := frames' } = returnNode h frames s := by
  induction frames generalizing h s with
  | nil => rfl
  | cons f rest ih =>
    obtain ⟨n, _ | l⟩ := f
    · rfl
    · exact ih n (s.setNode n (innerNode l h))

/-- An open node whose left child is known is written, and returned in turn. -/
theorem returnNode_right (h n left : Handle) (rest : List Frame) (s : State) :
    returnNode h ({ node := n, left := some left } :: rest) s =
      returnNode n rest (s.setNode n (innerNode left h)) := rfl

/-- With its left subtree known, an open node is returned when its right subtree is. -/
theorem returnNode_leftRead (fits : s.nalloc.toNat + 1 + l.size ≤ 1024) (h : Handle) (arena' : Arena) :
    returnNode h (s.leftRead arena l).walkStack ((s.leftRead arena l).treeRead arena' r) =
      returnNode s.nextHandle s.walkStack
        (s.treeRead (arena'.set s.nextHandle.toNat (innerNode s.internalRead.nextHandle h) s.nextHandle.isLt)
          (.node l r)) := by
  have nalloc : (s.leftRead arena l).nalloc.toNat + r.size = s.nalloc.toNat + (CodeTree.node l r).size := by
    rw [State.leftRead_nalloc fits, CodeTree.size]
    omega
  have cursor : (s.leftRead arena l).inPos + r.records.length = s.inPos + (CodeTree.node l r).records.length := by
    show s.inPos + 1 + l.records.length + r.records.length = _
    rw [CodeTree.records, List.length_cons, List.length_append]
    omega
  rw [State.treeRead, nalloc, cursor]
  refine (returnNode_right ..).trans ((returnNode_withWalkStack _ s.walkStack _ _).symm.trans ?_)
  dsimp only [State.setNode, State.leftRead, State.treeRead, State.internalRead, State.openInternal, State.allocate]

end

/-- The records of a tree store it at the next handles and return its root (45_tree_deserializer.md R191). -/
theorem recordLoop_records {T : CodeTree} {s : State} {more : List Bool} (bits : s.rest = T.records ++ more)
    (fits : s.nalloc.toNat + T.size ≤ 1024) (bound : Nat) :
    ∃ arena, StoredAt arena T s.nalloc.toNat ∧ KeptOutside s.arena arena T s.nalloc.toNat ∧
      recordLoop (bound + T.size) s = afterNode bound (returnNode s.nextHandle s.walkStack (s.treeRead arena T)) := by
  induction T generalizing s more bound with
  | leaf v =>
    rw [CodeTree.size] at fits
    obtain ⟨stored, kept⟩ := StoredAt.set_leaf s.arena v (base := s.nalloc.toNat) (by omega)
    refine ⟨_, stored, kept, ?_⟩
    have length : (CodeTree.leaf v).records.length = 1 + Config.valueBits := by
      rw [CodeTree.records, List.length_cons, length_bitsN, Nat.add_comm]
    rw [State.treeRead, length, CodeTree.size, ← s.nalloc_succ, ← s.nextHandle_eq]
    exact recordLoop_leaf bits (by omega) bound
  | node l r ihl ihr =>
    rw [CodeTree.size] at fits
    rw [CodeTree.records, List.cons_append, List.append_assoc] at bits
    have left : s.internalRead.rest = l.records ++ (r.records ++ more) := (State.readBit_cons bits).2
    have nalloc := State.internalRead_nalloc (s := s) (by omega)
    obtain ⟨b, storedl, keptl, runl⟩ := ihl left (by omega) (bound + r.size)
    have nalloc' := State.leftRead_nalloc (s := s) (l := l) (arena := b) (by omega)
    obtain ⟨c, storedr, keptr, runr⟩ :=
      ihr (s := s.leftRead b l) (State.rest_treeRead (arena := b) left) (by omega) bound
    rw [nalloc] at storedl keptl
    rw [nalloc'] at storedr keptr
    obtain ⟨stored, kept⟩ := StoredAt.set_node fits storedl keptl storedr keptr
    refine ⟨_, stored, kept, ?_⟩
    rw [CodeTree.size, show bound + (1 + l.size + r.size) = bound + r.size + l.size + 1 by omega,
      recordLoop_internal bits (by omega)]
    refine runl.trans (runr.trans ?_)
    rw [returnNode_leftRead (by omega), ← nalloc', ← nalloc, State.nextHandle_eq, State.nextHandle_eq,
      State.nextHandle_eq]

/-- DESERIALIZE on the records of a tree that the arena has room for (45_tree_deserializer.md R191, R194, R198). -/
theorem execDeserialize_records {T : CodeTree} {s : State} {more : List Bool} (bits : s.rest = T.records ++ more)
    (fits : T.size ≤ 1024) :
    ∃ arena, StoredAt arena T 0 ∧ KeptOutside s.arena arena T 0 ∧
      exec .deserialize s = .next
        { s with
          arena := arena, nalloc := BitVec.ofNat 11 T.size, root := 0, walkStack := []
          inPos := s.inPos + T.records.length, phase := phaseDecode } := by
  have enough : T.size ≤ s.rest.length + 1 := by
    rw [bits, List.length_append, T.records_length]
    omega
  obtain ⟨bound, passes⟩ := Nat.exists_eq_add_of_le' enough
  obtain ⟨arena, stored, kept, run⟩ :=
    recordLoop_records (s := { s with nalloc := 0, walkStack := [] }) bits (by simpa using fits) bound
  refine ⟨arena, stored, kept, ?_⟩
  rw [exec, execDeserialize, passes]
  have size : BitVec.ofNat 11 (0 + T.size) = BitVec.ofNat 11 T.size := by rw [Nat.zero_add]
  rw [← size]
  exact run

end Machine

end Sys2Proof
end

section
/-! PROOFS. DECODE on a payload of codes: each path ends at its leaf, and the sentinel's ends the phase. -/

namespace Sys2Proof.Machine

/-- What DECODE's loop does once CUR has followed an edge: at a leaf it emits the symbol, or ends at the sentinel
(47_decoder.md R230, R233). -/
def afterEdge (bound : Nat) (s : State) : Host.Outcome State Fault Refusal :=
  if (s.node s.cur).leaf then
    if (s.node s.cur).value = sentinelValue then .next (s.setPhase phaseCloseD)
    else decodeLoop bound { s.writeBits Config.unitBits (s.node s.cur).value.toNat with cur := s.root }
  else decodeLoop bound s

section

variable {s : State} {bound : Nat} {more : List Bool}

/-- A pass of DECODE over one bit. -/
theorem decodeLoop_bit {b : Bool} (bits : s.rest = b :: more) :
    decodeLoop (bound + 1) s =
      afterEdge bound { s with inPos := s.inPos + 1, cur := childOf (s.node s.cur) b.toNat } := by
  rw [decodeLoop, (State.readBit_cons bits).1]
  rfl

theorem afterEdge_inner (inner : (s.node s.cur).leaf = false) : afterEdge bound s = decodeLoop bound s :=
  if_neg (by simp [inner])

theorem afterEdge_sentinel (leaf : (s.node s.cur).leaf = true) (value : (s.node s.cur).value = sentinelValue) :
    afterEdge bound s = .next (s.setPhase phaseCloseD) := by
  rw [afterEdge, if_pos leaf, if_pos value]

theorem afterEdge_symbol {v : LeafValue} (leaf : (s.node s.cur).leaf = true) (value : (s.node s.cur).value = v)
    (symbol : v ≠ sentinelValue) :
    afterEdge bound s = decodeLoop bound { s.writeBits Config.unitBits v.toNat with cur := s.root } := by
  rw [afterEdge, if_pos leaf, value, if_neg symbol]

/-- From s, DECODE follows a path's bits to a leaf of value v (47_decoder.md R232). -/
def LeadsTo (path : List Bool) (v : LeafValue) (bound : Nat) (s : State) : Prop :=
  ∃ h, (s.node h).leaf = true ∧ (s.node h).value = v ∧
    afterEdge (bound + path.length) s = afterEdge bound { s with inPos := s.inPos + path.length, cur := h }

theorem LeadsTo.cons {b : Bool} {path : List Bool} {v : LeafValue} (inner : (s.node s.cur).leaf = false)
    (bits : s.rest = b :: more)
    (later : LeadsTo path v bound { s with inPos := s.inPos + 1, cur := childOf (s.node s.cur) b.toNat }) :
    LeadsTo (b :: path) v bound s := by
  obtain ⟨h, leaf, value, run⟩ := later
  refine ⟨h, leaf, value, ?_⟩
  rw [afterEdge_inner inner, List.length_cons, ← Nat.add_assoc, decodeLoop_bit bits, run, Nat.add_assoc s.inPos,
    Nat.add_comm 1]

theorem leadsTo_of_mem_paths {T : CodeTree} {v : LeafValue} {path : List Bool} (held : HoldsTree s.arena T s.cur)
    (mem : (v, path) ∈ T.paths) (bits : s.rest = path ++ more) : LeadsTo path v bound s := by
  induction T generalizing s path with
  | leaf w =>
    obtain ⟨rfl, rfl⟩ := Prod.mk.inj (List.mem_singleton.mp mem)
    exact ⟨s.cur, held.1, held.2, rfl⟩
  | node l r ihl ihr =>
    obtain ⟨inner, hl, hr⟩ := held
    obtain mem | mem := List.mem_append.mp mem
    · obtain ⟨⟨_, path⟩, inl, same⟩ := List.mem_map.mp mem
      cases same
      exact .cons inner bits (ihl hl inl (State.readBit_cons bits).2)
    · obtain ⟨⟨_, path⟩, inr, same⟩ := List.mem_map.mp mem
      cases same
      exact .cons inner bits (ihr hr inr (State.readBit_cons bits).2)

/-- A payload of symbols' codes, ended by the sentinel's, is decoded symbol by symbol (47_decoder.md R230, R235). -/
theorem afterEdge_payload {l r : CodeTree} {symbols : List (LeafValue × List Bool)} {last : List Bool}
    (held : HoldsTree s.arena (.node l r) s.root) (atRoot : s.cur = s.root)
    (codes : ∀ e ∈ symbols, e ∈ (CodeTree.node l r).paths ∧ e.1 ≠ sentinelValue)
    (sentinel : (sentinelValue, last) ∈ (CodeTree.node l r).paths)
    (bits : s.rest = symbols.flatMap Prod.snd ++ last ++ more) :
    ∃ h, (s.node h).leaf = true ∧ (s.node h).value = sentinelValue ∧
      afterEdge (bound + (symbols.flatMap Prod.snd ++ last).length) s = .next
        { s with
          inPos := s.inPos + (symbols.flatMap Prod.snd ++ last).length, cur := h
          output := s.output ++ symbols.flatMap (fun e => bitsN Config.unitBits e.1.toNat), phase := phaseCloseD } := by
  induction symbols generalizing s with
  | nil =>
    obtain ⟨h, leaf, value, run⟩ := leadsTo_of_mem_paths (bound := bound) (atRoot ▸ held) sentinel bits
    refine ⟨h, leaf, value, run.trans ?_⟩
    rw [List.flatMap_nil, List.flatMap_nil, List.append_nil]
    exact afterEdge_sentinel leaf value
  | cons e symbols ih =>
    obtain ⟨⟨code, symbol⟩, codes⟩ := List.forall_mem_cons.mp codes
    rw [List.flatMap_cons, List.append_assoc, List.append_assoc] at bits
    rw [List.flatMap_cons, List.append_assoc, List.length_append, Nat.add_comm e.2.length, ← Nat.add_assoc]
    obtain ⟨g, leaf, value, run⟩ := leadsTo_of_mem_paths
      (bound := bound + (symbols.flatMap Prod.snd ++ last).length) (atRoot ▸ held) code bits
    let u : State :=
      { s with
        inPos := s.inPos + e.2.length, cur := s.root, output := s.output ++ bitsN Config.unitBits e.1.toNat }
    have left : u.rest = symbols.flatMap Prod.snd ++ last ++ more := by
      refine (s.rest_withInPos e.2.length).trans ?_
      rw [bits, List.drop_left, List.append_assoc]
    obtain ⟨h, leaf', value', run'⟩ := ih (s := u) held rfl codes left
    refine ⟨h, leaf', value', ?_⟩
    rw [run, afterEdge_symbol leaf value symbol]
    refine (afterEdge_inner (s := u) held.1).symm.trans (run'.trans ?_)
    simp only [u, List.flatMap_cons, List.append_assoc, Nat.add_assoc, Nat.add_comm e.2.length]

/-- DECODE on a payload, from the root of the tree (47_decoder.md R230). -/
theorem execDecode_payload {l r : CodeTree} {symbols : List (LeafValue × List Bool)} {last : List Bool}
    (held : HoldsTree s.arena (.node l r) s.root)
    (codes : ∀ e ∈ symbols, e ∈ (CodeTree.node l r).paths ∧ e.1 ≠ sentinelValue)
    (sentinel : (sentinelValue, last) ∈ (CodeTree.node l r).paths)
    (bits : s.rest = symbols.flatMap Prod.snd ++ last ++ more) :
    ∃ h, (s.node h).leaf = true ∧ (s.node h).value = sentinelValue ∧
      exec .decode s = .next
        { s with
          inPos := s.inPos + (symbols.flatMap Prod.snd ++ last).length, cur := h
          output := s.output ++ symbols.flatMap (fun e => bitsN Config.unitBits e.1.toNat), phase := phaseCloseD } := by
  have enough : (symbols.flatMap Prod.snd ++ last).length ≤ s.rest.length + 1 := by
    rw [bits, List.length_append (bs := more)]
    omega
  obtain ⟨bound, passes⟩ := Nat.exists_eq_add_of_le' enough
  obtain ⟨h, leaf, value, run⟩ :=
    afterEdge_payload (s := { s with cur := s.root }) (bound := bound) held rfl codes sentinel bits
  refine ⟨h, leaf, value, ?_⟩
  have inner : (s.node s.root).leaf = false := held.1
  rw [exec, execDecode, if_neg (by simp [inner]), passes]
  exact (afterEdge_inner (s := { s with cur := s.root }) inner).symm.trans run

end

end Sys2Proof.Machine
end

section
/-! PROOFS. The round trip under every TIE_ORDER: the phases of COMPRESS write a tree's header and payload, and the
phases of DECOMPRESS read them back, whatever the tree. -/

namespace Sys2Proof

open Machine

theorem bitsOfBytes_eq_flatMap (bytes : List Byte) : bitsOfBytes bytes = bytes.flatMap fun b => bitsN 8 b.toNat := by
  induction bytes with
  | nil => rfl
  | cons b bytes ih => rw [bitsOfBytes, ih, List.flatMap_cons]

/-- The leaves whose codes the payload holds before the sentinel's. -/
def CodeTree.symbols (T : CodeTree) (bytes : List Byte) : List (LeafValue × List Bool) :=
  bytes.map fun b => (valueOfSymbol (symbolOfByte b), T.pathOf (valueOfSymbol (symbolOfByte b)))

theorem CodeTree.payload_eq (T : CodeTree) (bytes : List Byte) :
    T.payload bytes = (T.symbols bytes).flatMap Prod.snd ++ T.pathOf sentinelValue := by
  rw [payload, symbols, List.flatMap_map]

theorem CodeTree.IsFull.mem_symbols {T : CodeTree} (full : T.IsFull) {bytes : List Byte} :
    ∀ e ∈ T.symbols bytes, e ∈ T.paths ∧ e.1 ≠ sentinelValue := by
  intro e he
  obtain ⟨b, -, rfl⟩ := List.mem_map.mp he
  exact ⟨(full.pathOf_mem _).1, fun same => symbolOfByte_ne_sentinel b (valueOfSymbol_injective same)⟩

/-- Decoding the leaves of the bytes gives back their bits (30_encoding.md R112). -/
theorem CodeTree.symbols_bits (T : CodeTree) (bytes : List Byte) :
    ((T.symbols bytes).flatMap fun e => bitsN Config.unitBits e.1.toNat) = bitsOfBytes bytes := by
  rw [symbols, List.flatMap_map, bitsOfBytes_eq_flatMap]
  simp only [valueOfSymbol_toNat, symbolOfByte_val]

namespace Machine

/-- A phase that leaves BUSY set hands over to the next. -/
theorem runPhases_cons {phase : State → Host.Outcome State Fault Refusal}
    {later : List (State → Host.Outcome State Fault Refusal)} {s t : State} (h : phase s = .next t)
    (busy : t.busy = true) : runPhases (phase :: later) s = runPhases later t := by
  simp only [runPhases, h, busy, if_true]

/-- A phase that clears BUSY ends the command. -/
theorem runPhases_ended {phase : State → Host.Outcome State Fault Refusal}
    {later : List (State → Host.Outcome State Fault Refusal)} {s t : State} (h : phase s = .next t)
    (idle : t.busy = false) : runPhases (phase :: later) s = .next t := by
  simp [runPhases, h, idle]

/-- READ_MAGIC on the magic number (45_tree_deserializer.md R190). -/
theorem execReadMagic_magic {s : State} {more : List Bool}
    (bits : s.rest = bitsN Config.magicBits Config.magic ++ more) :
    exec .readMagic s = .next { s with inPos := s.inPos + Config.magicBits, phase := phaseDeserialize } := by
  have read := State.readBits_field bits (List.ne_nil_of_length_eq_add_one (length_bitsN ..))
  rw [length_bitsN, num_bitsN_of_lt (by decide)] at read
  rw [exec, execReadMagic, read]
  exact if_pos rfl

variable {s : State} {T : CodeTree} {bytes : List Byte}

/-- Closing an output of whole bytes adds nothing (20_memory.md R77). -/
theorem State.close_output_of_bytes (whole : s.output = bitsOfBytes bytes) : s.close.output = bitsOfBytes bytes := by
  have none : padding s.output.length = 0 := padding_eq_zero (by rw [whole, length_bitsOfBytes, Nat.mul_mod_right])
  rw [State.close_output, none, List.replicate_zero, List.append_nil, whole]

/-- The phases from GENCODES to CLOSE_C write the file of the tree at ROOT. -/
theorem runPhases_writeFile (held : HoldsTree s.arena T s.root) (full : T.IsFull) (busy : s.busy = true)
    (rewindable : s.rewindable = true) (input : s.input = bitsOfBytes bytes) :
    ∃ t pad, runPhases [exec .gencodes, exec .writeHeader, exec .rewind, exec .encode, exec .closeC] s = .next t ∧
      t.done = true ∧ t.output = s.output ++ T.header ++ T.payload bytes ++ pad := by
  obtain ⟨code, gencodes, recorded⟩ := execGencodes_recorded held full
  let coded : State := { s with code := code, phase := phaseWriteHeader }
  let headed : State := { coded with output := s.output ++ T.header, phase := phaseRewind }
  have header : exec .writeHeader coded = .next headed := execWriteHeader_holdsTree (s := coded) held
  let rewound : State := headed.rewindInput.setPhase phaseEncode
  have rewind : exec .rewind headed = .next rewound := if_pos rewindable
  have left : bytesOf rewound.rest = bytes := by
    show bytesOf s.input = bytes
    rw [input, bytesOf_bitsOfBytes]
  have codes : rewound.codeBits = fun x => T.pathOf (valueOfSymbol x) := funext recorded
  have encode := execEncode_bytes rewound
  rw [left, codes] at encode
  have run := (runPhases_cons gencodes busy).trans <| (runPhases_cons header busy).trans <|
    (runPhases_cons rewind busy).trans <| (runPhases_cons encode busy).trans <|
    runPhases_ended (phase := exec .closeC) (later := []) rfl rfl
  exact ⟨_, _, run, rfl, rfl⟩

/-- COMPRESS under any order of extraction writes the file of a full tree. -/
theorem compressUnder_file (before firstLeft : Key → Key → Bool) (short : bytes.length ≤ 2 ^ 32 - 2)
    (busy : s.busy = true) (input : s.input = bitsOfBytes bytes) (start : s.inPos = 0)
    (rewindable : s.rewindable = true) :
    ∃ T : CodeTree, T.IsFull ∧ ∃ t pad, compressUnder before firstLeft s = .next t ∧ t.done = true ∧
      t.output = s.output ++ T.header ++ T.payload bytes ++ pad := by
  have left : bytesOf s.rest = bytes := by rw [State.rest, start, List.drop_zero, input, bytesOf_bitsOfBytes]
  have count := execCount_bytes (s := s) (by rw [left]; exact short)
  let counted : State :=
    { s with
      counts := frequencies (bytesOf s.rest), total := 1 + BitVec.ofNat 32 (bytesOf s.rest).length
      inPos := s.input.length, phase := phaseBuild }
  obtain ⟨arena, nalloc, root, build⟩ := buildWith_shape before firstLeft counted
  have built := buildWith_built (before := before) (firstLeft := firstLeft) counted
  rw [build] at built
  obtain ⟨T, held, full⟩ := built.tree
  obtain ⟨t, pad, run, file⟩ := runPhases_writeFile held full busy rewindable input
  refine ⟨T, full, t, pad, (runPhases_cons count busy).trans ?_, file⟩
  have next := congrArg (Host.Outcome.next (φ := Fault) (ρ := Refusal)) build
  exact (runPhases_cons (phase := fun t => .next (buildWith before firstLeft t)) (s := counted) next busy).trans run

/-- DECOMPRESS of a full tree's file writes the bytes of its payload (48_commands.md R261). -/
theorem decompressPhases_file {more : List Bool} (full : T.IsFull) (busy : s.busy = true)
    (bits : s.rest = T.header ++ T.payload bytes ++ more) (empty : s.output = []) :
    ∃ t, decompressPhases s = .next t ∧ t.done = true ∧ t.output = bitsOfBytes bytes := by
  rw [CodeTree.header, List.append_assoc, List.append_assoc] at bits
  have magic := execReadMagic_magic bits
  let opened : State := { s with inPos := s.inPos + Config.magicBits, phase := phaseDeserialize }
  have records : opened.rest = T.records ++ (T.payload bytes ++ more) := by
    refine (s.rest_withInPos Config.magicBits).trans ?_
    rw [bits, List.drop_left' (length_bitsN ..)]
  obtain ⟨arena, stored, -, deserialize⟩ := execDeserialize_records records (by rw [full.size_eq]; decide)
  let read : State :=
    { opened with
      arena := arena, nalloc := BitVec.ofNat 11 T.size, root := 0, walkStack := []
      inPos := opened.inPos + T.records.length, phase := phaseDecode }
  have payload : read.rest = (T.symbols bytes).flatMap Prod.snd ++ T.pathOf sentinelValue ++ more := by
    refine (opened.rest_withInPos T.records.length).trans ?_
    rw [records, List.drop_left, T.payload_eq]
  have held : HoldsTree read.arena T read.root := stored.holdsTree
  have codes := full.mem_symbols (bytes := bytes)
  have sentinel := (full.pathOf_mem sentinel).1
  obtain ⟨l, r, rfl⟩ := full.exists_node
  obtain ⟨leaf, -, -, decode⟩ := execDecode_payload held codes sentinel payload
  have run := (runPhases_cons magic busy).trans <| (runPhases_cons deserialize busy).trans <|
    (runPhases_cons decode busy).trans <| runPhases_ended (phase := exec .closeD) (later := []) rfl rfl
  refine ⟨_, run, rfl, State.close_output_of_bytes ?_⟩
  show s.output ++ _ = _
  rw [empty, List.nil_append, CodeTree.symbols_bits]

end Machine

/-- Settles O58: whatever the order and the left child, BUILD leaves a full tree, and the file says which. -/
theorem roundTripUnderEveryTieOrder : Obligations.RoundTripUnderEveryTieOrder := by
  intro before firstLeft _ bytes short s busy input start rewindable empty
  obtain ⟨T, full, t, pad, run, done, file⟩ :=
    compressUnder_file before firstLeft short busy input start rewindable
  refine ⟨t, run, done, fun u busy input start empty' => decompressPhases_file (more := pad) full busy ?_ empty'⟩
  rw [State.rest, start, List.drop_zero, input, file, empty, List.nil_append]

end Sys2Proof
end

section
/-! PROOFS. The code table after GENCODES: an entry for every leaf of the tree at ROOT, and the prefix property of the
tree's paths. -/

namespace Sys2Proof

open Machine

/-- No leaf of a tree lies on the path to another (43_code_table.md R172). -/
theorem CodeTree.eq_of_path_prefix {T : CodeTree} {v w : LeafValue} {p q : List Bool} (hv : (v, p) ∈ T.paths)
    (hw : (w, q) ∈ T.paths) (cut : p <+: q) : v = w := by
  induction T generalizing p q with
  | leaf u =>
    obtain ⟨rfl, -⟩ := Prod.mk.inj (List.mem_singleton.mp hv)
    obtain ⟨rfl, -⟩ := Prod.mk.inj (List.mem_singleton.mp hw)
    rfl
  | node l r ihl ihr =>
    simp only [paths, List.mem_append, List.mem_map, Prod.mk.injEq, Prod.exists] at hv hw
    obtain ⟨_, p, hv, rfl, rfl⟩ | ⟨_, p, hv, rfl, rfl⟩ := hv <;>
      obtain ⟨_, q, hw, rfl, rfl⟩ | ⟨_, q, hw, rfl, rfl⟩ := hw <;>
      obtain ⟨edge, cut⟩ := List.cons_prefix_cons.mp cut
    · exact ihl hv hw cut
    · exact absurd edge Bool.false_ne_true
    · exact absurd edge.symm Bool.false_ne_true
    · exact ihr hv hw cut

namespace Machine

/-- A code has as many bits as its length field says (10_state.md R45). -/
theorem State.codeBits_length (s : State) (x : Symbol) : (s.codeBits x).length = (s.codeOf x).len.toNat := length_bitsN ..

/-- Settles O27: `recordCodes_paths` from the root, at depth 0 with the empty path. -/
theorem gencodesRecordsEveryPath : Obligations.GencodesRecordsEveryPath := by
  intro s T held once legal
  have symbols : ∀ v ∈ T.values, v.toNat < 257 := by
    intro v hv
    obtain ⟨e, he, rfl⟩ := List.mem_map.mp hv
    exact (legal e he).1
  obtain ⟨code, ok, entries, kept⟩ := T.recordCodes_paths symbols once 0 0 s.code
  let t : State := { s with code := code, phase := phaseWriteHeader }
  refine ⟨t, (execGencodes_holdsTree held).trans (by rw [ok]; rfl), rfl, fun x => ⟨fun path mem => ?_, kept x⟩⟩
  have short : path.length ≤ 256 := (legal _ mem).2
  have entry : t.codeOf x = mkCode path.length (num path) := by
    have := entries x path mem
    rwa [Nat.zero_add, Nat.zero_mul, Nat.zero_add] at this
  exact ⟨entry.trans (mkCode_path short).1, State.codeBits_of_entry entry short⟩

/-- Settles O28: the codes are the paths of the full tree that BUILD leaves at ROOT. -/
theorem builtCodesAreAPrefixCode : Obligations.BuiltCodesAreAPrefixCode := by
  intro s t build
  obtain ⟨T, held, full⟩ := (execBuild_built build).tree
  obtain ⟨code, gencodes, recorded⟩ := execGencodes_recorded held full
  let u : State := { t with code := code, phase := phaseWriteHeader }
  have codes (x : Symbol) : u.codeBits x = T.pathOf (valueOfSymbol x) := recorded x
  refine ⟨u, gencodes, fun x => ?_, fun x y other cut => other (valueOfSymbol_injective ?_)⟩
  · rw [← u.codeBits_length, codes]
    exact full.path_length (full.pathOf_mem x).1
  · rw [codes, codes] at cut
    exact CodeTree.eq_of_path_prefix (full.pathOf_mem x).1 (full.pathOf_mem y).1 cut

end Machine

end Sys2Proof
end

section
/-! PROOFS. The header that WRITE_HEADER appends. -/

namespace Sys2Proof.Machine

/-- Settles O29: `execWriteHeader_holdsTree`, which rests on `ser` writing the records of the tree that ROOT holds; its
MAGIC and phase code are the statement's numerals by definition (00_scope.md R11, 30_encoding.md R104). -/
theorem writeHeaderAppendsMagicAndTree : Obligations.WriteHeaderAppendsMagicAndTree :=
  fun _ _ held => execWriteHeader_holdsTree held

end Sys2Proof.Machine
end

section
/-! PROOFS. READ_MAGIC: the magic number passes, and nothing else does. -/

namespace Sys2Proof.Machine

/-- READ_MAGIC on an input that does not go on with the magic number (45_tree_deserializer.md R190, R199). -/
theorem execReadMagic_other {s : State} (other : ¬ ∃ more, s.rest = bitsN Config.magicBits Config.magic ++ more) :
    exec .readMagic s = .next ((s.readBits Config.magicBits).2.raise .invalidMagicNumber) := by
  rw [exec, execReadMagic]
  by_cases enough : s.inPos + Config.magicBits ≤ s.input.length
  · rw [State.readBits_of_le enough]
    refine if_neg fun same => other ⟨s.rest.drop Config.magicBits, ?_⟩
    have length : (s.rest.take Config.magicBits).length = Config.magicBits :=
      List.length_take_of_le (by rw [s.rest_length]; omega)
    have field := bitsN_num (s.rest.take Config.magicBits)
    rw [length, same] at field
    rw [field, List.take_append_drop]
  · rw [State.readBits_of_gt (Nat.not_le.mp enough)]

/-- Settles O34, by `execReadMagic_magic` and `execReadMagic_other`. -/
theorem readMagicChecksTheConstant : Obligations.ReadMagicChecksTheConstant := by
  refine fun s => ⟨fun more bits => execReadMagic_magic bits, fun other => ?_⟩
  rw [execReadMagic_other other]
  by_cases enough : s.inPos + 32 ≤ s.input.length
  · rw [State.readBits_of_le (n := Config.magicBits) enough, if_pos enough]
    rfl
  · rw [State.readBits_of_gt (n := Config.magicBits) (Nat.not_le.mp enough), if_neg enough]
    rfl

end Sys2Proof.Machine
end

section
/-! PROOFS. DESERIALIZE on one tree: the stored nodes are the records' entries. -/

namespace Sys2Proof

open Machine

/-- The entries of a stored tree are those of the handles from `base` on (45_tree_deserializer.md R194). -/
theorem StoredAt.entries_eq {arena : Arena} {T : CodeTree} {base : Nat} (stored : StoredAt arena T base) :
    T.entries base = (List.range' base T.size).map fun i => nodeAt arena (BitVec.ofNat 10 i) := by
  induction T generalizing base with
  | leaf v => exact congrArg (· :: []) (Eq.symm stored)
  | node l r ihl ihr =>
    obtain ⟨node, hl, hr⟩ := stored
    have size : (CodeTree.node l r).size = l.size + r.size + 1 := by
      rw [CodeTree.size]
      omega
    rw [CodeTree.entries, ihl hl, ihr hr, ← List.map_append, List.range'_append_1, size, List.range'_succ,
      List.map_cons, node]
    rfl

/-- Settles O35: `execDeserialize_records` stores the tree from handle 0 on. -/
theorem deserializeReadsOneTree : Obligations.DeserializeReadsOneTree := by
  intro s T more bits fits
  obtain ⟨arena, stored, kept, run⟩ := execDeserialize_records bits fits
  refine ⟨arena, run, stored.holdsTree, fun h lt => ?_, fun h above => kept h (.inr (by omega))⟩
  rw [stored.entries_eq, List.getElem?_map, List.getElem?_range' lt, Nat.zero_add, Nat.one_mul]
  exact congrArg (fun g => some (nodeAt arena g)) (BitVec.ofNat_toNat 10 h)

end Sys2Proof
end

section
/-! PROOFS. DESERIALIZE on records that end in an error: the input ends inside the tree, or the tree is larger than the
arena. -/

namespace Sys2Proof

open Machine

theorem CodeTree.size_le_records_length (T : CodeTree) : T.size ≤ T.records.length := by
  rw [T.records_length]
  exact Nat.le_add_right ..

/-- An input that ends inside the records of a node's subtrees ends in the left one, or in the right one after the whole
left one. -/
theorem CodeTree.cut_records {l r : CodeTree} {bits missing : List Bool}
    (cut : l.records ++ r.records = bits ++ missing) :
    (∃ missing', l.records = bits ++ missing' ∧ missing' ≠ []) ∨
      ∃ bits', bits = l.records ++ bits' ∧ r.records = bits' ++ missing := by
  obtain ⟨bits', left, right⟩ | ⟨missing', left, right⟩ := List.append_eq_append_iff.mp cut
  · exact .inr ⟨bits', left, right⟩
  · by_cases whole : missing' = []
    · subst whole
      exact .inr ⟨[], by simpa using left.symm, by simpa using right.symm⟩
    · exact .inl ⟨missing', left, whole⟩

namespace Machine

/-- From s, DESERIALIZE's loop answers that error, with this NALLOC and this cursor. -/
def Raises (e : Error) (nalloc : BitVec 11) (cursor : Nat) (s : State) (answer : Host.Outcome State Fault Refusal) :
    Prop :=
  ∃ arena frames, answer =
    .next (({ s with arena := arena, nalloc := nalloc, walkStack := frames, inPos := cursor } : State).raise e)

variable {s : State} {T l r : CodeTree} {bound cursor : Nat} {missing more : List Bool} {e : Error}
  {nalloc : BitVec 11} {answer : Host.Outcome State Fault Refusal}

/-- A pass that finds no bit (45_tree_deserializer.md R192). -/
theorem recordLoop_nil (atEnd : s.rest = []) :
    Raises .malformedHeader s.nalloc s.input.length s (recordLoop (bound + 1) s) := by
  refine ⟨s.arena, s.walkStack, ?_⟩
  rw [recordLoop, State.readBit_nil atEnd]

/-- A pass that finds a flag when every handle is taken (45_tree_deserializer.md R193). -/
theorem recordLoop_full {b : Bool} (bits : s.rest = b :: more) (full : 1024 ≤ s.nalloc.toNat) :
    Raises .nodeCapacity s.nalloc (s.inPos + 1) s (recordLoop (bound + 1) s) := by
  refine ⟨s.arena, s.walkStack, ?_⟩
  rw [recordLoop_flag (State.readBit_cons bits).1]
  exact if_pos (State.arenaFull_iff.mpr full)

/-- A pass over a LEAF record whose value is cut short (45_tree_deserializer.md R192). -/
theorem recordLoop_leaf_short (bits : s.rest = true :: more) (short : more.length < Config.valueBits)
    (free : s.nalloc.toNat < 1024) :
    Raises .malformedHeader (s.nalloc + 1) s.input.length s (recordLoop (bound + 1) s) := by
  obtain ⟨flag, rest⟩ := State.readBit_cons bits
  have room : ¬ ({ s with inPos := s.inPos + 1 } : State).arenaFull = true :=
    mt State.arenaFull_iff.mp (Nat.not_le.mpr free)
  refine ⟨s.arena, s.walkStack, ?_⟩
  rw [recordLoop_flag flag, if_neg room, if_neg (by decide), leafPass, State.readBits_short (by rw [rest]; exact short)]
  rfl

/-- The passes over an INTERNAL record and its whole left subtree. -/
theorem recordLoop_left (bits : s.rest = false :: (l.records ++ more)) (fits : s.nalloc.toNat + 1 + l.size ≤ 1024)
    (bound : Nat) :
    ∃ arena, (s.leftRead arena l).rest = more ∧
      recordLoop (bound + l.size + 1) s = recordLoop bound (s.leftRead arena l) := by
  have left : s.internalRead.rest = l.records ++ more := (State.readBit_cons bits).2
  have nalloc := State.internalRead_nalloc (s := s) (by omega)
  obtain ⟨arena, -, -, run⟩ := recordLoop_records left (by omega) bound
  exact ⟨arena, State.rest_treeRead (arena := arena) left, (recordLoop_internal bits (by omega) _).trans run⟩

/-- An error after an INTERNAL record is one from before it. -/
theorem Raises.of_internalRead (h : Raises e nalloc cursor s.internalRead answer) :
    Raises e nalloc cursor s answer := by
  obtain ⟨arena, frames, rfl⟩ := h
  exact ⟨arena, frames, rfl⟩

/-- An error after a node's left subtree is one from before the node. -/
theorem Raises.of_leftRead {arena : Arena} (h : Raises e nalloc cursor (s.leftRead arena l) answer) :
    Raises e nalloc cursor s answer := by
  obtain ⟨arena, frames, rfl⟩ := h
  refine ⟨arena, frames, ?_⟩
  dsimp only [State.leftRead, State.treeRead, State.internalRead, State.openInternal, State.allocate]

/-- The records of a tree cut short are MalformedHeader, with the input used up (45_tree_deserializer.md R192). -/
theorem recordLoop_cut (cut : T.records = s.rest ++ missing) (proper : missing ≠ [])
    (fits : s.nalloc.toNat + T.size ≤ 1024) (enough : s.rest.length < bound) :
    ∃ nalloc, Raises .malformedHeader nalloc s.input.length s (recordLoop bound s) := by
  induction T generalizing s missing bound with
  | leaf v =>
    obtain ⟨bound, rfl⟩ := Nat.exists_eq_add_one_of_ne_zero (Nat.ne_zero_of_lt enough)
    cases bits : s.rest with
    | nil => exact ⟨_, recordLoop_nil bits⟩
    | cons b more =>
      rw [bits, CodeTree.records, List.cons_append] at cut
      obtain ⟨rfl, value⟩ := List.cons.inj cut
      have length := congrArg List.length value
      rw [length_bitsN, List.length_append] at length
      have := List.length_pos_iff.mpr proper
      rw [CodeTree.size] at fits
      exact ⟨_, recordLoop_leaf_short bits (by omega) (by omega)⟩
  | node l r ihl ihr =>
    obtain ⟨bound, rfl⟩ := Nat.exists_eq_add_one_of_ne_zero (Nat.ne_zero_of_lt enough)
    cases bits : s.rest with
    | nil => exact ⟨_, recordLoop_nil bits⟩
    | cons b more =>
      rw [bits, CodeTree.records, List.cons_append] at cut
      obtain ⟨rfl, subtrees⟩ := List.cons.inj cut
      rw [bits, List.length_cons] at enough
      rw [CodeTree.size] at fits
      have nalloc := State.internalRead_nalloc (s := s) (by omega)
      obtain ⟨missing', left, proper'⟩ | ⟨more, rfl, right⟩ := CodeTree.cut_records subtrees
      · have rest : s.internalRead.rest = more := (State.readBit_cons bits).2
        rw [recordLoop_internal bits (by omega)]
        obtain ⟨n, h⟩ :=
          ihl (s := s.internalRead) (bound := bound) (rest ▸ left) proper' (by omega) (by rw [rest]; omega)
        exact ⟨n, h.of_internalRead⟩
      · have := CodeTree.size_le_records_length l
        rw [List.length_append] at enough
        obtain ⟨bound, rfl⟩ := Nat.exists_eq_add_of_le' (m := l.size) (n := bound) (by omega)
        obtain ⟨arena, rest, run⟩ := recordLoop_left bits (by omega) bound
        have nalloc := State.leftRead_nalloc (s := s) (l := l) (arena := arena) (by omega)
        rw [run]
        obtain ⟨n, h⟩ :=
          ihr (s := s.leftRead arena l) (bound := bound) (rest ▸ right) proper (by omega) (by rw [rest]; omega)
        exact ⟨n, h.of_leftRead⟩

/-- The records of a tree that the arena has no room for are NodeCapacity, with every handle taken
(45_tree_deserializer.md R193). -/
theorem recordLoop_large (bits : s.rest = T.records ++ more) (cap : s.nalloc.toNat ≤ 1024)
    (large : 1024 < s.nalloc.toNat + T.size) (enough : 1024 < s.nalloc.toNat + bound) :
    ∃ cursor, Raises .nodeCapacity 1024 cursor s (recordLoop bound s) := by
  induction T generalizing s more bound with
  | leaf v =>
    obtain ⟨bound, rfl⟩ := Nat.exists_eq_add_one_of_ne_zero (n := bound) (by omega)
    rw [CodeTree.size] at large
    have full : s.nalloc = 1024 := BitVec.eq_of_toNat_eq (show _ = 1024 by omega)
    exact ⟨_, full ▸ recordLoop_full bits (by omega)⟩
  | node l r ihl ihr =>
    obtain ⟨bound, rfl⟩ := Nat.exists_eq_add_one_of_ne_zero (n := bound) (by omega)
    rw [CodeTree.records, List.cons_append, List.append_assoc] at bits
    rw [CodeTree.size] at large
    by_cases full : s.nalloc = 1024
    · exact ⟨_, full ▸ recordLoop_full bits (by rw [full]; decide)⟩
    · have free : s.nalloc.toNat < 1024 := lt_of_le_of_ne cap fun h => full (BitVec.eq_of_toNat_eq h)
      have nalloc := State.internalRead_nalloc free
      by_cases fits : s.nalloc.toNat + 1 + l.size ≤ 1024
      · obtain ⟨bound, rfl⟩ := Nat.exists_eq_add_of_le' (m := l.size) (n := bound) (by omega)
        obtain ⟨arena, rest, run⟩ := recordLoop_left bits fits bound
        have nalloc := State.leftRead_nalloc (arena := arena) fits
        rw [run]
        obtain ⟨k, h⟩ := ihr (s := s.leftRead arena l) (bound := bound) rest (by omega) (by omega) (by omega)
        exact ⟨k, h.of_leftRead⟩
      · rw [recordLoop_internal bits free]
        have rest := (State.readBit_cons bits).2
        obtain ⟨k, h⟩ := ihl (s := s.internalRead) (bound := bound) rest (by omega) (by omega) (by omega)
        exact ⟨k, h.of_internalRead⟩

/-- Settles O36: `recordLoop_cut` from the root, with no handle taken. -/
theorem deserializeRefusesACutTree : Obligations.DeserializeRefusesACutTree := by
  intro s T missing cut proper fits
  obtain ⟨nalloc, arena, frames, run⟩ := recordLoop_cut (s := { s with nalloc := 0, walkStack := [] }) cut proper
    (by simpa using fits) (Nat.lt_succ_self s.rest.length)
  exact ⟨_, run, rfl, rfl, rfl, rfl, rfl, rfl, rfl, rfl⟩

/-- Settles O37: `recordLoop_large` from the root, with no handle taken. -/
theorem deserializeRefusesALargeTree : Obligations.DeserializeRefusesALargeTree := by
  intro s T more bits large
  have enough : T.size ≤ s.rest.length := by
    rw [bits, List.length_append]
    exact Nat.le_add_right_of_le (CodeTree.size_le_records_length T)
  obtain ⟨cursor, arena, frames, run⟩ := recordLoop_large (s := { s with nalloc := 0, walkStack := [] })
    (bound := s.rest.length + 1) bits (by simp) (by simpa using large) (by simp; omega)
  exact ⟨_, run, rfl, rfl, rfl, rfl, rfl, rfl, rfl, rfl⟩

end Machine

end Sys2Proof
end

section
/-! PROOFS. DESERIALIZE over the walk stack against `deser()` by recursion: the loop goes on where a call returns,
and raises where it raises. -/

namespace Sys2Proof

open Machine

/-- The part of `deser()` after an INTERNAL record's flag. -/
def deserNode (bound : Nat) (s : State) : Except State (Handle × State) :=
  match deser bound s.allocate with
  | .error t => .error t
  | .ok (l, t) =>
    match deser bound t with
    | .error u => .error u
    | .ok (r, u) => .ok (s.nextHandle, u.setNode s.nextHandle (innerNode l r))

/-- The part of `deser()` after a LEAF record's flag. -/
def deserLeaf (s : State) : Except State (Handle × State) :=
  match s.allocate.readBits Config.valueBits with
  | (none, t) => .error (t.raise .malformedHeader)
  | (some v, t) => .ok (s.nextHandle, t.setNode s.nextHandle (leafNode (BitVec.ofNat Config.valueBits v)))

/-- A call whose flag is read, as its branches. -/
theorem deser_flag {bound flag k : Nat} {s : State} (read : s.readBits 1 = (some flag, { s with inPos := k })) :
    deser (bound + 1) s =
      if ({ s with inPos := k } : State).arenaFull then .error (({ s with inPos := k } : State).raise .nodeCapacity)
      else if flag = 0 then deserNode bound { s with inPos := k }
      else deserLeaf { s with inPos := k } := by
  rw [deser, read]
  rfl

/-- The answer of the loop from s, with these open nodes, is what a result of `deser()` gives: its error, or to return
its node to them and go on. No call touches the walk stack, and what a call leaves of the input is within its bound. -/
def FollowsDeser (bound : Nat) (frames : List Frame) (s : State) (answer : Host.Outcome State Fault Refusal) :
    Except State (Handle × State) → Prop
  | .error t => t.walkStack = s.walkStack ∧ ∃ later, answer = .next { t with walkStack := later }
  | .ok (h, t) =>
    t.walkStack = s.walkStack ∧ t.rest.length < bound ∧
      ∃ passes, t.rest.length < passes ∧ answer = afterNode passes (returnNode h frames t)

variable {bound passes : Nat} {frames : List Frame} {s : State}

/-- The call's bound may grow. -/
theorem FollowsDeser.succ {answer : Host.Outcome State Fault Refusal} {result : Except State (Handle × State)}
    (follows : FollowsDeser bound frames s answer result) : FollowsDeser (bound + 1) frames s answer result := by
  cases result with
  | error t => exact follows
  | ok returned =>
    obtain ⟨stack, within, later⟩ := follows
    exact ⟨stack, Nat.lt_succ_of_lt within, later⟩

/-- A LEAF record is placed by the loop where `deser()` returns its node. -/
theorem leafPass_followsDeser (frames : List Frame) (within : s.rest.length < bound) (enough : s.rest.length < passes) :
    FollowsDeser bound frames s (leafPass passes { s with walkStack := frames }) (deserLeaf s) := by
  obtain ⟨answer, k, -, shorter, read⟩ := s.readBits_alike Config.valueBits
  rw [deserLeaf, read s.allocate ⟨rfl, rfl⟩]
  have read' := read { s with walkStack := frames } ⟨rfl, rfl⟩
  cases answer with
  | none =>
    refine ⟨rfl, frames, ?_⟩
    rw [leafPass, read']
    rfl
  | some v =>
    have shorter := shorter (by decide) (Option.some_ne_none v)
    refine ⟨rfl, shorter.trans within, passes, shorter.trans enough, ?_⟩
    rw [leafPass_value read' rfl, ← returnNode_withWalkStack frames frames]
    rfl

/-- An INTERNAL record is opened by the loop where `deser()` makes its two nested calls, if the loop follows those. -/
theorem openInternal_followsDeser (frames : List Frame)
    (nested : ∀ (t : State) (passes : Nat) (frames : List Frame), t.rest.length < bound → t.rest.length < passes →
      FollowsDeser bound frames t (recordLoop passes { t with walkStack := frames }) (deser bound t))
    (within : s.rest.length < bound) (enough : s.rest.length < passes) :
    FollowsDeser bound frames s (recordLoop passes ({ s with walkStack := frames } : State).openInternal)
      (deserNode bound s) := by
  have left := nested s.allocate passes ({ node := s.nextHandle, left := none } :: frames) within enough
  rw [deserNode]
  cases callL : deser bound s.allocate with
  | error t =>
    rw [callL] at left
    exact left
  | ok returned =>
    obtain ⟨l, t⟩ := returned
    rw [callL] at left
    obtain ⟨stack, within, passes, enough, run⟩ := left
    have right := nested t passes ({ node := s.nextHandle, left := some l } :: frames) within enough
    dsimp only
    cases callR : deser bound t with
    | error u =>
      rw [callR] at right
      obtain ⟨stack', later, run'⟩ := right
      exact ⟨stack'.trans stack, later, run.trans run'⟩
    | ok returned =>
      obtain ⟨r, u⟩ := returned
      rw [callR] at right
      obtain ⟨stack', within, passes, enough, run'⟩ := right
      exact ⟨stack'.trans stack, within, passes, enough, run.trans run'⟩

/-- The loop over the walk stack follows `deser()` (45_tree_deserializer.md R191, R196). -/
theorem recordLoop_followsDeser (within : s.rest.length < bound) (enough : s.rest.length < passes) :
    FollowsDeser bound frames s (recordLoop passes { s with walkStack := frames }) (deser bound s) := by
  induction bound generalizing s passes frames with
  | zero => exact absurd within (Nat.not_lt_zero _)
  | succ bound ih =>
    obtain ⟨passes, rfl⟩ := Nat.exists_eq_add_one_of_ne_zero (Nat.ne_zero_of_lt enough)
    obtain ⟨answer, k, -, shorter, read⟩ := s.readBits_alike 1
    have read' := read { s with walkStack := frames } ⟨rfl, rfl⟩
    cases answer with
    | none =>
      rw [deser, read s (.refl s), recordLoop, read']
      exact ⟨rfl, frames, rfl⟩
    | some flag =>
      have shorter := shorter Nat.one_pos (Option.some_ne_none flag)
      rw [deser_flag (read s (.refl s)), recordLoop_flag read']
      change FollowsDeser (bound + 1) frames s
        (if s.arenaFull = true then _ else if flag = 0 then _ else _)
        (if s.arenaFull = true then _ else if flag = 0 then _ else _)
      have within := Nat.lt_of_lt_of_le shorter (Nat.le_of_lt_succ within)
      have enough := Nat.lt_of_lt_of_le shorter (Nat.le_of_lt_succ enough)
      by_cases full : s.arenaFull = true
      · rw [if_pos full, if_pos full]
        exact ⟨rfl, frames, rfl⟩
      · rw [if_neg full, if_neg full]
        split
        · exact (openInternal_followsDeser (s := { s with inPos := k }) frames (fun _ _ _ => ih) within enough).succ
        · exact (leafPass_followsDeser (s := { s with inPos := k }) frames within enough).succ

/-- Settles O38: `recordLoop_followsDeser` from the root, with no open node. -/
theorem deserializeRefinesTheRecursion : Obligations.DeserializeRefinesTheRecursion := by
  intro s
  have follows := recordLoop_followsDeser (s := { s with nalloc := 0, walkStack := [] }) (frames := [])
    (Nat.lt_succ_self s.rest.length) (Nat.lt_succ_self s.rest.length)
  rw [deserializeByRecursion]
  cases call : deser (s.rest.length + 1) { s with nalloc := 0, walkStack := [] } with
  | error t =>
    rw [call] at follows
    obtain ⟨stack, later, run⟩ := follows
    exact ⟨_, run, congrArg (fun w => { t with walkStack := w }) stack.symm⟩
  | ok returned =>
    obtain ⟨h, t⟩ := returned
    rw [call] at follows
    obtain ⟨stack, -, passes, -, run⟩ := follows
    exact ⟨_, run, congrArg (fun w => { t with walkStack := w, root := h, phase := phaseDecode }) stack.symm⟩

end Sys2Proof
end

section
/-! PROOFS. DECODE on a tree without a sentinel leaf: it uses up the input. -/

namespace Sys2Proof

open Machine

/-- Of a node's two subtrees, the one that a bit's edge leads to (47_decoder.md R232). -/
def subtreeOf (l r : CodeTree) (b : Bool) : CodeTree := if b then r else l

theorem values_subtreeOf_subset (l r : CodeTree) (b : Bool) :
    (subtreeOf l r b).values ⊆ (CodeTree.node l r).values := by
  rw [CodeTree.values_node]
  cases b
  · exact List.subset_append_left ..
  · exact List.subset_append_right ..

namespace Machine

theorem holdsTree_subtreeOf {arena : Arena} {l r : CodeTree} {h : Handle} (held : HoldsTree arena (.node l r) h)
    (b : Bool) : HoldsTree arena (subtreeOf l r b) (childOf (nodeAt arena h) b.toNat) := by
  obtain ⟨-, left, right⟩ := held
  cases b
  · exact left
  · exact right

/-- From an internal node of a tree without a sentinel leaf, DECODE reads to the end of the input
(47_decoder.md R237). -/
theorem decodeLoop_no_sentinel {s : State} {l r l' r' : CodeTree} {bits : List Bool} {bound : Nat}
    (root : HoldsTree s.arena (.node l r) s.root) (rootValues : sentinelValue ∉ (CodeTree.node l r).values)
    (cur : HoldsTree s.arena (.node l' r') s.cur) (curValues : sentinelValue ∉ (CodeTree.node l' r').values)
    (left : s.rest = bits) (enough : bits.length < bound) :
    ∃ h output, decodeLoop bound s =
      .next (({ s with cur := h, output := output, inPos := s.input.length } : State).raise .badInput) := by
  obtain ⟨bound, rfl⟩ := Nat.exists_eq_add_one_of_ne_zero (Nat.ne_zero_of_lt enough)
  induction bits generalizing s l' r' bound with
  | nil =>
    refine ⟨s.cur, s.output, ?_⟩
    rw [decodeLoop, State.readBit_nil left]
  | cons b more ih =>
    have enough : more.length < bound := Nat.lt_of_succ_lt_succ enough
    obtain ⟨bound, rfl⟩ := Nat.exists_eq_add_one_of_ne_zero (Nat.ne_zero_of_lt enough)
    let t : State := { s with inPos := s.inPos + 1, cur := childOf (s.node s.cur) b.toNat }
    have rest : t.rest = more := (State.readBit_cons left).2
    have child : HoldsTree t.arena (subtreeOf l' r' b) t.cur := holdsTree_subtreeOf cur b
    have values := mt (@values_subtreeOf_subset l' r' b sentinelValue) curValues
    rw [decodeLoop_bit left]
    cases below : subtreeOf l' r' b with
    | leaf v =>
      rw [below] at child values
      obtain ⟨leaf, value⟩ := child
      rw [afterEdge_symbol (s := t) leaf value fun same => values (List.mem_singleton.mpr same.symm)]
      exact ih (s := { t.writeBits Config.unitBits v.toNat with cur := s.root }) root root rootValues rest bound enough
    | node _ _ =>
      rw [below] at child values
      rw [afterEdge_inner (s := t) child.1]
      exact ih (s := t) root child values rest bound enough

/-- Settles O44: `decodeLoop_no_sentinel` from the root. -/
theorem noSentinelEndsInBadInput : Obligations.NoSentinelEndsInBadInput := by
  intro s l r held values
  have inner : ¬ (s.node s.root).leaf = true := Bool.eq_false_iff.mp held.1
  obtain ⟨h, output, run⟩ := decodeLoop_no_sentinel (s := { s with cur := s.root }) held values held values rfl
    (Nat.lt_succ_self s.rest.length)
  exact ⟨_, (if_neg inner).trans run, rfl, rfl, rfl, rfl, rfl, rfl⟩

end Machine

end Sys2Proof
end

section
/-! PROOFS. The payload of ENCODE, and the two closing phases. -/

namespace Sys2Proof.Machine

/-- Settles O33, by `execEncode_bytes`, the induction on the bytes that are left; its sentinel and phase code are the
statement's numerals by definition (00_scope.md R8, 30_encoding.md R104). -/
theorem encodeWritesThePayload : Obligations.EncodeWritesThePayload :=
  fun s => execEncode_bytes s

/-- Settles O18: both phases close the output with `padding` many zeros (`padding_spec`) and complete the command. -/
theorem closingCompletesTheCommand : Obligations.ClosingCompletesTheCommand := by
  intro s
  obtain ⟨few, boundary⟩ := padding_spec s.output.length
  have closed : exec .closeC s = .next s.close.complete := rfl
  have alike : exec .closeD s = exec .closeC s := rfl
  exact ⟨padding s.output.length, few, boundary, closed, alike⟩

end Sys2Proof.Machine
end

section
/-! PROOFS. DECODE on a payload that ends in the sentinel's code, on one that is cut before it ends, and with a leaf at
ROOT. -/

namespace Sys2Proof

open Machine

/-- A path below an internal root is an edge and a path of the subtree that it leads to (30_encoding.md R119). -/
theorem CodeTree.exists_edge_of_mem_paths {l r : CodeTree} {v : LeafValue} {path : List Bool}
    (mem : (v, path) ∈ (CodeTree.node l r).paths) :
    ∃ b later, path = b :: later ∧ (v, later) ∈ (subtreeOf l r b).paths := by
  obtain mem | mem := List.mem_append.mp mem
  · obtain ⟨⟨_, later⟩, inl, same⟩ := List.mem_map.mp mem
    cases same
    exact ⟨false, later, rfl, inl⟩
  · obtain ⟨⟨_, later⟩, inr, same⟩ := List.mem_map.mp mem
    cases same
    exact ⟨true, later, rfl, inr⟩

namespace Machine

/-- DECODE writes the low bits of a leaf's value (47_decoder.md R233). -/
theorem flatMap_lowBits (symbols : List (LeafValue × List Bool)) :
    symbols.flatMap (fun e => bitsN 8 (e.1.toNat % 256)) = symbols.flatMap (fun e => bitsN Config.unitBits e.1.toNat) :=
  congrArg (symbols.flatMap ·) (funext fun e => bitsN_mod 8 e.1.toNat)

/-- Settles O42: `execDecode_payload`, with the low 8 bits of a value spelled as a remainder. -/
theorem decodeEmitsTheSymbols : Obligations.DecodeEmitsTheSymbols := by
  intro s l r symbols last more held codes sentinel bits
  rw [flatMap_lowBits]
  exact execDecode_payload held codes sentinel bits

/-- s after DECODE has read the codes of these symbols: CUR is at ROOT again (47_decoder.md R230). -/
def State.symbolsRead (symbols : List (LeafValue × List Bool)) (s : State) : State :=
  { s with
    inPos := s.inPos + (symbols.flatMap Prod.snd).length, cur := s.root
    output := s.output ++ symbols.flatMap (fun e => bitsN Config.unitBits e.1.toNat) }

section

variable {s : State} {bound : Nat} {more : List Bool} {symbols : List (LeafValue × List Bool)}

theorem State.rest_symbolsRead (bits : s.rest = symbols.flatMap Prod.snd ++ more) :
    (s.symbolsRead symbols).rest = more := by
  refine (s.rest_withInPos _).trans ?_
  rw [bits, List.drop_left]

theorem State.symbolsRead_cons (e : LeafValue × List Bool) :
    s.symbolsRead (e :: symbols) = (s.symbolsRead [e]).symbolsRead symbols := by
  simp [State.symbolsRead, Nat.add_assoc]

/-- The passes of DECODE over one symbol's code (47_decoder.md R233). -/
theorem decodeLoop_symbol {l r : CodeTree} {e : LeafValue × List Bool} (held : HoldsTree s.arena (.node l r) s.root)
    (code : e ∈ (CodeTree.node l r).paths) (symbol : e.1 ≠ sentinelValue) (bits : s.rest = e.2 ++ more) :
    decodeLoop (bound + e.2.length) { s with cur := s.root } = decodeLoop bound (s.symbolsRead [e]) := by
  let u : State := { s with cur := s.root }
  obtain ⟨h, leaf, value, run⟩ := leadsTo_of_mem_paths (s := u) (bound := bound) held code bits
  rw [← afterEdge_inner (s := u) held.1, run, afterEdge_symbol leaf value symbol]
  simp [u, State.symbolsRead, State.writeBits, State.append]

/-- The passes of DECODE over the codes of symbols, none the sentinel's (47_decoder.md R230). -/
theorem decodeLoop_symbols {l r : CodeTree} (held : HoldsTree s.arena (.node l r) s.root)
    (codes : ∀ e ∈ symbols, e ∈ (CodeTree.node l r).paths ∧ e.1 ≠ sentinelValue)
    (bits : s.rest = symbols.flatMap Prod.snd ++ more) :
    decodeLoop (bound + (symbols.flatMap Prod.snd).length) { s with cur := s.root } =
      decodeLoop bound (s.symbolsRead symbols) := by
  induction symbols generalizing s with
  | nil => simp [State.symbolsRead]
  | cons e symbols ih =>
    obtain ⟨⟨code, symbol⟩, codes⟩ := List.forall_mem_cons.mp codes
    rw [List.flatMap_cons, List.append_assoc] at bits
    have left : (s.symbolsRead [e]).rest = symbols.flatMap Prod.snd ++ more :=
      State.rest_symbolsRead (by simpa using bits)
    rw [List.flatMap_cons, List.length_append, Nat.add_comm e.2.length, ← Nat.add_assoc,
      decodeLoop_symbol held code symbol bits, State.symbolsRead_cons (symbols := symbols) e]
    exact ih (s := s.symbolsRead [e]) held codes left

/-- From a node of a tree, DECODE on a proper part of a path to a leaf ends at the end of the input
(47_decoder.md R238). -/
theorem afterEdge_cut {T : CodeTree} {v : LeafValue} {part path : List Bool} (held : HoldsTree s.arena T s.cur)
    (mem : (v, path) ∈ T.paths) (cut : part <+: path) (proper : part ≠ path) (bits : s.rest = part)
    (enough : part.length < bound) :
    ∃ h, afterEdge bound s = .next (({ s with cur := h, inPos := s.input.length } : State).raise .badInput) := by
  induction T generalizing s part path bound with
  | leaf w =>
    obtain ⟨-, rfl⟩ := Prod.mk.inj (List.mem_singleton.mp mem)
    exact absurd (List.prefix_nil.mp cut) proper
  | node l r ihl ihr =>
    obtain ⟨bound, rfl⟩ := Nat.exists_eq_add_one_of_ne_zero (Nat.ne_zero_of_lt enough)
    rw [afterEdge_inner held.1]
    cases part with
    | nil => exact ⟨s.cur, by rw [decodeLoop, State.readBit_nil bits]⟩
    | cons b part =>
      obtain ⟨edge, later, rfl, below⟩ := CodeTree.exists_edge_of_mem_paths mem
      obtain ⟨rfl, cut'⟩ := List.cons_prefix_cons.mp cut
      have proper' : part ≠ later := fun whole => proper (congrArg (b :: ·) whole)
      have child := holdsTree_subtreeOf held b
      rw [decodeLoop_bit bits]
      obtain ⟨-, rest⟩ := State.readBit_cons bits
      cases b with
      | false => exact ihl child below cut' proper' rest (Nat.lt_of_succ_lt_succ enough)
      | true => exact ihr child below cut' proper' rest (Nat.lt_of_succ_lt_succ enough)

end

/-- Settles O43: the symbols' codes are read whole (`decodeLoop_symbols`), and the input ends inside the next one
(`afterEdge_cut`). -/
theorem decodeRefusesACutPayload : Obligations.DecodeRefusesACutPayload := by
  intro s l r symbols part path v held codes mem cut proper bits
  let u : State := s.symbolsRead symbols
  obtain ⟨h, ended⟩ := afterEdge_cut (s := u) held mem cut proper (State.rest_symbolsRead bits)
    (Nat.lt_succ_self part.length)
  refine ⟨({ u with cur := h, inPos := u.input.length } : State).raise .badInput, ?_, ?_⟩
  · have inner : ¬ (s.node s.root).leaf = true := Bool.eq_false_iff.mp held.1
    have passes : s.rest.length + 1 = part.length + 1 + (symbols.flatMap Prod.snd).length := by
      rw [bits, List.length_append]
      omega
    rw [exec, execDecode, if_neg inner, passes, decodeLoop_symbols held codes bits]
    exact (afterEdge_inner (s := u) held.1).symm.trans ended
  · rw [flatMap_lowBits]
    rfl

/-- Settles O45: the test of ROOT comes before any read (47_decoder.md R231). -/
theorem leafRootIsDegenerate : Obligations.LeafRootIsDegenerate :=
  fun _ _ held => if_pos held.1

end Machine

end Sys2Proof
end

section
/-! PROOFS. Every phase ends: the loops before their bounds, the walks on the tree at ROOT. -/

namespace Sys2Proof.Machine

/-- An instruction other than the two walks and REWIND answers a next state from every state (48_commands.md R258). -/
theorem exec_answers {i : Instr} (other : i ∉ [Instr.gencodes, .writeHeader, .rewind]) (s : State) :
    ∃ t, exec i s = .next t := by
  cases i with
  | gencodes | writeHeader | rewind => exact absurd (by decide) other
  | idle | build | closeC | closeD => exact ⟨_, rfl⟩
  | compress | decompress =>
    by_cases busy : s.busy = true
    · exact ⟨_, if_pos busy⟩
    · exact ⟨_, if_neg busy⟩
  | internal | leaf v =>
    by_cases full : s.arenaFull = true
    · exact ⟨_, if_pos full⟩
    · exact ⟨_, if_neg full⟩
  | count =>
    obtain ⟨_, _, _, _, -, -, run⟩ := execCount_ends s
    exact ⟨_, run s (.refl s)⟩
  | encode =>
    obtain ⟨_, _, -, run⟩ := execEncode_ends s
    exact ⟨_, run s (.refl s) rfl⟩
  | readMagic =>
    obtain ⟨_, _, -, -, run⟩ := execReadMagic_ends s
    exact ⟨_, run s (.refl s)⟩
  | deserialize =>
    obtain ⟨_, _, _, -, -, ⟨_, run, -⟩ | ⟨_, _, run⟩⟩ := execDeserialize_ends s
    all_goals exact ⟨_, run s (.refl s)⟩
  | decode =>
    obtain run | ⟨_, _, _, _, -, -, run⟩ := execDecode_ends s
    · exact ⟨_, run s rfl (.refl ..)⟩
    · exact ⟨_, run s (.refl s) rfl (.refl ..)⟩

/-- GENCODES where ROOT holds a tree over the symbols. -/
theorem execGencodes_answers {s : State} {T : CodeTree} (held : HoldsTree s.arena T s.root)
    (symbols : ∀ v ∈ T.values, v.toNat < 257) : ∃ t, exec .gencodes s = .next t := by
  obtain ⟨code, -, recorded, -⟩ := CodeTree.recordCodes_alike symbols 0 0 s.code s.code
  rw [execGencodes_holdsTree held, recorded]
  exact ⟨_, rfl⟩

/-- Settles O46: what each instruction answers, whatever the state, and the two walks on the tree at ROOT. -/
theorem everyPhaseEnds : Obligations.EveryPhaseEnds := by
  intro s
  refine ⟨fun i listed => exec_answers ?_ s, fun v => exec_answers (by simp) s,
    fun rewindable => ⟨_, if_pos rewindable⟩, fun _ held => ⟨_, execWriteHeader_holdsTree held⟩,
    fun _ held symbols => execGencodes_answers held symbols⟩
  revert i
  decide

end Sys2Proof.Machine
end

section
/-! PROOFS. The sequencer: what one step runs, how a phase can end, and that a running command ends. -/

namespace Sys2Proof

open Machine

namespace Machine

variable {i : Instr} {p : PhaseCode} {w : Word} {s t : State}

/-- A running codec runs the phase that PHASE names. -/
theorem codecMove_busy (busy : s.busy = true) (named : decodePhase s.phase = .ok i) : codecMove s = exec i s := by
  rw [codecMove, if_pos busy, named]

/-- With no host move pending the codec moves. -/
theorem step_of_no_move (noMove : s.host = []) : step s = codecMove s := by
  rw [step, advance, noMove]

/-- A command word written to CMD runs its command. -/
theorem writeCommand_of_decode (decoded : decodeCommand w = .ok i) : writeCommand w s = exec i s := by
  rw [writeCommand, decoded]

/-- While BUSY a command is ignored (48_commands.md R257). -/
theorem exec_command_busy (command : i = .compress ∨ i = .decompress) (busy : s.busy = true) : exec i s = .next s := by
  obtain rfl | rfl := command <;> exact if_pos busy

/-- While BUSY a write of any word to CMD is ignored (48_commands.md R257). -/
theorem writeCommand_busy (w : Word) (busy : s.busy = true) : writeCommand w s = .next s := by
  cases decoded : decodeCommand w with
  | ok i => rw [writeCommand_of_decode decoded, exec_command_busy (decodeCommand_cases decoded) busy]
  | error r =>
    rw [writeCommand, decoded]
    exact if_pos busy

/-- Settles O11: BUSY decides whether a command is accepted or ignored. -/
theorem commandInstructions : Obligations.CommandInstructions := by
  intro s
  refine ⟨fun idle => ?_, fun busy => ⟨exec_command_busy (.inl rfl) busy, exec_command_busy (.inr rfl) busy⟩⟩
  have notBusy : ¬ s.busy = true := by simp [idle]
  exact ⟨if_neg notBusy, if_neg notBusy⟩

/-- Settles O12, by `writeCommand_busy`. -/
theorem busyCommandWritesAreIgnored : Obligations.BusyCommandWritesAreIgnored :=
  fun s later w busy => writeCommand_busy (s := { s with host := later }) w busy

/-- Settles O13: the codec's move while idle is the wait of IDLE. -/
theorem idleWaits : Obligations.IdleWaits :=
  fun _ => ⟨rfl, fun idle noMove => (step_of_no_move noMove).trans (if_neg (by simp [idle]))⟩

/-- Settles O14: each way in which the codec takes an instruction, and the phase codes that name none. -/
theorem stepRunsTheDecodedInstruction : Obligations.StepRunsTheDecodedInstruction := by
  intro s i later w
  refine ⟨fun busy named noMove => ?_, fun busy named => ?_, fun busy named => ?_, fun decoded => ?_,
    fun busy noMove reserved => ?_⟩
  · exact (step_of_no_move noMove).trans (codecMove_busy busy named)
  · exact codecMove_busy (s := { s with host := later }) busy named
  · exact step_wait_busy (s := { s with host := .wait :: later }) rfl busy named
  · exact writeCommand_of_decode (s := { s with host := later }) decoded
  · rw [step_of_no_move noMove, codecMove, if_pos busy]
    cases h : decodePhase s.phase with
    | ok j => exact absurd h (reserved j)
    | error r => rfl

/-- The three ways in which a phase with successor p ends: it hands over to p with the rest of STATUS kept, it completes
the command, its successor being IDLE, or it raises an error (48_commands.md R253, R254, 60_exceptions.md R285). -/
inductive PhaseEnd (p : PhaseCode) (s : State) : State → Prop where
  | handOver {u : State} (running : p ≠ phaseIdle) (same : SameStatus s u) : PhaseEnd p s (u.setPhase p)
  | complete {u : State} (last : p = phaseIdle) : PhaseEnd p s u.complete
  | raise {u : State} (e : Error) : PhaseEnd p s (u.raise e)

/-- Every phase of the sequencer's table ends in one of the three ways. -/
theorem exec_phaseEnd (follows : successor i = some p) (h : exec i s = .next t) : PhaseEnd p s t := by
  have shape := exec_shape h
  cases i with
  | compress | decompress | idle | internal | leaf v => cases follows
  | closeC | closeD =>
    cases follows
    obtain rfl := shape
    exact .complete rfl
  | build =>
    cases follows
    obtain ⟨a, n, r, rfl⟩ := shape
    exact .handOver (u := { s with arena := a, nalloc := n, root := r, pq := [] }) (by decide) rfl
  | gencodes =>
    cases follows
    obtain ⟨c, rfl⟩ := shape
    exact .handOver (u := { s with code := c }) (by decide) rfl
  | writeHeader =>
    cases follows
    obtain ⟨o, rfl⟩ := shape
    exact .handOver (u := { s with output := o }) (by decide) rfl
  | rewind =>
    cases follows
    obtain ⟨-, rfl⟩ := shape
    exact .handOver (u := { s with inPos := 0 }) (by decide) rfl
  | encode =>
    cases follows
    obtain ⟨o, k, rfl⟩ := shape
    exact .handOver (by decide) rfl
  | count =>
    cases follows
    obtain ⟨c, w, k, rfl | rfl⟩ := shape
    · exact .handOver (by decide) rfl
    · exact .raise _
  | readMagic =>
    cases follows
    obtain ⟨k, rfl | rfl⟩ := shape
    · exact .handOver (by decide) rfl
    · exact .raise _
  | deserialize =>
    cases follows
    obtain ⟨a, n, k, ⟨r, rfl⟩ | ⟨f, rfl | rfl⟩⟩ := shape
    · exact .handOver (by decide) rfl
    · exact .raise _
    · exact .raise _
  | decode =>
    cases follows
    obtain rfl | ⟨c, o, k, rfl | rfl⟩ := shape
    · exact .raise _
    · exact .handOver (by decide) rfl
    · exact .raise _

/-- Settles O16: of the three ways to end, the two without an error leave the successor in PHASE. -/
theorem phasesFollowTheTable : Obligations.PhasesFollowTheTable := by
  intro i p s t follows _ h noErr
  cases exec_phaseEnd follows h with
  | handOver => rfl
  | complete last => exact last.symm
  | raise e => exact absurd noErr nofun

end Machine

end Sys2Proof
end

section
/-! PROOFS. A running command ends: every phase of it that hands over is followed by the next, and the last one
completes it. -/

namespace Sys2Proof

open Machine

namespace Machine

variable {i : Instr} {p q : PhaseCode} {s t : State}

/-- The phases from p to the last one of its command (48_commands.md R251, R252). -/
def phasesLeft (p : PhaseCode) : Nat := if p.toNat ≤ 7 then 8 - p.toNat else 12 - p.toNat

/-- A phase has one phase more to come than its successor, when that is no IDLE. -/
theorem phasesLeft_successor (named : encode i = .phase q) (follows : successor i = some p) (running : p ≠ phaseIdle) :
    phasesLeft q = phasesLeft p + 1 := by
  cases i with
  | compress | decompress | idle | internal | leaf v => cases follows
  | closeC | closeD => cases follows; exact absurd rfl running
  | _ => cases named; cases follows; rfl

/-- Every phase code but IDLE's names a phase of the sequencer's table. -/
theorem exists_successor (named : encode i = .phase q) (running : q ≠ phaseIdle) : ∃ p, successor i = some p := by
  cases i with
  | compress | decompress | internal | leaf v => cases named
  | idle => cases named; exact absurd rfl running
  | _ => exact ⟨_, rfl⟩

/-- No instruction writes the host's pending moves, or whether the input can be rewound. -/
theorem exec_keeps_host (h : exec i s = .next t) : t.host = s.host ∧ t.rewindable = s.rewindable := by
  have frame := everyInstructionKeepsItsFrame i s t h
  have kept : (putBack i s t).host = t.host ∧ (putBack i s t).rewindable = t.rewindable := by cases i <;> exact ⟨rfl, rfl⟩
  rw [frame] at kept
  exact kept.imp Eq.symm Eq.symm

end Machine

/-- Under the invariant a running codec is in a phase of its command. -/
theorem Inv.running_phase {s : State} (inv : Inv s) (busy : s.busy = true) :
    1 ≤ phasesLeft s.phase ∧ phasesLeft s.phase ≤ 7 ∧
      ∃ i p, decodePhase s.phase = .ok i ∧ encode i = .phase s.phase ∧ successor i = some p := by
  obtain ⟨-, ⟨-, running, -⟩, -, -⟩ := inv
  have inCommand := running busy
  obtain ⟨i, decoded, named⟩ := decodePhase_of_legal (p := s.phase) (by omega)
  have notIdle : s.phase ≠ phaseIdle := by
    intro idle
    rw [idle] at inCommand
    revert inCommand
    simp [phaseIdle]
  obtain ⟨p, follows⟩ := exists_successor named notIdle
  refine ⟨?_, ?_, i, p, decoded, named, follows⟩
  all_goals unfold phasesLeft; split <;> omega

/-- A command runs, on an input that can be rewound, and the host has no move pending. -/
structure Unattended (s : State) : Prop where
  inv : Inv s
  busy : s.busy = true
  rewindable : s.rewindable = true
  host : s.host = []

/-- A command has ended, by completion or by an error (48_commands.md R258). -/
def Ended (s : State) : Prop := s.busy = false ∧ (s.done = true ∨ s.err = true)

/-- A step of a running command ends it, or leaves one phase less to come. -/
theorem Unattended.step {s : State} (r : Unattended s) :
    ∃ t, step s = .next t ∧ (Ended t ∨ Unattended t ∧ phasesLeft s.phase = phasesLeft t.phase + 1) := by
  obtain ⟨inv, busy, rewindable, host⟩ := r
  obtain ⟨-, -, i, p, decoded, named, follows⟩ := inv.running_phase busy
  have runs : Machine.step s = exec i s := (step_of_no_move host).trans (codecMove_busy busy decoded)
  obtain ⟨t, h⟩ | ⟨-, refused⟩ := inv.phase_answers busy named
  · refine ⟨t, runs.trans h, ?_⟩
    have keeps := inv.phase busy named h
    obtain ⟨hostKept, rewindableKept⟩ := exec_keeps_host h
    cases exec_phaseEnd follows h with
    | handOver running same =>
      simp only [SameStatus, Prod.mk.injEq] at same
      obtain ⟨sameBusy, -⟩ := same
      exact .inr ⟨⟨keeps, sameBusy.trans busy, rewindableKept.trans rewindable, hostKept.trans host⟩,
        phasesLeft_successor named follows running⟩
    | complete => exact .inl ⟨rfl, .inl rfl⟩
    | raise e => exact .inl ⟨rfl, .inr rfl⟩
  · rw [rewindable] at refused
    cases refused

/-- A running command ends within the phases it has left. -/
theorem Unattended.run_ends {n : Nat} {s : State} (r : Unattended s) (left : phasesLeft s.phase = n) :
    ∃ k ≤ n, ∃ t, Host.Core.run Sys2Proof.core k s = .next t ∧ Ended t := by
  induction n generalizing s with
  | zero =>
    obtain ⟨least, -⟩ := r.inv.running_phase r.busy
    omega
  | succ n ih =>
    obtain ⟨t, next, ended | ⟨r', fewer⟩⟩ := r.step
    · exact ⟨1, by omega, t, run_step (n := 0) next, ended⟩
    · obtain ⟨k, le, u, run, ended⟩ := ih r' (by omega)
      exact ⟨k + 1, by omega, u, (run_step next).trans run, ended⟩

/-- Settles O55: a command has at most seven phases (48_commands.md R251). -/
theorem everyCommandEnds : Obligations.EveryCommandEnds := by
  intro s inv busy rewindable host
  obtain ⟨k, le, t, run, ended⟩ := Unattended.run_ends ⟨inv, busy, rewindable, host⟩ rfl
  obtain ⟨-, most, -⟩ := inv.running_phase busy
  exact ⟨k, le.trans most, t, run, ended⟩

end Sys2Proof
end

section
/-! PROOFS. The round trip on the machine: a waiting host sees the phases of a command run one after another, and those
of DECOMPRESS read back the file that COMPRESS wrote. -/

namespace Sys2Proof

open Machine

/-- The bytes of a file, closed on a byte boundary (30_encoding.md R110 to R113). -/
def CodeTree.file (T : CodeTree) (bytes : List Byte) : List Byte :=
  let bits := T.header ++ T.payload bytes
  bytesOf (bits ++ List.replicate (padding bits.length) false)

/-- A file's bytes hold the header, the payload, and at most some padding. -/
theorem CodeTree.bitsOfBytes_file (T : CodeTree) (bytes : List Byte) :
    ∃ pad, bitsOfBytes (T.file bytes) = T.header ++ T.payload bytes ++ pad := by
  refine ⟨_, bitsOfBytes_bytesOf ?_⟩
  rw [List.length_append, List.length_replicate]
  exact (padding_spec _).2

/-- These instructions are the phases that the sequencer runs from p on, each named by the one before it (48_commands.md
R253). -/
def Sequenced : PhaseCode → List Instr → Prop
  | _, [] => True
  | p, i :: later => decodePhase p = .ok i ∧ ∃ q, successor i = some q ∧ Sequenced q later

/-- The phases of DECOMPRESS are in order (48_commands.md R252). -/
theorem sequenced_decompress : Sequenced phaseReadMagic [.readMagic, .deserialize, .decode, .closeD] :=
  ⟨rfl, _, rfl, rfl, _, rfl, rfl, _, rfl, rfl, _, rfl, trivial⟩

namespace Machine

variable {later phases : List Instr} {i : Instr} {p : PhaseCode} {s t : State}

/-- What the first of some phases leaves: the command runs on with the others, or has ended. -/
theorem runPhases_cons_cases (h : runPhases ((i :: later).map exec) s = .next t) :
    ∃ u, exec i s = .next u ∧
      (u.busy = true ∧ runPhases (later.map exec) u = .next t ∨ u.busy = false ∧ u = t) := by
  rw [List.map_cons, runPhases] at h
  split at h
  · next u first =>
    refine ⟨u, first, ?_⟩
    split at h
    · next busy => exact .inl ⟨busy, h⟩
    · next idle => cases h; exact .inr ⟨by simpa using idle, rfl⟩
  · cases h
  · cases h

/-- Phases that end with DONE, set by none but the last, end by completion (48_commands.md R254). -/
theorem runPhases_completes (sequenced : Sequenced p phases) (notYet : s.done = false)
    (h : runPhases (phases.map exec) s = .next t) (done : t.done = true) : ∃ u : State, t = u.complete := by
  induction phases generalizing p s with
  | nil =>
    cases h
    exact absurd (notYet.symm.trans done) nofun
  | cons i later ih =>
    obtain ⟨-, q, follows, sequenced⟩ := sequenced
    obtain ⟨u, first, rest⟩ := runPhases_cons_cases h
    cases exec_phaseEnd follows first with
    | complete =>
      obtain ⟨busy, -⟩ | ⟨-, rfl⟩ := rest
      · cases busy
      · exact ⟨_, rfl⟩
    | raise e =>
      obtain ⟨busy, -⟩ | ⟨-, rfl⟩ := rest
      · cases busy
      · cases done
    | handOver running same =>
      simp only [SameStatus, Prod.mk.injEq] at same
      obtain ⟨-, kept, -⟩ := same
      obtain ⟨-, rest⟩ | ⟨-, rfl⟩ := rest
      · refine ih sequenced ?_ rest
        exact kept.trans notYet
      · exact absurd (notYet.symm.trans (kept.symm.trans done)) nofun

/-- A host that waits for the codec and then takes the output sees the phases of the command run one after another, one
a step, and takes what they have written. -/
theorem run_waiting (sequenced : Sequenced s.phase phases) (busy : s.busy = true)
    (h : runPhases (phases.map exec) s = .next t) (ended : t.busy = false) (readData : Word) (taken : List Byte) (n : Nat) :
    ∃ last, Host.Core.run Sys2Proof.core (n + 2 + phases.length) (s.withHostSide [.wait, .takeOut] readData taken) =
      .next (t.withHostSide [] last (bytesOf t.output)) := by
  induction phases generalizing s readData n with
  | nil =>
    cases h
    exact absurd (busy.symm.trans ended) nofun
  | cons i later ih =>
    obtain ⟨named, q, follows, sequenced⟩ := sequenced
    obtain ⟨u, first, rest⟩ := runPhases_cons_cases h
    have ran := instructionsIgnoreTheHostSide i s u [.wait, .takeOut] s.statusWord taken first
    have one := run_step (n := n + 2 + later.length)
      ((step_wait_busy (s := s.withHostSide [.wait, .takeOut] readData taken) rfl busy named).trans ran)
    obtain ⟨busy, rest⟩ | ⟨idle, rfl⟩ := rest
    · have phase : u.phase = q := by
        cases exec_phaseEnd follows first with
        | handOver => rfl
        | complete | raise e => cases busy
      obtain ⟨last, run⟩ := ih (by rw [phase]; exact sequenced) busy rest s.statusWord n
      exact ⟨last, one.trans run⟩
    · have close := run_ended (s := u.withHostSide [.wait, .takeOut] s.statusWord taken) rfl idle (n + later.length)
      rw [Nat.add_right_comm] at close
      exact ⟨_, one.trans close⟩

/-- The first three moves of the script of DECOMPRESS start it, whether the input can be rewound or not. -/
theorem run_decompressScript (file : List Byte) (rewindable : Bool) (idle : s.busy = false) (n : Nat) :
    Host.Core.run Sys2Proof.core (n + 3) (withScript (commandScript 2 file rewindable) s) =
      Host.Core.run Sys2Proof.core n { s.started 2 phaseReadMagic file with rewindable := rewindable } := by
  let attached : State := { s with input := bitsOfBytes file, inPos := 0, rewindable := rewindable }
  let ready : State := { attached with output := [], outClosed := false }
  obtain ⟨attachIn, -, -⟩ :=
    (hostOwnsTheStreamsWhileIdle s [.attachOut, .writeReg 0 4 2, .wait, .takeOut] file rewindable).1 idle
  obtain ⟨-, attachOut, -⟩ :=
    (hostOwnsTheStreamsWhileIdle attached [.writeReg 0 4 2, .wait, .takeOut] file rewindable).1 idle
  have write := idleCommandWrites ready [.wait, .takeOut] 2 idle
  exact (run_step attachIn).trans ((run_step attachOut).trans (run_step write))

/-- DECOMPRESS of a full tree's file gives the host the bytes of its payload (48_commands.md R261). -/
theorem run_decompress_file {T : CodeTree} {bytes : List Byte} (full : T.IsFull) (rewindable : Bool)
    (idle : s.busy = false) :
    ∃ t : State, Host.Core.run Sys2Proof.core 9 (withScript (commandScript 2 (T.file bytes) rewindable) s) = .next t ∧
      t.statusWord = 2 ∧ t.taken = bytes := by
  let accepted : State := { s.started 2 phaseReadMagic (T.file bytes) with rewindable := rewindable }
  obtain ⟨pad, bits⟩ := T.bitsOfBytes_file bytes
  obtain ⟨t, phases, done, output⟩ := decompressPhases_file (s := accepted) full rfl bits rfl
  obtain ⟨u, rfl⟩ := runPhases_completes sequenced_decompress (s := accepted) rfl phases done
  obtain ⟨last, run⟩ := run_waiting (s := accepted) sequenced_decompress rfl phases rfl s.readData s.taken 0
  refine ⟨_, (run_decompressScript (T.file bytes) rewindable idle 6).trans run, u.complete_statusWord, ?_⟩
  show bytesOf u.complete.output = bytes
  rw [output, bytesOf_bitsOfBytes]

end Machine

/-- COMPRESS of these bytes gives the host the file of one full tree, from every idle state. -/
theorem exists_compress_file {bytes : List Byte} (short : bytes.length ≤ 2 ^ 32 - 2) :
    ∃ T : CodeTree, T.IsFull ∧ ∀ s : State, s.busy = false →
      ∃ t : State, Host.Core.run Sys2Proof.core 12 (withScript (commandScript 1 bytes true) s) = .next t ∧
        t.statusWord = 2 ∧ t.taken = T.file bytes := by
  obtain ⟨T, full, compress⟩ := compressWritesTheFileFormat bytes short
  refine ⟨T, full, fun s idle => ?_⟩
  obtain ⟨t, run, status, -, -, output, taken⟩ := compress s idle
  refine ⟨t, run, status, ?_⟩
  rw [taken, output, List.append_assoc (bitsN 32 0xFACE8201 ++ T.records)]
  rfl

/-- Settles O57: COMPRESS writes the file of a full tree, and DECOMPRESS reads any such file back. -/
theorem decompressInvertsCompress : Obligations.DecompressInvertsCompress := by
  intro bytes short
  obtain ⟨T, full, compress⟩ := exists_compress_file short
  exact ⟨T.file bytes, compress, fun _ rewindable idle => run_decompress_file full rewindable idle⟩

end Sys2Proof
end

section
/-! PROOFS. Errors and reset: what an error leaves of the command that it ends, and what a reset leaves of any. -/

namespace Sys2Proof.Machine

/-- Settles O8: the codes are the table's, and `State.raise` writes the four fields of R285 alone. -/
theorem errorCodesFollowTheTable : Obligations.ErrorCodesFollowTheTable :=
  ⟨rfl, rfl, rfl, rfl, rfl, rfl, rfl, fun _ _ => rfl⟩

/-- What an instruction has kept when it raises an error: PHASE, OP, OUT_CLOSED, and but in DECODE the output
(60_exceptions.md R285, R286). -/
def KeptAtRaise (i : Instr) (s u : State) : Prop :=
  u.phase = s.phase ∧ u.op = s.op ∧ u.outClosed = s.outClosed ∧ (i ≠ .decode → u.output = s.output)

/-- An instruction sets ERR only by raising one of its errors (60_exceptions.md R280, R284): every other form of its next
state (`exec_shape`) leaves ERR as it was, or clears it. -/
theorem exec_raises {i : Instr} {s t : State} (noErr : s.err = false) (h : exec i s = .next t) (err : t.err = true) :
    ∃ e ∈ mayRaise i, ∃ u, t = u.raise e ∧ KeptAtRaise i s u := by
  have kept : s.err ≠ true := by rw [noErr]; exact nofun
  have shape := exec_shape h
  cases i with
  | compress | decompress =>
    obtain ⟨-, rfl⟩ | ⟨-, rfl⟩ := shape
    · exact absurd err kept
    · cases err
  | idle => obtain rfl := shape; exact absurd err kept
  | count =>
    obtain ⟨_, _, _, rfl | rfl⟩ := shape
    · exact absurd err kept
    · exact ⟨.inputTooLong, by simp [mayRaise], _, rfl, rfl, rfl, rfl, fun _ => rfl⟩
  | build => obtain ⟨_, _, _, rfl⟩ := shape; exact absurd err kept
  | gencodes | writeHeader => obtain ⟨_, rfl⟩ := shape; exact absurd err kept
  | rewind => obtain ⟨-, rfl⟩ := shape; exact absurd err kept
  | encode => obtain ⟨_, _, rfl⟩ := shape; exact absurd err kept
  | closeC | closeD => obtain rfl := shape; cases err
  | readMagic =>
    obtain ⟨_, rfl | rfl⟩ := shape
    · exact absurd err kept
    · exact ⟨.invalidMagicNumber, by simp [mayRaise], _, rfl, rfl, rfl, rfl, fun _ => rfl⟩
  | deserialize =>
    obtain ⟨_, _, _, ⟨_, rfl⟩ | ⟨_, rfl | rfl⟩⟩ := shape
    · exact absurd err kept
    · exact ⟨.malformedHeader, by simp [mayRaise], _, rfl, rfl, rfl, rfl, fun _ => rfl⟩
    · exact ⟨.nodeCapacity, by simp [mayRaise], _, rfl, rfl, rfl, rfl, fun _ => rfl⟩
  | decode =>
    obtain rfl | ⟨_, _, _, rfl | rfl⟩ := shape
    · exact ⟨.degenerateTree, by simp [mayRaise], _, rfl, rfl, rfl, rfl, fun _ => rfl⟩
    · exact absurd err kept
    · exact ⟨.badInput, by simp [mayRaise], _, rfl, rfl, rfl, rfl, fun other => absurd rfl other⟩
  | internal =>
    obtain rfl | rfl := shape
    · exact ⟨.nodeCapacity, by simp [mayRaise], _, rfl, rfl, rfl, rfl, fun _ => rfl⟩
    · exact absurd err kept
  | leaf v =>
    obtain rfl | ⟨_, _, _, rfl⟩ | ⟨_, _, rfl⟩ := shape
    · exact ⟨.nodeCapacity, by simp [mayRaise], _, rfl, rfl, rfl, rfl, fun _ => rfl⟩
    · exact absurd err kept
    · exact absurd err kept

/-- Settles O17: the instruction has raised one of its errors (`exec_raises`), and raising writes the fields of STATUS
alone. -/
theorem errorsAbortTheCommand : Obligations.ErrorsAbortTheCommand := by
  intro i s t noErr h err
  obtain ⟨e, may, u, rfl, phase, op, outClosed, output⟩ := exec_raises noErr h err
  exact ⟨e, may, rfl, rfl, rfl, phase, op, outClosed, output⟩

/-- A reset clears STATUS as `State.reset` has it, whatever the codec was doing (70_reset_and_hazards.md R310). -/
theorem State.codecReset_statusWord (s : State) : s.codecReset.statusWord = 0 := by
  obtain ⟨status, -⟩ := resetIsIdleAndClear
  exact status

/-- Settles O50: the step is the reset at the head of `host`, whatever phase runs, and `State.codecReset` keeps the
streams. -/
theorem resetAbandonsTheCommand : Obligations.ResetAbandonsTheCommand := by
  intro s later
  have move : step { s with host := .reset :: later } = .next { s with host := later : State }.codecReset := rfl
  exact ⟨_, move, State.codecReset_statusWord _, rfl, rfl, rfl, rfl, rfl, rfl, rfl, rfl, rfl⟩

end Sys2Proof.Machine
end
